-- ==== Sys2Proof/Word.lean ====
section
/-!
DEFINITION. The word types of the adaptive Huffman coder (AHC).

Every value the spec treats as bits is a bit vector of the width rule R12 gives it. Bit 0 is the least
significant bit of a field (R9). The AHC has no byte-addressed memory, so there is no byte order (R50).
-/

namespace Sys2Proof

/-- A command word, a response value or a CSR value: one 32-bit word on a 32-bit channel (R50, R61, R66). -/
abbrev Word := BitVec 32

/-- A slot index, 9 bits: a node's implicit number, or the sentinel `NONE` (R7, R12, R44). -/
abbrev Slot := BitVec 9

/-- A symbol, 8 bits, an integer in 0..255 (R7, R12). -/
abbrev Symbol := BitVec 8

/-- The operand field `OPND` of a command word, 16 bits (R61). -/
abbrev Operand := BitVec 16

end Sys2Proof
end

