-- ==== Sys2Proof/Syntax.lean ====
section
/-!
DEFINITION. The AHC command set, version 1: the ten legal commands of the opcode map (rules R2, R8, R63).

An operand is the whole 16-bit field `OPND`, unsigned, never sign-extended or scaled (R62). A command whose
operand is out of its legal range is still a legal command word: it runs, and completes with E_RANGE (R143), so
it is an instruction here.
-/

namespace Sys2Proof

/-- One constructor per row of the opcode table (R63). -/
inductive Instr where
  /-- NOP, `OPC` 0x0 (R128). -/
  | nop
  /-- INIT, `OPC` 0x1 (R130). -/
  | init
  /-- ENCODE with operand SYM, `OPC` 0x2 (R104). -/
  | encode (opnd : Operand)
  /-- DECODE, `OPC` 0x3 (R114). -/
  | decode
  /-- UPDATE with operand SYM, `OPC` 0x4 (R94). -/
  | update (opnd : Operand)
  /-- MAP with operand SYM, `OPC` 0x5 (R103). -/
  | map (opnd : Operand)
  /-- WALK, `OPC` 0x6 (R113). -/
  | walk
  /-- CSR_RD with operand CSRN, `OPC` 0x7 (R132). -/
  | csrRd (opnd : Operand)
  /-- NODE_RD_W with operand SLOT, `OPC` 0x8 (R135). -/
  | nodeRdW (opnd : Operand)
  /-- NODE_RD_S with operand SLOT, `OPC` 0x9 (R138). -/
  | nodeRdS (opnd : Operand)
deriving DecidableEq, Repr

end Sys2Proof
end

