-- ==== Sys2Proof/WellFormed.lean ====
section
/-!
DEFINITION. Which instructions have an operand in the legal range of rule R62.

Every `Instr` has a command word, so encoding needs no check; well-formedness here is the legal range that the
spec states for the operand. An instruction outside it is not malformed syntax: it completes with E_RANGE (R143).
-/

namespace Sys2Proof

/-- The operand is in its legal range (R62): SYM 0..255 for ENCODE, UPDATE and MAP; SLOT 0..510 for NODE_RD_W and
NODE_RD_S; CSRN 0..5 for CSR_RD. -/
def Instr.wellFormed : Instr → Bool
  | .nop => true
  | .init => true
  | .encode opnd => decide (opnd.toNat ≤ 255)
  | .decode => true
  | .update opnd => decide (opnd.toNat ≤ 255)
  | .map opnd => decide (opnd.toNat ≤ 255)
  | .walk => true
  | .csrRd opnd => decide (opnd.toNat ≤ 5)
  | .nodeRdW opnd => decide (opnd.toNat ≤ 510)
  | .nodeRdS opnd => decide (opnd.toNat ≤ 510)

end Sys2Proof
end

