-- ==== Sys2Proof/Decode.lean ====
section
/-!
DEFINITION. Decoding a 32-bit command word, and encoding an instruction (rules R61 to R65, R75).

Every word is decoded alone and every word is either legal or illegal, so `decode` is total. A word it rejects is
rejected by the name of the clause of R64 that makes it illegal; the CU answers all of them with E_ILLEGAL (R142).
-/

namespace Sys2Proof

/-- Why a command word is illegal: the three cases of rule R64. -/
inductive DecodeError where
  /-- `OPC` is 0xA..0xF. -/
  | reservedOpcode
  /-- `RSVD` is not 0. -/
  | reservedBits
  /-- `OPND` is not 0 on NOP, INIT, DECODE or WALK. -/
  | operandPresent
deriving DecidableEq, Repr

/-- Field `OPC`, bits [31:28] (R61). -/
def opcField (w : Word) : BitVec 4 := w.extractLsb' 28 4

/-- Field `RSVD`, bits [27:16] (R61). -/
def rsvdField (w : Word) : BitVec 12 := w.extractLsb' 16 12

/-- Field `OPND`, bits [15:0] (R61). -/
def opndField (w : Word) : Operand := w.extractLsb' 0 16

/-- A command that takes no operand: `OPND` must be 0 (R62, R64). -/
def withoutOperand (i : Instr) (opnd : Operand) : Except DecodeError Instr :=
  if opnd = 0 then .ok i else .error .operandPresent

/-- The decoder (R61 to R64). -/
def decode (w : Word) : Except DecodeError Instr :=
  if rsvdField w ≠ 0 then .error .reservedBits
  else
    let opnd := opndField w
    match (opcField w).toNat with
    | 0 => withoutOperand .nop opnd
    | 1 => withoutOperand .init opnd
    | 2 => .ok (.encode opnd)
    | 3 => withoutOperand .decode opnd
    | 4 => .ok (.update opnd)
    | 5 => .ok (.map opnd)
    | 6 => withoutOperand .walk opnd
    | 7 => .ok (.csrRd opnd)
    | 8 => .ok (.nodeRdW opnd)
    | 9 => .ok (.nodeRdS opnd)
    | _ => .error .reservedOpcode

/-- The opcode of an instruction (R63). -/
def opcodeOf : Instr → BitVec 4
  | .nop => 0x0
  | .init => 0x1
  | .encode _ => 0x2
  | .decode => 0x3
  | .update _ => 0x4
  | .map _ => 0x5
  | .walk => 0x6
  | .csrRd _ => 0x7
  | .nodeRdW _ => 0x8
  | .nodeRdS _ => 0x9

/-- The operand field of an instruction's word; 0 where it takes no operand (R62). -/
def operandOf : Instr → Operand
  | .nop => 0
  | .init => 0
  | .encode opnd => opnd
  | .decode => 0
  | .update opnd => opnd
  | .map opnd => opnd
  | .walk => 0
  | .csrRd opnd => opnd
  | .nodeRdW opnd => opnd
  | .nodeRdS opnd => opnd

/-- The legal command word of an instruction, `{OPC, 12'h000, OPND}` (R63). -/
def encode (i : Instr) : Word := (opcodeOf i ++ (0 : BitVec 12)) ++ operandOf i

/-- The command word whose bits below `nbits` are those of `w`, every other bit 0. -/
def tableWord (nbits w : Nat) : Word := BitVec.ofNat 32 (w % 2 ^ nbits)

/-- The instruction the decoder reads from the bits of an opcode-table row. -/
def decodeTableWord (nbits w : Nat) : Option Instr :=
  match decode (tableWord nbits w) with
  | .ok i => some i
  | .error _ => none

end Sys2Proof
end

