-- ==== Sys2Proof/Config.lean ====
section
/-!
DEFINITION. What an implementation fixes (rule R7) and the free values of the one outcome the spec leaves
unspecified, the state after E_INTERNAL (rule R146).

`W_BITS` is the one open parameter of the spec (R7, D4). It is a field of the machine's state that no step
changes, so a claim about every state is a claim about every legal `W_BITS` (log entry 1).
-/

namespace Sys2Proof.Config

/-- `N_SYM` (R7): the number of symbols. -/
abbrev nSym : Nat := 256

/-- `N_SLOT` (R7): the number of node slots, 2·256 − 1. -/
abbrev nSlot : Nat := 511

/-- `ROOT` (R7): the slot of the tree root. -/
def root : Slot := 510

/-- `NONE` (R7): the "no slot" sentinel, nine ones. -/
def noSlot : Slot := 511

/-- `MAX_DEPTH` (R7): the upper bound on a leaf's depth. -/
abbrev maxDepth : Nat := 255

/-- `MAX_OUT` (R7): the upper bound on the bits one symbol emits or consumes. -/
abbrev maxOut : Nat := 263

/-- A choice of `W_BITS`, as its offset from 9: the 24 legal widths 9..32 and no other (R7, D4). -/
abbrev WBits := Fin 24

/-- The weight width `W_BITS` of a choice, in 9..32 (R7). -/
def WBits.bits (c : WBits) : Nat := 9 + c.val

/-- The choice `W_BITS` = 32, which the spec's own examples use (R7). -/
abbrev w32 : WBits := 23

/-- The choice `W_BITS` = 9, the least width (R7, D4). -/
abbrev w9 : WBits := 0

/-! The draws of rule R146: what E_INTERNAL leaves in the node store, `SLOT_OF`, `LO` and `NYTP`. The first
argument counts the E_INTERNAL errors so far, so that two of them are not known to leave the same state. None of
these constants has a body: no proof can learn a value of one (log entry 3). -/

/-- The weight that E_INTERNAL number `k` leaves in slot `i` (cut to `W_BITS` bits where it is stored). -/
opaque drawWeight (k i : Nat) : Word

/-- The KIND that E_INTERNAL number `k` leaves in slot `i`. -/
opaque drawKind (k i : Nat) : BitVec 2

/-- The SYM that E_INTERNAL number `k` leaves in slot `i`. -/
opaque drawSym (k i : Nat) : Symbol

/-- The CHILD that E_INTERNAL number `k` leaves in slot `i`. -/
opaque drawChild (k i : Nat) : Slot

/-- The PARENT that E_INTERNAL number `k` leaves in slot `i`. -/
opaque drawParent (k i : Nat) : Slot

/-- The `SLOT_OF` entry that E_INTERNAL number `k` leaves for symbol `y`. -/
opaque drawSlotOf (k y : Nat) : Slot

/-- The `LO` that E_INTERNAL number `k` leaves. -/
opaque drawLo (k : Nat) : Slot

/-- The `NYTP` that E_INTERNAL number `k` leaves. -/
opaque drawNytp (k : Nat) : Bool

end Sys2Proof.Config
end

