-- ==== Sys2Proof/Machine/State.lean ====
section
/-!
DEFINITION. The AHC's state, as plain data, and its reset value (rules R16 to R43, R58 to R60, R66, R71, R72, R151).

The AHC has no general registers, no program counter and no byte-addressed memory (R16, R17, R50). Its state is the
code tree (the node store, `SLOT_OF`, `LO`, `NYTP`), two status fields, and the phase of its control unit. Beside
them stand the four channels and the pins that the host drives, held as plain data so that a step can read them
(R42, R58, log entry 4).
-/

namespace Sys2Proof.Machine

open Sys2Proof.Config

/-! ## The code tree -/

/-- `KIND[i]` (R19). -/
inductive Kind where
  /-- 0: the slot holds no node. -/
  | unused
  /-- 1: an internal node with two children. -/
  | internal
  /-- 2: the leaf of a symbol already seen. -/
  | leaf
  /-- 3: the NYT leaf. -/
  | nyt
deriving DecidableEq, Repr

/-- One element of the slot space: a whole node (R18, R45). `weight` holds a `W_BITS`-bit number, zero-extended to
the 32 bits of the largest `W_BITS`. -/
structure Node where
  /-- `W[i]`. -/
  weight : Word
  /-- `KIND[i]`. -/
  kind : Kind
  /-- `SYM[i]`. -/
  sym : Symbol
  /-- `CHILD[i]`: the right child's slot. -/
  child : Slot
  /-- `PARENT[i]`. -/
  parent : Slot
deriving DecidableEq, Repr

/-- The canonical content of an UNUSED slot (R20). -/
def Node.empty : Node := { weight := 0, kind := .unused, sym := 0, child := noSlot, parent := noSlot }

/-- The fresh session's root: the NYT leaf, with no parent (R43). -/
def Node.freshRoot : Node := { Node.empty with kind := .nyt }

/-- The code tree (R18, R21 to R23). -/
structure Tree where
  /-- The node store: the five arrays of R18, one node per slot 0..510. -/
  nodes : Vector Node 511
  /-- `SLOT_OF[s]`, s in 0..255 (R21). -/
  slotOf : Vector Slot 256
  /-- `LO`: the lowest slot in use (R22). -/
  lo : Slot
  /-- `NYTP`: the tree holds the NYT leaf (R23). -/
  nytp : Bool
deriving DecidableEq, Repr

/-- The tree after reset or INIT: the NYT is the root, every other slot is UNUSED (R43). -/
def Tree.fresh : Tree :=
  { nodes := (Vector.replicate 511 Node.empty).set 510 Node.freshRoot
    slotOf := Vector.replicate 256 noSlot
    lo := root
    nytp := true }

/-! ## Responses and beats -/

/-- The status codes (R67). Codes 8..15 are never produced. -/
inductive Status where
  | ok
  | eIllegal
  | eRange
  | eOverflow
  | eTruncated
  | eStream
  | eInternal
  | eFatal
deriving DecidableEq, Repr

/-- One response: `rsp_status` and `rsp_value` (R66). -/
structure Response where
  status : Status
  value : Word
deriving DecidableEq, Repr

/-- A bit-out beat: `bout_bit` and `bout_last` (R71). -/
structure OutBeat where
  bit : Bool
  last : Bool
deriving DecidableEq, Repr

/-- A bit-in beat: `bin_eos` and `bin_bit`; the bit of an end-of-stream beat is ignored (R72). -/
structure InBeat where
  eos : Bool
  bit : Bool
deriving DecidableEq, Repr

/-! ## The control unit's phase -/

/-- Where the tree walker stands while it needs a beat (R110). -/
inductive TwPos where
  /-- At INTERNAL slot `i`, with `n` bits taken. -/
  | descend (i : Slot) (n : Nat)
  /-- In an escape's raw bits: `v` read so far, `left` still to read, `n` bits taken. -/
  | raw (v : Symbol) (left n : Nat)
deriving DecidableEq, Repr

/-- The phase of the control unit (R60). Execute is split by what the command in flight waits for on a channel
(R154, R155); the rest of a command's progress is no state (R41). -/
inductive Phase where
  /-- Idle: the only phase in which a command is accepted. -/
  | idle
  /-- Execute, DECODE (`upd`) or WALK (not `upd`): the walker waits for a bit-in beat. -/
  | walking (upd : Bool) (pos : TwPos)
  /-- Execute, ENCODE or MAP: `beats` are still to transfer; then the symbol `upd` is applied to the tree, if there
  is one (ENCODE), and `rsp` is offered. -/
  | emitting (beats : List OutBeat) (upd : Option Symbol) (rsp : Response)
  /-- Respond: the response is offered and has not transferred. -/
  | responding (rsp : Response)
deriving DecidableEq, Repr

/-! ## The state -/

/-- Everything the spec gives the AHC, the host's side of its four channels, and one counter of the model's own. -/
structure State where
  /-- The parameter `W_BITS` (R7). No step writes it (R130, R151). -/
  wBits : WBits
  /-- The node store, `SLOT_OF`, `LO` and `NYTP` (R18, R21 to R23). -/
  tree : Tree
  /-- `FATAL` (R24). -/
  fatal : Bool
  /-- `FATAL_CAUSE` (R24). -/
  fatalCause : BitVec 4
  /-- The phase of the control unit (R60). -/
  phase : Phase
  /-- The reset pin `rst`, driven by the host (R58, R151). -/
  rst : Bool
  /-- The command channel: the words the host presents, in order; the first is the one on `cmd_data` (R58, R59). -/
  cmdQ : List Word
  /-- The bit-in channel: the beats presented and not yet taken, earliest first (R42, R72). -/
  binQ : List InBeat
  /-- The pin `bout_ready`, driven by the host (R58). -/
  boutReady : Bool
  /-- The pin `rsp_ready`, driven by the host (R58). -/
  rspReady : Bool
  /-- The bit-out beats that have transferred to the host, earliest first (R54, R71). -/
  boutSent : List OutBeat
  /-- The responses that have transferred to the host, earliest first (R54, R66). -/
  rspSent : List Response
  /-- The MODEL's own: how many E_INTERNAL errors have been raised; it selects the next draw of R146
  (log entry 3). -/
  draws : Nat
deriving DecidableEq, Repr

/-- The state right after reset, for a given `W_BITS` (R43, R151): a fresh session, the CU Idle, nothing on any
channel. The host-driven pins hold the values of log entry 5. -/
def State.resetWith (c : WBits) : State :=
  { wBits := c
    tree := Tree.fresh
    fatal := false
    fatalCause := 0
    phase := .idle
    rst := false
    cmdQ := []
    binQ := []
    boutReady := true
    rspReady := true
    boutSent := []
    rspSent := []
    draws := 0 }

/-- The machine right after reset, with `W_BITS` = 32, the width the spec's examples use (R7, R43, log entry 1). -/
def State.reset : State := State.resetWith w32

/-! ## How a step can stop -/

/-- The reasons a step can fault: none. An AHC error is a response, never a trap (R141), and every accepted word,
legal or not, has a response (R66), so no meaning has a reason to fault. Safe: there is no constructor to raise. -/
inductive Fault where
deriving DecidableEq, Repr

/-- The reasons a step can refuse. -/
inductive Refusal where
  /-- Raised by `exec`'s arm of an instruction that has no meaning yet, and by nothing else; no arm raises it now.
  Safe: the machine stops where the hardware goes on. -/
  | notModelled (mnemonic : String)
deriving DecidableEq, Repr

end Sys2Proof.Machine
end

