-- ==== Sys2Proof/Machine/Operands.lean ====
section
/-!
DEFINITION. The operand forms of a command (rule R62) and the packed formats of a response (rules R67 to R70).
-/

namespace Sys2Proof.Machine

open Sys2Proof.Config

/-! ## Operands -/

/-- The SYM form: the symbol `s = OPND`, legal in 0..255; `none` is E_RANGE (R62, R143). -/
def symOperand (opnd : Operand) : Option Symbol :=
  if opnd.toNat ≤ 255 then some (opnd.setWidth 8) else none

/-- The SLOT form: the slot `i = OPND`, legal in 0..510; `none` is E_RANGE (R45, R62, R143). -/
def slotOperand (opnd : Operand) : Option Slot :=
  if opnd.toNat ≤ 510 then some (opnd.setWidth 9) else none

/-- The CSRs (R26). -/
inductive Csr where
  | id
  | status
  | total
  | nodes
  | seen
  | loSlot
deriving DecidableEq, Repr

/-- The CSRN form: the CSR number `n = OPND`, legal in 0..5; `none` is E_RANGE (R26, R62, R143). -/
def csrOperand (opnd : Operand) : Option Csr :=
  match opnd.toNat with
  | 0 => some .id
  | 1 => some .status
  | 2 => some .total
  | 3 => some .nodes
  | 4 => some .seen
  | 5 => some .loSlot
  | _ => none

/-! ## Codes and formats -/

/-- The 4-bit code of a status (R67). -/
def Status.code : Status → BitVec 4
  | .ok => 0
  | .eIllegal => 1
  | .eRange => 2
  | .eOverflow => 3
  | .eTruncated => 4
  | .eStream => 5
  | .eInternal => 6
  | .eFatal => 7

/-- The fatal statuses (R67, R145). -/
def Status.isFatal : Status → Bool
  | .eTruncated => true
  | .eStream => true
  | .eInternal => true
  | .ok => false
  | .eIllegal => false
  | .eRange => false
  | .eOverflow => false
  | .eFatal => false

/-- The 2-bit value of a KIND (R19). -/
def Kind.code : Kind → BitVec 2
  | .unused => 0
  | .internal => 1
  | .leaf => 2
  | .nyt => 3

/-- The KIND of a 2-bit value (R19). -/
def Kind.ofCode (b : BitVec 2) : Kind :=
  match b.toNat with
  | 0 => .unused
  | 1 => .internal
  | 2 => .leaf
  | _ => .nyt

/-- The RESULT format: NBITS in [8:0], NEW in [9], SYM in [17:10], zeros above (R68). -/
def resultWord (n : Nat) (new : Bool) (y : Symbol) : Word :=
  (((0 : BitVec 14) ++ y) ++ BitVec.ofBool new) ++ BitVec.ofNat 9 n

/-- The NODE_S format: KIND in [1:0], SYM in [9:2], PARENT in [18:10], CHILD in [27:19], zeros above (R69). -/
def nodeSWord (n : Node) : Word :=
  ((((0 : BitVec 4) ++ n.child) ++ n.parent) ++ n.sym) ++ n.kind.code

/-- `raw8(s)`: the 8-bit binary code of a symbol, most significant bit first (R10, R48). -/
def raw8 (y : Symbol) : List Bool :=
  [y.getLsbD 7, y.getLsbD 6, y.getLsbD 5, y.getLsbD 4, y.getLsbD 3, y.getLsbD 2, y.getLsbD 1, y.getLsbD 0]

end Sys2Proof.Machine
end

