-- ==== Sys2Proof/Machine/Flags.lean ====
section
/-!
DEFINITION. The two status fields `FATAL` and `FATAL_CAUSE` (rule R24) and the STATUS word they appear in (R28).
They are no condition codes: no command reads them as a branch condition (R24, R125).
-/

namespace Sys2Proof.Machine

open Sys2Proof.Config

/-- What an error does to the status fields: a fatal one sets `FATAL` and puts its code in `FATAL_CAUSE`, any other
leaves both (R24, R145). -/
def State.recordError (s : State) (e : Status) : State :=
  if e.isFatal then { s with fatal := true, fatalCause := e.code } else s

/-- `FATAL` and `FATAL_CAUSE` cleared, as INIT and reset clear them (R130, R149, R151). -/
def State.clearFatal (s : State) : State := { s with fatal := false, fatalCause := 0 }

/-- `m`, the node count, 511 − `LO` (R22, R25). -/
def Tree.nodeCount (t : Tree) : Nat := 511 - t.lo.toNat

/-- `FRESH`: no symbol has been processed in the session, the NYT is the root (R25). -/
def Tree.isFresh (t : Tree) : Bool := t.nodeCount = 1

/-- The STATUS word: `FATAL` in [0], `NYTP` in [1], FRESH in [2], CAUSE in [7:4], zeros elsewhere (R28). -/
def State.statusWord (s : State) : Word :=
  (((((0 : BitVec 24) ++ s.fatalCause) ++ (0 : BitVec 1)) ++ BitVec.ofBool s.tree.isFresh)
    ++ BitVec.ofBool s.tree.nytp) ++ BitVec.ofBool s.fatal

end Sys2Proof.Machine
end

