-- ==== Sys2Proof/Machine/Ops.lean ====
section
/-!
DEFINITION. The named operations over the AHC's state: reading and writing the node store and `SLOT_OF`, the weight
arithmetic, offering a response, RAISING AN ERROR (one shared operation for all eight statuses), starting a fresh
session (the only way back from a fatal error), and the checks that every command makes before it executes.
-/

namespace Sys2Proof.Machine

open Sys2Proof.Config

/-! ## The node store and `SLOT_OF` -/

/-- The node in slot `i`. Index 511 is not a slot (R45): it reads as the canonical UNUSED node, which every walk of
the tree answers with E_INTERNAL (log entry 6). -/
def Tree.node (t : Tree) (i : Slot) : Node :=
  if h : i.toNat < 511 then t.nodes[i.toNat] else Node.empty

/-- Slot `i` holds `f` of what it held; nothing is stored at index 511, which is no slot (R45). -/
def Tree.modify (t : Tree) (i : Slot) (f : Node → Node) : Tree :=
  if h : i.toNat < 511 then { t with nodes := t.nodes.set i.toNat (f t.nodes[i.toNat]) } else t

/-- `SLOT_OF[y]` (R21). -/
def Tree.slotOfSym (t : Tree) (y : Symbol) : Slot := t.slotOf[y.toNat]

/-- `SLOT_OF[y] <- i` (R21). -/
def Tree.setSlotOf (t : Tree) (y : Symbol) (i : Slot) : Tree :=
  { t with slotOf := t.slotOf.set y.toNat i }

/-- `PARENT[i] <- p` (R18). -/
def Tree.setParent (t : Tree) (i p : Slot) : Tree := t.modify i fun n => { n with parent := p }

/-- `W[i] <- w` (R18). -/
def Tree.setWeight (t : Tree) (i : Slot) (w : Word) : Tree := t.modify i fun n => { n with weight := w }

/-! ## Weights (R92) -/

/-- `MAXW` = 2^`W_BITS` − 1 (R7). -/
def maxW (c : WBits) : Word := BitVec.ofNat 32 (2 ^ c.bits - 1)

/-- The `+1` of a weight, on `W_BITS` bits (R92). It does not wrap after the headroom check (R82, log entry 7). -/
def weightSucc (c : WBits) (w : Word) : Word := (w + 1) &&& maxW c

/-! ## Responses (R60, R66) -/

/-- The CU offers response `r` and the command is over: it transfers at once, and the CU is Idle, where the host
holds `rsp_ready`; else the CU stays in Respond with the response offered (R59, R60). -/
def State.offer (s : State) (r : Response) : State :=
  if s.rspReady then { s with phase := .idle, rspSent := s.rspSent ++ [r] }
  else { s with phase := .responding r }

/-- `Respond(OK, v)` (R11). -/
def State.respondOk (s : State) (v : Word) : State := s.offer { status := .ok, value := v }

/-! ## Raising an error (R141 to R147) -/

/-- The tree that E_INTERNAL number `k` leaves: the node store, `SLOT_OF`, `LO` and `NYTP` are unspecified, each field
within its width (R146). It is irreducible because there is nothing in it to compute. -/
@[irreducible] def drawTree (c : WBits) (k : Nat) : Tree :=
  { nodes := Vector.ofFn fun i =>
      { weight := drawWeight k i &&& maxW c
        kind := Kind.ofCode (drawKind k i)
        sym := drawSym k i
        child := drawChild k i
        parent := drawParent k i }
    slotOf := Vector.ofFn fun y => drawSlotOf k y
    lo := drawLo k
    nytp := drawNytp k }

/-- What E_INTERNAL leaves of the tree: a draw (R146). -/
def State.loseTree (s : State) : State :=
  { s with tree := drawTree s.wBits s.draws, draws := s.draws + 1 }

/-- TAKING AN ERROR, `raise e(v)` (R11, R141): the fatal errors set `FATAL` and `FATAL_CAUSE` (R145), E_INTERNAL also
leaves the tree unspecified (R146), nothing is saved and control goes nowhere (R141); then the response is offered and
the CU goes on to the next command. -/
def State.raise (s : State) (e : Status) (v : Word) : State :=
  ((if e = .eInternal then s.loseTree else s).recordError e).offer { status := e, value := v }

/-- The way back from a fatal error, and there is no other (R149): every piece of the AHC's state takes its reset
value (R43), as INIT and reset both do; the channels, the pins and `W_BITS` keep theirs (R130, R131, R151). -/
def State.freshSession (s : State) : State := { s.clearFatal with tree := Tree.fresh }

/-! ## The checks before execution (R148, steps 2 to 4) -/

/-- Step 2: a tree command is refused with E_FATAL while `FATAL` = 1 (R147); else it goes on. -/
def State.unlessFatal (s : State) (go : State) : State :=
  if s.fatal then s.raise .eFatal 0 else go

/-- Step 3: an operand out of its range is E_RANGE (R143); else the command goes on with it. -/
def State.withOperand {α : Type} (s : State) (x : Option α) (go : α → State) : State :=
  match x with
  | none => s.raise .eRange 0
  | some a => go a

/-- `W[ROOT] == MAXW`: no headroom is left (R82). -/
def State.atMaxW (s : State) : Bool := (s.tree.node root).weight == maxW s.wBits

/-- Step 4: no headroom is E_OVERFLOW (R82, R144); else the command goes on. -/
def State.withHeadroom (s : State) (go : State) : State :=
  if s.atMaxW then s.raise .eOverflow 0 else go

end Sys2Proof.Machine
end

