-- ==== Sys2Proof/Machine/Csr.lean ====
section
/-!
DEFINITION. The values of the six control and status registers (rules R25 to R32, R132). All are read-only and
computed from the state; none is stored.
-/

namespace Sys2Proof.Machine

open Sys2Proof.Config

/-- `TOTAL` = `W[ROOT]`, the updates of the session (R25). -/
def Tree.total (t : Tree) : Word := (t.node root).weight

/-- `SEEN`, the number of distinct symbols seen (R25, R132). DESIGN CHOICE (log entry 8): for an odd `LO`, which only a draw
of R146 can leave, the spec does not say how `(510 - LO)/2` rounds, and it is rounded down here; for `LO` = 511 the
subtraction stops at 0. -/
def Tree.seenCount (t : Tree) : Nat := (510 - t.lo.toNat) / 2 + (if t.nytp then 0 else 1)

/-- CSR 0, ID: MAGIC 0x4148, VERSION 0x01, `W_BITS` (R27). -/
def idWord (c : WBits) : Word := ((0x4148 : BitVec 16) ++ (0x01 : BitVec 8)) ++ BitVec.ofNat 8 c.bits

/-- The value of a CSR (R132). -/
def State.csrValue (s : State) : Csr → Word
  | .id => idWord s.wBits
  | .status => s.statusWord
  | .total => s.tree.total
  | .nodes => BitVec.ofNat 32 s.tree.nodeCount
  | .seen => BitVec.ofNat 32 s.tree.seenCount
  | .loSlot => s.tree.lo.setWidth 32

end Sys2Proof.Machine
end

