-- ==== Sys2Proof/Machine/Control.lean ====
section
/-!
DEFINITION. The control, status and inspection commands: NOP (R128), INIT (R130), CSR_RD (R132), NODE_RD_W (R135) and
NODE_RD_S (R138). None is a tree command, so each runs while `FATAL` = 1 (R147).
-/

namespace Sys2Proof.Machine

open Sys2Proof.Config

/-- NOP (R128). -/
def execNop (s : State) : Host.Outcome State Fault Refusal := .next <| s.respondOk 0

/-- INIT (R130): a fresh session; it touches no channel but the response's (R131). -/
def execInit (s : State) : Host.Outcome State Fault Refusal := .next <| s.freshSession.respondOk 0

/-- CSR_RD (R132): a read without a side effect (R47). -/
def execCsrRd (opnd : Operand) (s : State) : Host.Outcome State Fault Refusal :=
  .next <| s.withOperand (csrOperand opnd) fun n => s.respondOk (s.csrValue n)

/-- NODE_RD_W (R135): the weight of a slot, zero-extended. -/
def execNodeRdW (opnd : Operand) (s : State) : Host.Outcome State Fault Refusal :=
  .next <| s.withOperand (slotOperand opnd) fun i => s.respondOk (s.tree.node i).weight

/-- NODE_RD_S (R138): the structure of a slot, in the NODE_S format. -/
def execNodeRdS (opnd : Operand) (s : State) : Host.Outcome State Fault Refusal :=
  .next <| s.withOperand (slotOperand opnd) fun i => s.respondOk (nodeSWord (s.tree.node i))

end Sys2Proof.Machine
end

