-- ==== Sys2Proof/Machine/UpdateEngine.lean ====
section
/-!
DEFINITION. The tree-state update engine UE: `Update(s)` (rules R81 to R92) and the command UPDATE (R94).

The procedures work on the tree alone. `none` is `raise E_INTERNAL(0)`: a failed check of R91, or a structure that no
rule reaches, such as a child or an `LO` that is no slot (log entry 6).
-/

namespace Sys2Proof.Machine

open Sys2Proof.Config

/-! ## Keys (R87) -/

/-- `cls`: 0 for a leaf (LEAF or NYT), 1 for an internal node (R87). An UNUSED slot has no class in the spec; 0 here
(log entry 6). -/
def Kind.cls : Kind → Nat
  | .unused => 0
  | .internal => 1
  | .leaf => 0
  | .nyt => 0

/-- The order of keys (weight, class): lexicographic, weights unsigned (R87, R92). -/
def keyLt (w₁ : Word) (c₁ : Nat) (w₂ : Word) (c₂ : Nat) : Bool :=
  decide (w₁.toNat < w₂.toNat) || (decide (w₁ = w₂) && decide (c₁ < c₂))

/-- `key(i) < (w, c)` (R87). -/
def Tree.keyBelow (t : Tree) (i : Slot) (w : Word) (c : Nat) : Bool :=
  keyLt (t.node i).weight (t.node i).kind.cls w c

/-! ## Primitive moves (R89, R90) -/

/-- The content of a node, without its PARENT, put into slot `d`, whose PARENT stays (R90). -/
def Tree.putContent (t : Tree) (d : Slot) (n : Node) : Tree :=
  t.modify d fun old => { n with parent := old.parent }

/-- `Place(d, content)`: an INTERNAL node's children follow it, a LEAF's `SLOT_OF` follows it (R90). `none` where the
two children are no pair of slots, which is a structurally missing node (R91, log entry 6). -/
def Tree.place (t : Tree) (d : Slot) (n : Node) : Option Tree :=
  match n.kind with
  | .internal =>
    if n.child = 0 ∨ n.child = noSlot then none
    else some (((t.putContent d n).setParent n.child d).setParent (n.child - 1) d)
  | .leaf => some ((t.putContent d n).setSlotOf n.sym d)
  | .nyt => some (t.putContent d n)
  | .unused => some (t.putContent d n)

/-- The loop of `Rotate`: the contents of the `n` slots after `k` each move down by one (R90). -/
def Tree.shiftDown : Nat → Slot → Tree → Option Tree
  | 0, _, t => some t
  | n + 1, k, t => (t.place k (t.node (k + 1))).bind (Tree.shiftDown n (k + 1))

/-- `Rotate(p, t)`: the node from slot `p` goes to slot `q`, the nodes of p+1..q each go down by one (R90). -/
def Tree.rotate (t : Tree) (p q : Slot) : Option Tree :=
  if p = q then some t
  else (Tree.shiftDown (q.toNat - p.toNat) p t).bind fun t' => t'.place q (t.node p)

/-- `Leader(q)`: from `l`, the highest slot of the run of slots with `q`'s KIND and weight (R89). The first argument
bounds the climb, which ends at `ROOT`. -/
def Tree.leaderFrom (t : Tree) (q : Slot) : Nat → Slot → Slot
  | 0, l => l
  | fuel + 1, l =>
    if l.toNat < root.toNat ∧ (t.node (l + 1)).kind = (t.node q).kind
        ∧ (t.node (l + 1)).weight = (t.node q).weight then
      t.leaderFrom q fuel (l + 1)
    else l

/-- `Leader(q)` (R89). -/
def Tree.leader (t : Tree) (q : Slot) : Slot := t.leaderFrom q 511 q

/-- `SwapLeaves(a, b)` (R89). -/
def Tree.swapLeaves (t : Tree) (a b : Slot) : Option Tree :=
  if a = b then some t
  else (t.place a (t.node b)).bind fun t' => t'.place b (t.node a)

/-! ## Slide and increment (R87) -/

/-- The slide's landing slot: from `q`, past every higher slot whose key is below `(w, c)`. `none` is check IC2, a
slide past slot `p`'s own parent (R87, R91). The first argument bounds the slide, which ends at `ROOT`. -/
def Tree.slideFrom (t : Tree) (p : Slot) (w : Word) (c : Nat) : Nat → Slot → Option Slot
  | 0, q => some q
  | fuel + 1, q =>
    if q.toNat < root.toNat ∧ t.keyBelow (q + 1) w c = true then
      if q + 1 = (t.node p).parent then none
      else t.slideFrom p w c fuel (q + 1)
    else some q

/-- `SlideAndIncrement(p)`: the tree after it, and the next node to increment (R87). `none` is check IC2 or IC3. -/
def Tree.slideAndIncrement (c : WBits) (t : Tree) (p : Slot) : Option (Tree × Slot) :=
  let n := t.node p
  let w := weightSucc c n.weight
  if n.kind = .leaf ∨ n.kind = .internal then
    (t.slideFrom p w n.kind.cls 511 p).bind fun q =>
      (t.rotate p q).bind fun t' =>
        let t'' := t'.setWeight q w
        some (t'', if n.kind = .internal then n.parent else (t''.node q).parent)
  else none

/-- The chain to the root: `SlideAndIncrement` on the returned slot until it is `NONE` (R88). The first argument
bounds the chain; a chain that long is endless, which no rule reaches (log entry 6). -/
def Tree.chain (c : WBits) : Nat → Slot → Tree → Option Tree
  | 0, q, t => if q = noSlot then some t else none
  | fuel + 1, q, t =>
    if q = noSlot then some t
    else (t.slideAndIncrement c q).bind fun r => Tree.chain c fuel r.2 r.1

/-- The deferred step: one `SlideAndIncrement` whose returned slot is discarded (R88). -/
def Tree.deferredStep (c : WBits) (defer : Slot) (t : Tree) : Option Tree :=
  if defer = noSlot then some t else (t.slideAndIncrement c defer).map Prod.fst

/-! ## Growth and seen symbols (R83 to R86) -/

/-- Where an update starts: the tree, the first slot of the chain, and the deferred slot or `NONE` (R81). -/
structure UpdateStart where
  tree : Tree
  first : Slot
  defer : Slot
deriving DecidableEq, Repr

/-- `Split(s)` (R83). `none` where `LO`−2..`LO` are not three slots, which no rule reaches (log entry 6). -/
def Tree.split (t : Tree) (y : Symbol) : Option UpdateStart :=
  let o := t.lo
  if o.toNat < 2 ∨ o = noSlot then none
  else
    let t₁ := t.modify o fun n => { n with kind := .internal, child := o - 1 }
    let t₂ := t₁.modify (o - 2) fun _ => { weight := 0, kind := .nyt, sym := 0, child := noSlot, parent := o }
    let t₃ := t₂.modify (o - 1) fun _ => { weight := 0, kind := .leaf, sym := y, child := noSlot, parent := o }
    some { tree := { t₃.setSlotOf y (o - 1) with lo := o - 2 }, first := o, defer := o - 1 }

/-- `Absorb(s)` (R84): the NYT in slot 0 becomes the leaf of the last unseen symbol. -/
def Tree.absorb (t : Tree) (y : Symbol) : UpdateStart :=
  let t₁ := t.modify 0 fun n => { n with kind := .leaf, sym := y }
  { tree := { t₁.setSlotOf y 0 with nytp := false }, first := 0, defer := noSlot }

/-- A symbol seen before: the leader swap, and the deferral of the NYT's sibling (R81, R85, R86). `none` is check
IC4. -/
def Tree.seenStart (t : Tree) (y : Symbol) : Option UpdateStart :=
  let q := t.slotOfSym y
  if (t.node q).kind ≠ .leaf ∨ (t.node q).sym ≠ y then none
  else
    let l := t.leader q
    (t.swapLeaves q l).map fun t' =>
      if t'.nytp = true ∧ l.toNat = t'.lo.toNat + 1 then
        { tree := t', first := (t'.node l).parent, defer := l }
      else { tree := t', first := l, defer := noSlot }

/-- The first part of `Update(s)`, up to the chain (R81). `none` is check IC1 or IC4. -/
def Tree.updateStart (t : Tree) (y : Symbol) : Option UpdateStart :=
  if t.slotOfSym y = noSlot then
    if t.nytp = false then none
    else if t.lo.toNat > 0 then t.split y
    else some (t.absorb y)
  else t.seenStart y

/-- `Update(s)` (R81): the tree after one symbol, or `none` for E_INTERNAL. -/
def Tree.update (c : WBits) (t : Tree) (y : Symbol) : Option Tree :=
  (t.updateStart y).bind fun u => (Tree.chain c 512 u.first u.tree).bind (Tree.deferredStep c u.defer)

/-! ## The end of a tree command, and UPDATE -/

/-- The last part of a tree command: apply the symbol `upd` to the tree, if the command updates it, and offer the
response; a failed check of the UE is E_INTERNAL instead (R94, R104, R114, R145). -/
def State.complete (s : State) (upd : Option Symbol) (r : Response) : State :=
  match upd with
  | none => s.offer r
  | some y =>
    match s.tree.update s.wBits y with
    | some t => { s with tree := t }.offer r
    | none => s.raise .eInternal 0

/-- `(SLOT_OF[s] == NONE) ? 1 : 0`: the symbol is unseen (R94, R103, R104). -/
def Tree.isNew (t : Tree) (y : Symbol) : Bool := t.slotOfSym y == noSlot

/-- UPDATE (R94): the UE alone. -/
def execUpdate (opnd : Operand) (s : State) : Host.Outcome State Fault Refusal :=
  .next <| s.unlessFatal <| s.withOperand (symOperand opnd) fun y => s.withHeadroom <|
    s.complete (some y) { status := .ok, value := resultWord 0 (s.tree.isNew y) y }

end Sys2Proof.Machine
end

