-- ==== Sys2Proof/Machine/Mapper.lean ====
section
/-!
DEFINITION. The symbol-to-codeword mapper CM (rules R100 to R102) and the commands MAP (R103) and ENCODE (R104).
-/

namespace Sys2Proof.Machine

open Sys2Proof.Config

/-- The branch bit of a slot, `i mod 2`: 0 left (even), 1 right (odd) (R34). -/
def branchBit (i : Slot) : Bool := i.getLsbD 0

/-- `Codeword(i)`: the branch bits from `ROOT` down to slot `i` (R100). `none` is check IC5, a parent chain that
reaches `NONE` before `ROOT`. The first argument bounds the climb; a longer one is endless, which no rule reaches
(log entry 6). -/
def Tree.codewordFrom (t : Tree) : Nat → Slot → Option (List Bool)
  | 0, i => if i = root then some [] else none
  | fuel + 1, i =>
    if i = root then some []
    else if (t.node i).parent = noSlot then none
    else (t.codewordFrom fuel (t.node i).parent).map fun b => b ++ [branchBit i]

/-- `Codeword(i)` (R100). -/
def Tree.codeword (t : Tree) (i : Slot) : Option (List Bool) := t.codewordFrom 511 i

/-- `MapBits(s)`: a seen symbol's codeword, or the escape, the NYT's codeword and then `raw8(s)` (R101). `none` is
check IC1, IC4 or IC5. -/
def Tree.mapBits (t : Tree) (y : Symbol) : Option (List Bool) :=
  let q := t.slotOfSym y
  if q ≠ noSlot then
    if (t.node q).kind ≠ .leaf ∨ (t.node q).sym ≠ y then none
    else t.codeword q
  else if t.nytp = false then none
  else (t.codeword t.lo).map fun b => b ++ raw8 y

/-- The beats of a bit sequence: `bout_last` on the final beat only (R71). -/
def toBeats : List Bool → List OutBeat
  | [] => []
  | [b] => [{ bit := b, last := true }]
  | b :: bs => { bit := b, last := false } :: toBeats bs

/-- `BoutPut` of the beats in order, and then the end of the command (R71, R103, R104). Where the host holds
`bout_ready` they all transfer; else the command waits in Execute with the beats offered, and no response is offered
before the last has transferred (R60, R154). -/
def State.emit (s : State) (beats : List OutBeat) (upd : Option Symbol) (r : Response) : State :=
  match beats with
  | [] => s.complete upd r
  | b :: bs =>
    if s.boutReady then { s with boutSent := s.boutSent ++ b :: bs }.complete upd r
    else { s with phase := .emitting (b :: bs) upd r }

/-- The part that MAP and ENCODE share: map the symbol, raise E_INTERNAL before any beat where that fails, emit the
bits, and end with RESULT (R103, R104, R148 step 5). -/
def State.mapThen (s : State) (y : Symbol) (upd : Option Symbol) : State :=
  match s.tree.mapBits y with
  | none => s.raise .eInternal 0
  | some b => s.emit (toBeats b) upd { status := .ok, value := resultWord b.length (s.tree.isNew y) y }

/-- MAP (R103): the CM alone; no headroom check. -/
def execMap (opnd : Operand) (s : State) : Host.Outcome State Fault Refusal :=
  .next <| s.unlessFatal <| s.withOperand (symOperand opnd) fun y => s.mapThen y none

/-- ENCODE (R104): the CM, and then the UE. -/
def execEncode (opnd : Operand) (s : State) : Host.Outcome State Fault Refusal :=
  .next <| s.unlessFatal <| s.withOperand (symOperand opnd) fun y => s.withHeadroom <| s.mapThen y (some y)

end Sys2Proof.Machine
end

