-- ==== Sys2Proof/Machine/Walker.lean ====
section
/-!
DEFINITION. The bit-sequence tree walker TW (rules R110 to R112) and the commands WALK (R113) and DECODE (R114).

The procedure `Walk()` of R110 is cut at its calls of `TakeBit`, the only places where it can wait: `enterSlot` runs
it up to the next one, `takeBeat` runs it over one beat.
-/

namespace Sys2Proof.Machine

open Sys2Proof.Config

/-- How the walk stands: it needs a beat, it has found a symbol, or it has failed (R110). -/
inductive Walk where
  /-- It calls `TakeBit` and waits for a beat. -/
  | needs (pos : TwPos)
  /-- It returns `(s, new, n)`. -/
  | found (y : Symbol) (new : Bool) (n : Nat)
  /-- It raises error `e` with response value `v`. -/
  | failed (e : Status) (v : Word)
deriving DecidableEq, Repr

/-- The walk arrives at slot `i` with `n` bits taken: it goes on at an INTERNAL slot, ends at a LEAF, reads 8 raw bits
at the NYT; an UNUSED slot or a missing child is check IC6 (R110). -/
def Tree.enterSlot (t : Tree) (i : Slot) (n : Nat) : Walk :=
  match (t.node i).kind with
  | .internal => if (t.node i).child = noSlot then .failed .eInternal 0 else .needs (.descend i n)
  | .leaf => .found (t.node i).sym false n
  | .nyt => .needs (.raw 0 8 n)
  | .unused => .failed .eInternal 0

/-- NEW in the value of E_TRUNCATED: the stream ended in the 8 raw bits (R111). -/
def TwPos.inRaw : TwPos → Bool
  | .descend _ _ => false
  | .raw _ _ _ => true

/-- The data bits taken so far (R110). -/
def TwPos.taken : TwPos → Nat
  | .descend _ n => n
  | .raw _ _ n => n

/-- `v <- 2*v + x` (R110): raw bits come most significant first (R48). -/
def shiftIn (v : Symbol) (x : Bool) : Symbol := (v <<< 1) ||| (BitVec.ofBool x).setWidth 8

/-- One data bit `x` taken at a position (R110): the branch at an INTERNAL slot, or the next raw bit; the eighth raw
bit ends the escape, with E_STREAM where the symbol is already seen (R112). -/
def Tree.takeBit (t : Tree) (pos : TwPos) (x : Bool) : Walk :=
  match pos with
  | .descend i n => t.enterSlot ((t.node i).child - 1 + (BitVec.ofBool x).setWidth 9) (n + 1)
  | .raw v left n =>
    let v' := shiftIn v x
    if left ≤ 1 then
      if t.slotOfSym v' ≠ noSlot then .failed .eStream (resultWord (n + 1) true v')
      else .found v' true (n + 1)
    else .needs (.raw v' (left - 1) (n + 1))

/-- One beat taken at a position: an end-of-stream beat is E_TRUNCATED (R111), its bit ignored (R72). -/
def Tree.takeBeat (t : Tree) (pos : TwPos) (b : InBeat) : Walk :=
  if b.eos then .failed .eTruncated (resultWord pos.taken pos.inRaw 0) else t.takeBit pos b.bit

/-- The walk over the beats presented: a beat is taken only where the walk needs one (R72, R110). The answer is how
the walk stands and the beats not taken. -/
def Tree.walkBeats (t : Tree) : List InBeat → Walk → Walk × List InBeat
  | [], w => (w, [])
  | b :: bs, .needs pos => t.walkBeats bs (t.takeBeat pos b)
  | b :: bs, .found y new n => (.found y new n, b :: bs)
  | b :: bs, .failed e v => (.failed e v, b :: bs)

/-- The command goes on from a walk: over the beats presented, and then to its end, or to waiting for a beat without
a timeout (R113, R114, R155). `upd` is DECODE, which updates the tree. -/
def State.walkOn (s : State) (upd : Bool) (w : Walk) : State :=
  let r := s.tree.walkBeats s.binQ w
  let s' := { s with binQ := r.2 }
  match r.1 with
  | .needs pos => { s' with phase := .walking upd pos }
  | .found y new n =>
    s'.complete (if upd then some y else none) { status := .ok, value := resultWord n new y }
  | .failed e v => s'.raise e v

/-- WALK (R113): the TW alone; no headroom check. -/
def execWalk (s : State) : Host.Outcome State Fault Refusal :=
  .next <| s.unlessFatal <| s.walkOn false (s.tree.enterSlot root 0)

/-- DECODE (R114): the TW, and then the UE; the headroom check comes before the walk. -/
def execDecode (s : State) : Host.Outcome State Fault Refusal :=
  .next <| s.unlessFatal <| s.withHeadroom <| s.walkOn true (s.tree.enterSlot root 0)

end Sys2Proof.Machine
end

