-- ==== Sys2Proof/Machine/Dispatch.lean ====
section
/-!
DEFINITION. The command dispatch: one arm per instruction, each one direct call of its meaning (rule R63).
-/

namespace Sys2Proof.Machine

-- The machine in Idle has accepted `i` (R60); the meaning is what the command does, as far as it can go.
def exec (i : Instr) (s : State) : Host.Outcome State Fault Refusal :=
  match i with
  | .nop => Sys2Proof.Machine.execNop s
  | .init => Sys2Proof.Machine.execInit s
  | .encode opnd => Sys2Proof.Machine.execEncode opnd s
  | .decode => Sys2Proof.Machine.execDecode s
  | .update opnd => Sys2Proof.Machine.execUpdate opnd s
  | .map opnd => Sys2Proof.Machine.execMap opnd s
  | .walk => Sys2Proof.Machine.execWalk s
  | .csrRd opnd => Sys2Proof.Machine.execCsrRd opnd s
  | .nodeRdW opnd => Sys2Proof.Machine.execNodeRdW opnd s
  | .nodeRdS opnd => Sys2Proof.Machine.execNodeRdS opnd s

end Sys2Proof.Machine
end

