-- ==== Sys2Proof/Machine/Fetch.lean ====
section
/-!
DEFINITION. How the control unit gets and finishes its commands (rules R60, R142, R151, R154, R155): accepting a word
in Idle, going on with a command that waits on a channel, and the reset edge.
-/

namespace Sys2Proof.Machine

/-- A legal word runs its command; an illegal one completes with E_ILLEGAL and no other effect (R64, R142). -/
def State.runWord (s : State) (w : Word) : Host.Outcome State Fault Refusal :=
  match decode w with
  | .ok i => exec i s
  | .error _ => .next (s.raise .eIllegal 0)

/-- Idle: the first word presented is accepted and leaves the channel; with none presented the AHC does nothing
(R60, R163). -/
def State.acceptCommand (s : State) : Host.Outcome State Fault Refusal :=
  match s.cmdQ with
  | [] => .next s
  | w :: rest => { s with cmdQ := rest }.runWord w

/-- The command in flight goes on as far as it can (R60). -/
def State.resume (s : State) : Host.Outcome State Fault Refusal :=
  match s.phase with
  | .idle => s.acceptCommand
  | .walking upd pos => .next (s.walkOn upd (.needs pos))
  | .emitting beats upd r => .next (s.emit beats upd r)
  | .responding r => .next (s.offer r)

/-- A rising edge with `rst` = 1 (R151, R152): the reset state, the CU Idle, the command in flight and whatever it
offers gone. What has transferred stays transferred, and what the host has presented stays the host's (R42). -/
def State.resetEdge (s : State) : State := { s.freshSession with phase := .idle }

/-- The machine with a command word at the head of the command channel, in Idle and out of reset, so that the next
step accepts it. -/
def State.presentFirst (s : State) (w : Word) : State :=
  { s with cmdQ := w :: s.cmdQ, phase := .idle, rst := false }

end Sys2Proof.Machine
end

