-- ==== Sys2Proof/Machine/Step.lean ====
section
/-!
DEFINITION. One step of the machine (rules R14, R15, R60, R151): the reset edge while `rst` = 1; else the command in
flight, or the next one presented, as far as the pins and the beats presented let it go.
-/

namespace Sys2Proof.Machine

/-- One step. -/
def step (s : State) : Host.Outcome State Fault Refusal :=
  if s.rst then .next s.resetEdge else s.resume

/-- `s` with the instruction of an opcode-table row presented first on the command channel, where the next step
accepts it. -/
def State.withFetchWord (s : State) (nbits w : Nat) : State := s.presentFirst (tableWord nbits w)

end Sys2Proof.Machine
end

