-- ==== Sys2Proof/Machine/Assembler.lean ====
section
/-!
DEFINITION. The AHC assembly language (rules R73, R74): one line of text, as a list of characters, to a command word.

The assembler is a tool of the host; no step of the machine uses it. What R73 leaves open is fixed in log entry 10.
-/

namespace Sys2Proof.Machine

/-- Why a line is an assembly error (R73). -/
inductive AsmError where
  /-- No mnemonic of R63, pseudo-instruction of R74 or directive begins the line. -/
  | unknownMnemonic
  /-- An operand is missing where R62 requires one. -/
  | missingOperand
  /-- An operand stands where none is taken. -/
  | unexpectedOperand
  /-- The operand has none of the forms of R73, or the `v` of `.word v` is no number (log entry 10). -/
  | badOperand
  /-- The operand is above 65535, or the word of `.word` above 32 bits. -/
  | operandTooLarge
deriving DecidableEq, Repr

/-! ## Text -/

/-- Blank characters. -/
def isBlank (c : Char) : Bool := c == ' ' || c == '\t'

/-- Text without the blanks at its two ends. -/
def trimBlanks (l : List Char) : List Char := ((l.dropWhile isBlank).reverse.dropWhile isBlank).reverse

/-- Everything after `;` is a comment (R73). -/
def stripComment (l : List Char) : List Char := l.takeWhile fun c => c != ';'

/-- The value of a digit, decimal or hexadecimal, in either letter case. -/
def digitValue (c : Char) : Option Nat :=
  if '0'.toNat ≤ c.toNat ∧ c.toNat ≤ '9'.toNat then some (c.toNat - '0'.toNat)
  else if 'a'.toNat ≤ c.toNat ∧ c.toNat ≤ 'f'.toNat then some (c.toNat - 'a'.toNat + 10)
  else if 'A'.toNat ≤ c.toNat ∧ c.toNat ≤ 'F'.toNat then some (c.toNat - 'A'.toNat + 10)
  else none

/-- The value of a digit string in a base, on top of the value `acc` of the digits before it. -/
def digitsValue (base : Nat) : Nat → List Char → Option Nat
  | acc, [] => some acc
  | acc, c :: cs =>
    match digitValue c with
    | some d => if d < base then digitsValue base (acc * base + d) cs else none
    | none => none

/-- A decimal number or a `0x` hexadecimal number (R73). -/
def parseNumber : List Char → Option Nat
  | [] => none
  | '0' :: 'x' :: c :: cs => digitsValue 16 0 (c :: cs)
  | c :: cs => digitsValue 10 0 (c :: cs)

/-- A character literal `'c'`: the code of a printable ASCII character (R73). -/
def parseCharLiteral : List Char → Option Nat
  | ['\'', c, '\''] => if 32 ≤ c.toNat ∧ c.toNat ≤ 126 then some c.toNat else none
  | _ => none

/-- The CSR names, numbers 0..5 (R26, R73). -/
def csrNames : List (List Char × Nat) :=
  [ (['I', 'D'], 0), (['S', 'T', 'A', 'T', 'U', 'S'], 1), (['T', 'O', 'T', 'A', 'L'], 2),
    (['N', 'O', 'D', 'E', 'S'], 3), (['S', 'E', 'E', 'N'], 4), (['L', 'O', 'S', 'L', 'O', 'T'], 5) ]

/-! ## Lines -/

/-- What begins a line (R63, R73, R74). -/
inductive Mnemonic where
  /-- A command that takes no operand. -/
  | plain (i : Instr)
  /-- A command that takes a SYM or SLOT operand. -/
  | withOperand (f : Operand → Instr)
  /-- CSR_RD, whose operand may also be a CSR name. -/
  | csrRead
  /-- `.word v`. -/
  | wordDirective

/-- The mnemonics, in capitals: the commands (R63), the pseudo-instructions (R74) and the directive (R73). -/
def mnemonics : List (List Char × Mnemonic) :=
  [ (['N', 'O', 'P'], .plain .nop),
    (['I', 'N', 'I', 'T'], .plain .init),
    (['E', 'N', 'C', 'O', 'D', 'E'], .withOperand .encode),
    (['D', 'E', 'C', 'O', 'D', 'E'], .plain .decode),
    (['U', 'P', 'D', 'A', 'T', 'E'], .withOperand .update),
    (['M', 'A', 'P'], .withOperand .map),
    (['W', 'A', 'L', 'K'], .plain .walk),
    (['C', 'S', 'R', '_', 'R', 'D'], .csrRead),
    (['N', 'O', 'D', 'E', '_', 'R', 'D', '_', 'W'], .withOperand .nodeRdW),
    (['N', 'O', 'D', 'E', '_', 'R', 'D', '_', 'S'], .withOperand .nodeRdS),
    (['R', 'D', 'S', 'T', 'A', 'T', 'U', 'S'], .plain (.csrRd 1)),
    (['R', 'D', 'T', 'O', 'T', 'A', 'L'], .plain (.csrRd 2)),
    (['R', 'D', 'S', 'E', 'E', 'N'], .plain (.csrRd 4)),
    (['.', 'W', 'O', 'R', 'D'], .wordDirective) ]

/-- Mnemonics are the names of R63 in any letter case (R73). -/
def findMnemonic (name : List Char) : Option Mnemonic := mnemonics.lookup (name.map Char.toUpper)

/-- A numeric operand: any number in 0..65535, written into `OPND` unchanged, in range or not (R73). -/
def operandOfNumber (v : Nat) : Except AsmError Operand :=
  if v ≤ 65535 then .ok (BitVec.ofNat 16 v) else .error .operandTooLarge

/-- An operand: a decimal or hexadecimal number or a character literal, or one of the `names` given (R73). -/
def parseOperand (names : List (List Char × Nat)) (text : List Char) : Except AsmError Operand :=
  match names.lookup text, parseCharLiteral text, parseNumber text with
  | some v, _, _ => operandOfNumber v
  | none, some v, _ => operandOfNumber v
  | none, none, some v => operandOfNumber v
  | none, none, none => if text.isEmpty then .error .missingOperand else .error .badOperand

/-- The word of a mnemonic and the text after it (R73). DESIGN CHOICE (log entry 10): R73 does not say which forms the `v`
of `.word v` may have; a decimal or a `0x` number is read here, and a character literal is `badOperand`. -/
def assembleWith (m : Mnemonic) (rest : List Char) : Except AsmError Word :=
  match m with
  | .plain i => if rest.isEmpty then .ok (encode i) else .error .unexpectedOperand
  | .withOperand f => (parseOperand [] rest).map fun o => encode (f o)
  | .csrRead => (parseOperand csrNames rest).map fun o => encode (.csrRd o)
  | .wordDirective =>
    match parseNumber rest with
    | some v => if v < 2 ^ 32 then .ok (BitVec.ofNat 32 v) else .error .operandTooLarge
    | none => if rest.isEmpty then .error .missingOperand else .error .badOperand

/-- One line: its word, or nothing for a line without a command (R73). -/
def assembleLine (line : List Char) : Except AsmError (Option Word) :=
  let text := trimBlanks (stripComment line)
  if text.isEmpty then .ok none
  else
    let name := text.takeWhile fun c => !isBlank c
    let rest := trimBlanks (text.dropWhile fun c => !isBlank c)
    match findMnemonic name with
    | some m => (assembleWith m rest).map some
    | none => .error .unknownMnemonic

/-- A program, one command a line: its words in order, or its first error (R73). -/
def assemble : List (List Char) → Except AsmError (List Word)
  | [] => .ok []
  | l :: ls =>
    match assembleLine l with
    | .error e => .error e
    | .ok none => assemble ls
    | .ok (some w) => (assemble ls).map fun ws => w :: ws

end Sys2Proof.Machine
end

