-- ==== Sys2Proof/Machine/Ports.lean ====
section
/-!
DEFINITION. The AHC's output pins (rules R58 to R60, R151) and the moves of the host (R15, R58, R59).

The host is the other agent. Between two steps it can make any of its moves; a step never makes one for it.
-/

namespace Sys2Proof.Machine

/-! ## Output pins (R58) -/

/-- `cmd_ready`: only in Idle (R60), and 0 during reset (R151). -/
def State.cmdReady (s : State) : Bool := !s.rst && decide (s.phase = .idle)

/-- The response offered: `rsp_valid` and its data (R58, R60); none during reset (R151). -/
def State.rspOffered (s : State) : Option Response :=
  if s.rst then none else
    match s.phase with
    | .idle => none
    | .walking _ _ => none
    | .emitting _ _ _ => none
    | .responding r => some r

/-- The bit-out beat offered: `bout_valid` and its data (R58, R60); none during reset (R151). -/
def State.beatOffered (s : State) : Option OutBeat :=
  if s.rst then none else
    match s.phase with
    | .idle => none
    | .walking _ _ => none
    | .emitting beats _ _ => beats.head?
    | .responding _ => none

/-- `bin_ready`: only while DECODE or WALK needs a beat (R60), and 0 during reset (R151). -/
def State.binReady (s : State) : Bool :=
  !s.rst && (match s.phase with
    | .idle => false
    | .walking _ _ => true
    | .emitting _ _ _ => false
    | .responding _ => false)

/-! ## The host's moves (R15) -/

/-- What the host can do (R15), one move at a time. -/
inductive HostMove where
  /-- Present a command word, after those already presented. -/
  | presentCommand (w : Word)
  /-- Present a bit-in beat, after those already presented. -/
  | presentBeat (b : InBeat)
  /-- Take the one bit-out beat that is offered. -/
  | acceptBeat
  /-- Take the response that is offered. -/
  | acceptResponse
  /-- Hold `bout_ready` at a value. -/
  | driveBoutReady (v : Bool)
  /-- Hold `rsp_ready` at a value. -/
  | driveRspReady (v : Bool)
  /-- Hold `rst` at a value. -/
  | driveRst (v : Bool)
deriving DecidableEq, Repr

/-- The host takes the first of the beats offered; the command ends with the last (R60, R71). -/
def State.acceptBeat (s : State) : State :=
  if s.rst then s else
    match s.phase with
    | .idle => s
    | .walking _ _ => s
    | .emitting [] _ _ => s
    | .emitting [b] upd r => { s with boutSent := s.boutSent ++ [b] }.complete upd r
    | .emitting (b :: b' :: bs) upd r =>
      { s with boutSent := s.boutSent ++ [b], phase := .emitting (b' :: bs) upd r }
    | .responding _ => s

/-- The host takes the response offered; the CU is Idle again (R60). -/
def State.acceptResponse (s : State) : State :=
  match s.rspOffered with
  | none => s
  | some r => { s with phase := .idle, rspSent := s.rspSent ++ [r] }

/-- The machine after a move of the host (R15, R59). Reset itself happens in the steps made while `rst` = 1. -/
def hostMove (m : HostMove) (s : State) : State :=
  match m with
  | .presentCommand w => { s with cmdQ := s.cmdQ ++ [w] }
  | .presentBeat b => { s with binQ := s.binQ ++ [b] }
  | .acceptBeat => s.acceptBeat
  | .acceptResponse => s.acceptResponse
  | .driveBoutReady v => { s with boutReady := v }
  | .driveRspReady v => { s with rspReady := v }
  | .driveRst v => { s with rst := v }

end Sys2Proof.Machine
end

