-- ==== Sys2Proof/Safety.lean ====
section
/-!
DEFINITION. What counts as a sound tree and a sound state: the invariants the spec states at every command boundary
(rules R20 to R25, R33, R35, R36, R53), and what the control unit's phases promise between steps.

`Tree.WellFormed` has one clause the spec does not state, `childrenInOrder` (log entry 11): rules R35 and R36 alone are
not kept by every update from every tree that meets them.
-/

namespace Sys2Proof.Machine

open Sys2Proof.Config

/-- Slot `i` is in use (R22). -/
def Tree.inUse (t : Tree) (i : Slot) : Prop := t.lo.toNat ≤ i.toNat ∧ i.toNat ≤ 510

/-- Every weight fits `W_BITS` bits (R12, R18, R92). -/
def Tree.WeightsFit (c : WBits) (t : Tree) : Prop := ∀ i : Slot, (t.node i).weight.toNat < 2 ^ c.bits

/-- The slot holds a leaf: LEAF or NYT (R87). -/
abbrev Kind.IsLeaf (k : Kind) : Prop := k = .leaf ∨ k = .nyt

/-- The canonical values of the fields a KIND does not use (R20). -/
def Node.Canonical (n : Node) : Prop :=
  match n.kind with
  | .unused => n = Node.empty
  | .internal => n.sym = 0
  | .leaf => n.child = noSlot
  | .nyt => n.weight = 0 ∧ n.sym = 0 ∧ n.child = noSlot

/-- A well-formed code tree: the invariants of a command boundary. -/
structure Tree.WellFormed (c : WBits) (t : Tree) : Prop where
  /-- `LO` is an even slot (R83). -/
  loEven : t.lo.toNat % 2 = 0 ∧ t.lo.toNat ≤ 510
  /-- Exactly the slots from `LO` on hold nodes (R22, R53). -/
  used : ∀ i : Slot, i.toNat ≤ 510 → ((t.node i).kind = .unused ↔ i.toNat < t.lo.toNat)
  /-- Unused fields are canonical (R20). -/
  canonical : ∀ i : Slot, i.toNat ≤ 510 → (t.node i).Canonical
  /-- Weights fit their width (R12). -/
  fits : t.WeightsFit c
  /-- An INTERNAL slot's children are the pair (CHILD − 1, CHILD) below it, and know their parent (R33). -/
  children : ∀ p : Slot, p.toNat ≤ 510 → (t.node p).kind = .internal →
    (t.node p).child.toNat % 2 = 1 ∧ (t.node p).child.toNat < p.toNat ∧ t.lo.toNat < (t.node p).child.toNat ∧
      (t.node (t.node p).child).parent = p ∧ (t.node ((t.node p).child - 1)).parent = p
  /-- `ROOT` has no parent (R20). -/
  rootParent : (t.node root).parent = noSlot
  /-- Every other node's parent is an INTERNAL slot above it whose pair of children it belongs to (R33, R36). -/
  parents : ∀ i : Slot, t.inUse i → i ≠ root →
    i.toNat < (t.node i).parent.toNat ∧ (t.node i).parent.toNat ≤ 510 ∧
      (t.node (t.node i).parent).kind = .internal ∧
      (t.node (t.node i).parent).child.toNat / 2 = i.toNat / 2
  /-- The INTERNAL nodes stand in the order of their pairs of children (log entry 11). -/
  childrenInOrder : ∀ p q : Slot, p.toNat < q.toNat → q.toNat ≤ 510 → (t.node p).kind = .internal →
    (t.node q).kind = .internal → (t.node p).child.toNat < (t.node q).child.toNat
  /-- Weights do not fall from slot to slot, and the leaves of a weight stand before its INTERNAL nodes: the two points
  of R35, in its own words and not by the engine's keys. -/
  ordered : ∀ i j : Slot, t.inUse i → t.inUse j → i.toNat < j.toNat →
    (t.node i).weight.toNat ≤ (t.node j).weight.toNat ∧
      ((t.node i).weight = (t.node j).weight → (t.node j).kind.IsLeaf → (t.node i).kind.IsLeaf)
  /-- An INTERNAL weight is the sum of its children's (R36). -/
  sums : ∀ p : Slot, p.toNat ≤ 510 → (t.node p).kind = .internal →
    (t.node p).weight.toNat =
      (t.node (t.node p).child).weight.toNat + (t.node ((t.node p).child - 1)).weight.toNat
  /-- A LEAF has been counted at least once (R36). -/
  leafWeight : ∀ i : Slot, i.toNat ≤ 510 → (t.node i).kind = .leaf → 1 ≤ (t.node i).weight.toNat
  /-- While `NYTP` = 1, slot `LO` holds the NYT (R23, R36). -/
  nytAtLo : t.nytp = true → (t.node t.lo).kind = .nyt
  /-- No other slot holds an NYT, and none does while `NYTP` = 0 (R19, R23). -/
  nytOnly : ∀ i : Slot, i.toNat ≤ 510 → (t.node i).kind = .nyt → t.nytp = true ∧ i = t.lo
  /-- `NYTP` = 0 only in a full tree (R84, R93). -/
  fullWithoutNyt : t.nytp = false → t.lo = 0
  /-- `SLOT_OF` finds every LEAF (R36). -/
  slotOfLeaf : ∀ i : Slot, i.toNat ≤ 510 → (t.node i).kind = .leaf → t.slotOfSym (t.node i).sym = i
  /-- `SLOT_OF` holds `NONE` or the LEAF of its symbol (R21, R36). -/
  leafOfSlot : ∀ y : Symbol, t.slotOfSym y = noSlot ∨
    ((t.slotOfSym y).toNat ≤ 510 ∧ (t.node (t.slotOfSym y)).kind = .leaf ∧ (t.node (t.slotOfSym y)).sym = y)
  /-- `SEEN` counts the symbols seen (R25). -/
  seenCounts : t.slotOf.countP (fun i => i != noSlot) = t.seenCount

/-- The weight of a symbol's leaf, 0 for an unseen symbol (R21, R92). -/
def Tree.symbolWeight (t : Tree) (y : Symbol) : Nat :=
  if t.slotOfSym y = noSlot then 0 else (t.node (t.slotOfSym y)).weight.toNat

/-- `FATAL_CAUSE` is 4, 5 or 6 while `FATAL` = 1, and 0 while `FATAL` = 0 (R24). -/
def State.CauseMatches (s : State) : Prop :=
  if s.fatal then s.fatalCause = 4 ∨ s.fatalCause = 5 ∨ s.fatalCause = 6 else s.fatalCause = 0

/-- What holds in every state the machine can be in, E_INTERNAL included: weights fit their width (R12, R146), the
cause matches the flag (R24), and a tree command in flight runs with `FATAL` = 0 (R147). -/
structure State.Consistent (s : State) : Prop where
  fits : s.tree.WeightsFit s.wBits
  cause : s.CauseMatches
  walking : ∀ upd pos, s.phase = .walking upd pos → s.fatal = false
  emitting : ∀ beats upd r, s.phase = .emitting beats upd r → s.fatal = false ∧ beats ≠ []

/-- A walk's position agrees with the tree: it waits at an INTERNAL slot, or in the raw bits below the NYT (R110). -/
def Tree.PosSound (t : Tree) : TwPos → Prop
  | .descend i _ => i.toNat ≤ 510 ∧ (t.node i).kind = .internal
  | .raw _ left _ => t.nytp = true ∧ 1 ≤ left ∧ left ≤ 8

/-- What the phase promises in a sound state: a command in flight has passed its checks (R148), and no response in
flight is E_INTERNAL (R146). -/
def State.PhaseSound (s : State) : Prop :=
  match s.phase with
  | .idle => True
  | .walking upd pos => s.fatal = false ∧ s.tree.PosSound pos ∧ (upd = true → s.atMaxW = false)
  | .emitting beats upd r =>
    s.fatal = false ∧ beats ≠ [] ∧ r.status = .ok ∧ (upd.isSome = true → s.atMaxW = false)
  | .responding r => r.status ≠ .eInternal

/-- A sound state: the tree is well formed, no E_INTERNAL has been raised since the session began, and the command in
flight has passed its checks (R35, R36, R146). -/
structure State.Sound (s : State) : Prop where
  tree : s.tree.WellFormed s.wBits
  cause : s.CauseMatches
  notInternal : s.fatalCause ≠ 6
  phase : s.PhaseSound

/-! ## Terms that claims use -/

/-- The values of R43 that reset and INIT give the tree. -/
def Tree.HasResetValues (t : Tree) : Prop :=
  (∀ i : Slot, i.toNat ≤ 510 → (t.node i).weight = 0 ∧ (t.node i).sym = 0 ∧ (t.node i).child = 511 ∧
    (t.node i).parent = 511 ∧ (t.node i).kind = if i = 510 then .nyt else .unused) ∧
  (∀ y : Symbol, t.slotOfSym y = 511) ∧ t.lo = 510 ∧ t.nytp = true

/-- A word that R64 calls illegal, said by arithmetic on the word as an unsigned number (R9, R61). -/
def IllegalWord (w : Word) : Prop :=
  10 ≤ w.toNat / 2 ^ 28 ∨ w.toNat / 2 ^ 16 % 2 ^ 12 ≠ 0 ∨
    ((w.toNat / 2 ^ 28 = 0 ∨ w.toNat / 2 ^ 28 = 1 ∨ w.toNat / 2 ^ 28 = 3 ∨ w.toNat / 2 ^ 28 = 6) ∧
      w.toNat % 2 ^ 16 ≠ 0)

/-- The data beats that carry a bit sequence, in transmission order (R10, R72). -/
def dataBeats (b : List Bool) : List InBeat := b.map fun x => { eos := false, bit := x }

/-- `content(i)`: what a move carries from slot to slot, the node without its PARENT (R90). -/
def Node.content (n : Node) : Word × Kind × Symbol × Slot := (n.weight, n.kind, n.sym, n.child)

/-- Slot `k` stands below the key of a node of weight `w` that is INTERNAL or a leaf, as R87 says it: a lower weight, or the
same weight and a leaf below an INTERNAL node. Said by weights and KINDs, without the engine's `keyLt`; an UNUSED slot
counts as a leaf (log entry 6). -/
def Tree.StandsBelow (t : Tree) (k : Slot) (w : Nat) (internal : Bool) : Prop :=
  (t.node k).weight.toNat < w ∨
    ((t.node k).weight.toNat = w ∧ (t.node k).kind ≠ .internal ∧ internal = true)

/-- The outcome `o` is what E_INTERNAL leaves of the state `s`: `FATAL` and `FATAL_CAUSE` = 6 are set, the response has the
value 0, and the tree is some tree whose weights fit `W_BITS` (R145, R146, log entry 3). -/
def EndsInternal (o : Host.Outcome State Fault Refusal) (s : State) : Prop :=
  ∃ t, t.WeightsFit s.wBits ∧
    o = .next ({ s with tree := t, draws := s.draws + 1, fatal := true, fatalCause := 6 }.offer ⟨.eInternal, 0⟩)

/-- Commands executed one after the other, each accepted in Idle (R14, R54). -/
def execAll : List Instr → State → Host.Outcome State Fault Refusal
  | [], s => .next s
  | i :: is, s =>
    match exec i s with
    | .next t => execAll is t
    | .fault r => .fault r
    | .refused r => .refused r

end Sys2Proof.Machine
end

