-- ==== Sys2Proof/Certificates/Slice0/Obligations.lean ====
section
/-!
DEFINITION. The statements for the provers, each about the model of the AHC and each drawn from the rules of `spec/`.

`s.offer r` is the state in which the response `r` has transferred where the host holds `rsp_ready`, and is offered
where it does not (`Obligations.ResponseTransfersOrWaits` says so). Where the conclusion is an equation
`exec i s = .next …`, the state on the right is the whole frame: every field it does not name is unchanged.
-/

open Sys2Proof Sys2Proof.Machine Sys2Proof.Config

/-! ## Encoding -/

/-- Decoding and encoding agree, both ways: a word decodes to `i` exactly if it is the word of `i` (R61 to R63). -/
def Obligations.DecodeAndEncodeAgree : Prop :=
  ∀ (w : Word) (i : Instr), decode w = .ok i ↔ encode i = w

/-- The decoder rejects exactly the words that R64 calls illegal. -/
def Obligations.DecoderRejectsExactlyTheIllegalWords : Prop :=
  ∀ w : Word, (∃ e, decode w = .error e) ↔ IllegalWord w

/-- Words written out from the opcode map decode to the commands they stand for (R63). -/
def Obligations.OpcodeMapWordsDecode : Prop :=
  decode 0x00000000 = .ok .nop ∧ decode 0x10000000 = .ok .init ∧ decode 0x20000041 = .ok (.encode 65) ∧
  decode 0x30000000 = .ok .decode ∧ decode 0x400000FF = .ok (.update 255) ∧ decode 0x5000FFFF = .ok (.map 65535) ∧
  decode 0x60000000 = .ok .walk ∧ decode 0x70000005 = .ok (.csrRd 5) ∧ decode 0x800001FE = .ok (.nodeRdW 510) ∧
  decode 0x90000000 = .ok (.nodeRdS 0)

/-- The RESULT word is `(s << 10) | (new << 9) | n` (R68). -/
def Obligations.ResultWordIsTheShiftedFields : Prop :=
  ∀ (n : Nat) (new : Bool) (y : Symbol), n < 512 →
    resultWord n new y =
      (y.setWidth 32 <<< 10) ||| ((BitVec.ofBool new).setWidth 32 <<< 9) ||| BitVec.ofNat 32 n

/-! ## The control unit -/

/-- A step accepts the first word presented, in Idle and out of reset, and runs the command it decodes to (R60). -/
def Obligations.StepRunsTheDecodedCommand : Prop :=
  ∀ (s : State) (w : Word) (rest : List Word) (i : Instr),
    s.rst = false → s.phase = .idle → s.cmdQ = w :: rest → decode w = .ok i →
      step s = exec i { s with cmdQ := rest }

/-- An illegal word completes with E_ILLEGAL, value 0, and no other effect, whatever `FATAL` is (R142, R148). -/
def Obligations.IllegalWordCompletesWithEIllegal : Prop :=
  ∀ (s : State) (w : Word) (rest : List Word),
    s.rst = false → s.phase = .idle → s.cmdQ = w :: rest → IllegalWord w →
      step s = .next ({ s with cmdQ := rest }.offer ⟨.eIllegal, 0⟩)

/-- A response transfers and leaves the unit Idle where the host holds `rsp_ready`; else it stays offered in Respond,
until the host takes it (R59, R60). -/
def Obligations.ResponseTransfersOrWaits : Prop :=
  ∀ (s : State) (r : Response),
    (s.rspReady = true → s.offer r = { s with phase := .idle, rspSent := s.rspSent ++ [r] }) ∧
    (s.rspReady = false → s.offer r = { s with phase := .responding r }) ∧
    (s.rspReady = false → s.rst = false →
      (s.offer r).acceptResponse = { s with phase := .idle, rspSent := s.rspSent ++ [r] })

/-- A command accepted with both of the host's ready pins held high ends with exactly one response and the unit Idle,
or it is DECODE or WALK and waits, with no response, having taken every beat presented (R66, R155). In every state. -/
def Obligations.EveryAcceptedWordAnswersOnceOrWaits : Prop :=
  ∀ (s : State) (w : Word) (rest : List Word),
    s.rst = false → s.phase = .idle → s.cmdQ = w :: rest → s.rspReady = true → s.boutReady = true →
      ∃ t, step s = .next t ∧ t.cmdQ = rest ∧
        ((t.phase = .idle ∧ ∃ r, t.rspSent = s.rspSent ++ [r]) ∨
          (∃ upd pos, (decode w = .ok .decode ∧ upd = true ∨ decode w = .ok .walk ∧ upd = false) ∧
            t.phase = .walking upd pos ∧ t.binQ = [] ∧ t.rspSent = s.rspSent))

/-- With nothing to do the machine repeats its state: in Idle with no word presented (R163), waiting for a bit-in beat
(R155), for `bout_ready` (R154), or for `rsp_ready` (R60). The waits have no timeout and give no response. -/
def Obligations.WaitsRepeatTheState : Prop :=
  ∀ s : State, s.rst = false →
    (s.phase = .idle → s.cmdQ = [] → step s = .next s) ∧
    (∀ upd pos, s.phase = .walking upd pos → s.binQ = [] → step s = .next s) ∧
    (∀ b bs upd r, s.phase = .emitting (b :: bs) upd r → s.boutReady = false → step s = .next s) ∧
    (∀ r, s.phase = .responding r → s.rspReady = false → step s = .next s)

/-- The outputs follow the phase (R58, R60): `cmd_ready` in Idle alone, `bin_ready` where a walk needs a beat alone,
`bout_valid` with the next beat where there is one to emit alone, and `rsp_valid` with the response in Respond alone. -/
def Obligations.OutputsFollowThePhase : Prop :=
  ∀ s : State, s.rst = false →
    (s.phase = .idle →
      s.cmdReady = true ∧ s.binReady = false ∧ s.beatOffered = none ∧ s.rspOffered = none) ∧
    (∀ upd pos, s.phase = .walking upd pos →
      s.cmdReady = false ∧ s.binReady = true ∧ s.beatOffered = none ∧ s.rspOffered = none) ∧
    (∀ b bs upd r, s.phase = .emitting (b :: bs) upd r →
      s.cmdReady = false ∧ s.binReady = false ∧ s.beatOffered = some b ∧ s.rspOffered = none) ∧
    (∀ r, s.phase = .responding r →
      s.cmdReady = false ∧ s.binReady = false ∧ s.beatOffered = none ∧ s.rspOffered = some r)

/-- Reset (R43, R151, R152): a step with `rst` = 1 gives every piece of state its reset value and the Idle phase, with
no response; the channels, the pins and `W_BITS` stay. While `rst` = 1 no output is valid or ready; with `rst` = 0
the unit then raises `cmd_ready`. -/
def Obligations.ResetGivesTheResetState : Prop :=
  ∀ s : State, s.rst = true →
    (∃ t, t.HasResetValues ∧
      step s = .next { s with tree := t, fatal := false, fatalCause := 0, phase := .idle } ∧
      State.cmdReady { s with tree := t, fatal := false, fatalCause := 0, phase := .idle, rst := false } = true) ∧
    s.cmdReady = false ∧ s.rspOffered = none ∧ s.beatOffered = none ∧ s.binReady = false

/-- The state right after reset has the values of R43, for every `W_BITS`, and the control unit is Idle. -/
def Obligations.ResetStateHasTheResetValues : Prop :=
  ∀ c : WBits, (State.resetWith c).tree.HasResetValues ∧ (State.resetWith c).fatal = false ∧
    (State.resetWith c).fatalCause = 0 ∧ (State.resetWith c).phase = .idle ∧ (State.resetWith c).wBits = c

/-! ## Control, status and inspection commands -/

/-- NOP answers OK with 0 and does nothing else, in every state, `FATAL` = 1 included; its word is 0, and a NOP word with
any other bit set is E_ILLEGAL (R128). -/
def Obligations.NopOnlyResponds : Prop :=
  encode .nop = 0x00000000 ∧ (∀ s : State, exec .nop s = .next (s.offer ⟨.ok, 0⟩)) ∧
    ∀ (s : State) (w : Word) (rest : List Word),
      s.rst = false → s.phase = .idle → s.cmdQ = w :: rest → opcField w = 0 →
        (rsvdField w ≠ 0 ∨ opndField w ≠ 0 → step s = .next ({ s with cmdQ := rest }.offer ⟨.eIllegal, 0⟩)) ∧
        (rsvdField w = 0 ∧ opndField w = 0 → step s = .next ({ s with cmdQ := rest }.offer ⟨.ok, 0⟩))

/-- INIT begins a fresh session in every state, `FATAL` = 1 and E_INTERNAL included, answers OK with 0, and touches no
other channel (R130, R131). -/
def Obligations.InitBeginsAFreshSession : Prop :=
  ∀ s : State, ∃ t, t.HasResetValues ∧
    exec .init s = .next ({ s with tree := t, fatal := false, fatalCause := 0 }.offer ⟨.ok, 0⟩)

/-- CSR_RD as R132 describes it. Its word is `0x7000_0000 | n`; with a bit of `RSVD` set it is E_ILLEGAL. Each CSR's value
is that of its formula, in every state, `FATAL` = 1 included; a number above 5 is E_RANGE; nothing but the response
changes. The ranges of R30 to R32 hold for an `LO` that is a slot; NODES has its formula there, and SEEN where `LO` is also
even, as it is in every session until E_INTERNAL (R83). For another `LO`, which only E_INTERNAL can leave, CSR_RD 3 and 4
answer OK and the value is not stated (R133, log entry 8). The values after reset are
those of R27 to R32. -/
def Obligations.CsrReadsAnswerTheirFormulas : Prop :=
  (∀ n : Operand, encode (.csrRd n) = 0x70000000 ||| n.setWidth 32) ∧
  (∀ (s : State) (w : Word) (rest : List Word),
    s.rst = false → s.phase = .idle → s.cmdQ = w :: rest → opcField w = 7 →
      (rsvdField w ≠ 0 → step s = .next ({ s with cmdQ := rest }.offer ⟨.eIllegal, 0⟩)) ∧
      (rsvdField w = 0 → step s = exec (.csrRd (opndField w)) { s with cmdQ := rest })) ∧
  (∀ s : State,
    exec (.csrRd 0) s = .next (s.offer ⟨.ok, 0x41480100 ||| BitVec.ofNat 32 (9 + s.wBits.val)⟩) ∧
    exec (.csrRd 1) s = .next (s.offer ⟨.ok,
      (s.fatalCause.setWidth 32 <<< 4) ||| ((if 511 - s.tree.lo.toNat = 1 then (1 : Word) else 0) <<< 2) |||
        ((if s.tree.nytp then (1 : Word) else 0) <<< 1) ||| (if s.fatal then (1 : Word) else 0)⟩) ∧
    exec (.csrRd 2) s = .next (s.offer ⟨.ok, (s.tree.nodes[510]).weight⟩) ∧
    (∃ v, exec (.csrRd 3) s = .next (s.offer ⟨.ok, v⟩)) ∧
    (∃ v, exec (.csrRd 4) s = .next (s.offer ⟨.ok, v⟩)) ∧
    exec (.csrRd 5) s = .next (s.offer ⟨.ok, BitVec.ofNat 32 s.tree.lo.toNat⟩) ∧
    (s.tree.lo.toNat ≤ 510 →
      (∃ nodes : Nat, nodes + s.tree.lo.toNat = 511 ∧ 1 ≤ nodes ∧ nodes ≤ 511 ∧
        exec (.csrRd 3) s = .next (s.offer ⟨.ok, BitVec.ofNat 32 nodes⟩)) ∧
      ∃ seen : Nat, seen ≤ 256 ∧
        (s.tree.lo.toNat % 2 = 0 → seen = (510 - s.tree.lo.toNat) / 2 + (1 - if s.tree.nytp then 1 else 0)) ∧
        exec (.csrRd 4) s = .next (s.offer ⟨.ok, BitVec.ofNat 32 seen⟩)) ∧
    ∀ opnd : Operand, 5 < opnd.toNat → exec (.csrRd opnd) s = .next (s.offer ⟨.eRange, 0⟩)) ∧
  ∀ c : WBits,
    (State.resetWith c).csrValue .id = 0x41480100 ||| BitVec.ofNat 32 (9 + c.val) ∧
    (State.resetWith c).csrValue .status = 0x00000006 ∧ (State.resetWith c).csrValue .total = 0 ∧
    (State.resetWith c).csrValue .nodes = 1 ∧ (State.resetWith c).csrValue .seen = 0 ∧
    (State.resetWith c).csrValue .loSlot = 510

/-- NODE_RD_W answers the weight of the slot, for every slot, and E_RANGE above 510 (R135). -/
def Obligations.NodeReadAnswersTheWeight : Prop :=
  ∀ s : State,
    (∀ i : Fin 511, exec (.nodeRdW (BitVec.ofNat 16 i.val)) s = .next (s.offer ⟨.ok, (s.tree.nodes[i]).weight⟩)) ∧
    (∀ opnd : Operand, 510 < opnd.toNat → exec (.nodeRdW opnd) s = .next (s.offer ⟨.eRange, 0⟩))

/-- NODE_RD_S answers `(CHILD << 19) | (PARENT << 10) | (SYM << 2) | KIND` of the slot, for every slot, with KIND's numbers
UNUSED 0, INTERNAL 1, LEAF 2, NYT 3, and E_RANGE above 510; an UNUSED slot's canonical content reads 0x0FFFFC00 (R19, R69,
R138). -/
def Obligations.NodeReadAnswersTheStructure : Prop :=
  (∀ s : State,
    (∀ i : Fin 511,
      exec (.nodeRdS (BitVec.ofNat 16 i.val)) s = .next (s.offer ⟨.ok,
        ((s.tree.nodes[i]).child.setWidth 32 <<< 19) ||| ((s.tree.nodes[i]).parent.setWidth 32 <<< 10) |||
          ((s.tree.nodes[i]).sym.setWidth 32 <<< 2) |||
          (if (s.tree.nodes[i]).kind = .internal then 1 else if (s.tree.nodes[i]).kind = .leaf then 2
            else if (s.tree.nodes[i]).kind = .nyt then 3 else 0)⟩)) ∧
    (∀ opnd : Operand, 510 < opnd.toNat → exec (.nodeRdS opnd) s = .next (s.offer ⟨.eRange, 0⟩))) ∧
  nodeSWord Node.empty = 0x0FFFFC00

/-- The node reads of all slots determine the whole tree: two well-formed trees that read alike are equal (R137). -/
def Obligations.NodeReadsDetermineTheTree : Prop :=
  ∀ (c : WBits) (t u : Tree), t.WellFormed c → u.WellFormed c →
    (∀ i : Slot, i.toNat ≤ 510 →
      (t.node i).weight = (u.node i).weight ∧ nodeSWord (t.node i) = nodeSWord (u.node i)) → t = u

/-! ## Errors -/

/-- The status codes and which of them are fatal: 0 to 7 as R67 numbers them, and no other (R67). -/
def Obligations.StatusCodesAreNumbered : Prop :=
  Status.ok.code = 0 ∧ Status.eIllegal.code = 1 ∧ Status.eRange.code = 2 ∧ Status.eOverflow.code = 3 ∧
  Status.eTruncated.code = 4 ∧ Status.eStream.code = 5 ∧ Status.eInternal.code = 6 ∧ Status.eFatal.code = 7 ∧
  ∀ e : Status, e.code.toNat < 8 ∧ (e.isFatal = true ↔ e = .eTruncated ∨ e = .eStream ∨ e = .eInternal)

/-- An operand out of its range completes with E_RANGE, value 0, and no other effect: for the tree commands while
`FATAL` = 0, for the reads always; the headroom is not looked at (R143, R148). -/
def Obligations.OutOfRangeOperandIsERange : Prop :=
  ∀ (s : State) (opnd : Operand),
    (255 < opnd.toNat → s.fatal = false →
      exec (.encode opnd) s = .next (s.offer ⟨.eRange, 0⟩) ∧
      exec (.update opnd) s = .next (s.offer ⟨.eRange, 0⟩) ∧
      exec (.map opnd) s = .next (s.offer ⟨.eRange, 0⟩)) ∧
    (510 < opnd.toNat →
      exec (.nodeRdW opnd) s = .next (s.offer ⟨.eRange, 0⟩) ∧
      exec (.nodeRdS opnd) s = .next (s.offer ⟨.eRange, 0⟩)) ∧
    (5 < opnd.toNat → exec (.csrRd opnd) s = .next (s.offer ⟨.eRange, 0⟩))

/-- While `FATAL` = 1 every tree command, whatever its operand, completes with E_FATAL, value 0, and no other effect;
NOP, INIT, CSR_RD and the NODE_RD commands run normally (R147). -/
def Obligations.FatalRefusesExactlyTheTreeCommands : Prop :=
  ∀ s : State, s.fatal = true →
    (∀ opnd : Operand,
      exec (.encode opnd) s = .next (s.offer ⟨.eFatal, 0⟩) ∧
      exec (.update opnd) s = .next (s.offer ⟨.eFatal, 0⟩) ∧
      exec (.map opnd) s = .next (s.offer ⟨.eFatal, 0⟩)) ∧
    exec .decode s = .next (s.offer ⟨.eFatal, 0⟩) ∧ exec .walk s = .next (s.offer ⟨.eFatal, 0⟩) ∧
    exec .nop s = .next (s.offer ⟨.ok, 0⟩) ∧
    (∃ t, t.HasResetValues ∧
      exec .init s = .next ({ s with tree := t, fatal := false, fatalCause := 0 }.offer ⟨.ok, 0⟩)) ∧
    (∀ opnd : Operand, opnd.toNat ≤ 5 → ∃ v, exec (.csrRd opnd) s = .next (s.offer ⟨.ok, v⟩)) ∧
    (∀ opnd : Operand, opnd.toNat ≤ 510 →
      (∃ v, exec (.nodeRdW opnd) s = .next (s.offer ⟨.ok, v⟩)) ∧
      (∃ v, exec (.nodeRdS opnd) s = .next (s.offer ⟨.ok, v⟩)))

/-- With `W[ROOT]` = 2^`W_BITS` − 1, ENCODE, UPDATE and DECODE complete with E_OVERFLOW, value 0, and no other effect:
no bit is emitted or taken (R82, R144). -/
def Obligations.NoHeadroomIsEOverflow : Prop :=
  ∀ s : State, s.fatal = false → (s.tree.node root).weight.toNat = 2 ^ s.wBits.bits - 1 →
    (∀ opnd : Operand, opnd.toNat ≤ 255 →
      exec (.encode opnd) s = .next (s.offer ⟨.eOverflow, 0⟩) ∧
      exec (.update opnd) s = .next (s.offer ⟨.eOverflow, 0⟩)) ∧
    exec .decode s = .next (s.offer ⟨.eOverflow, 0⟩)

/-- A stream that ends while the walk needs a bit is E_TRUNCATED: the value counts the data bits taken, with NEW = 0 where
the walk was descending, at an INTERNAL slot, and NEW = 1 where it was in the 8 raw bits; `FATAL` and `FATAL_CAUSE` = 4 are
set, the tree is unchanged, and the end-of-stream beat is taken (R111, R145). -/
def Obligations.TruncatedStreamIsFatal : Prop :=
  ∀ (s : State) (b : List Bool) (pos : TwPos) (new x : Bool) (rest : List InBeat),
    s.fatal = false → s.binQ = dataBeats b ++ ⟨true, x⟩ :: rest →
    s.tree.walkBeats (dataBeats b) (s.tree.enterSlot root 0) = (.needs pos, []) →
    ((∃ i n, pos = .descend i n) ∧ new = false ∨ (∃ v left n, pos = .raw v left n) ∧ new = true) →
      (∀ i n, pos = .descend i n → (s.tree.node i).kind = .internal) ∧
      exec .walk s =
        .next ({ s with binQ := rest, fatal := true, fatalCause := 4 }.offer
          ⟨.eTruncated, resultWord b.length new 0⟩) ∧
      (s.atMaxW = false →
        exec .decode s =
          .next ({ s with binQ := rest, fatal := true, fatalCause := 4 }.offer
            ⟨.eTruncated, resultWord b.length new 0⟩))

/-- An escape that names a symbol already seen is E_STREAM: `FATAL` and `FATAL_CAUSE` = 5 are set, the tree is
unchanged, and the bits are gone (R112, R145). -/
def Obligations.EscapeOfASeenSymbolIsFatal : Prop :=
  ∀ (s : State) (y : Symbol) (b : List Bool) (rest : List InBeat),
    s.fatal = false → s.tree.WellFormed s.wBits → s.tree.nytp = true → s.tree.slotOfSym y ≠ noSlot →
    s.tree.codeword s.tree.lo = some b → s.binQ = dataBeats (b ++ raw8 y) ++ rest →
      exec .walk s =
        .next ({ s with binQ := rest, fatal := true, fatalCause := 5 }.offer
          ⟨.eStream, resultWord (b.length + 8) true y⟩) ∧
      (s.atMaxW = false →
        exec .decode s =
          .next ({ s with binQ := rest, fatal := true, fatalCause := 5 }.offer
            ⟨.eStream, resultWord (b.length + 8) true y⟩))

/-- E_INTERNAL, for each of the five commands that can raise it: it sets `FATAL` and `FATAL_CAUSE` = 6, answers value 0, and
leaves the tree to the model's draw, of which nothing is known but its widths (R145, R146; log entry 3). A failed update
ends UPDATE, ENCODE and DECODE so; the beats ENCODE has emitted stay emitted, also where it had to wait for the host, and
the beats DECODE has taken are gone. A failed mapping ends MAP and ENCODE before any beat, and a failed walk ends WALK and
DECODE. A procedure fails where a check IC1 to IC6 does (`Obligations.DefensiveChecksFail`) and on the structures of log
entry 6. -/
def Obligations.FailedCheckLeavesADraw : Prop :=
  ∀ s : State, s.fatal = false →
    (∀ opnd : Operand, opnd.toNat ≤ 255 → s.atMaxW = false → s.tree.update s.wBits (opnd.setWidth 8) = none →
      EndsInternal (exec (.update opnd) s) s ∧
      ∀ b, s.tree.mapBits (opnd.setWidth 8) = some b → s.boutReady = true →
        EndsInternal (exec (.encode opnd) s) { s with boutSent := s.boutSent ++ toBeats b }) ∧
    (∀ beats y r, s.rst = false → s.phase = .emitting beats (some y) r → s.boutReady = true →
      s.tree.update s.wBits y = none → EndsInternal (step s) { s with boutSent := s.boutSent ++ beats }) ∧
    (∀ y new n rest, s.atMaxW = false →
      s.tree.walkBeats s.binQ (s.tree.enterSlot root 0) = (.found y new n, rest) →
      s.tree.update s.wBits y = none → EndsInternal (exec .decode s) { s with binQ := rest }) ∧
    (∀ opnd : Operand, opnd.toNat ≤ 255 → s.tree.mapBits (opnd.setWidth 8) = none →
      EndsInternal (exec (.map opnd) s) s ∧ (s.atMaxW = false → EndsInternal (exec (.encode opnd) s) s)) ∧
    (∀ v rest, s.tree.walkBeats s.binQ (s.tree.enterSlot root 0) = (.failed .eInternal v, rest) →
      EndsInternal (exec .walk s) { s with binQ := rest } ∧
      (s.atMaxW = false → EndsInternal (exec .decode s) { s with binQ := rest }))

/-- The defensive checks, each where it is made: IC1 and IC4 in the update engine and in the mapper, IC2 and IC3 in
`SlideAndIncrement`, IC5 in `Codeword`, IC6 in the walk (R91, R102, R110). IC2 is told by weights and KINDs: every slot from
above `p` up to `p`'s own parent stands below the key that the node in `p` would have. -/
def Obligations.DefensiveChecksFail : Prop :=
  ∀ (c : WBits) (t : Tree),
    (∀ y : Symbol, t.slotOfSym y = noSlot → t.nytp = false → t.update c y = none ∧ t.mapBits y = none) ∧
    (∀ p : Slot, (t.node p).weight.toNat < 2 ^ c.bits - 1 → p.toNat < (t.node p).parent.toNat →
      (t.node p).parent.toNat ≤ 510 →
      (∀ k : Slot, p.toNat < k.toNat → k.toNat ≤ (t.node p).parent.toNat →
        t.StandsBelow k ((t.node p).weight.toNat + 1) (decide ((t.node p).kind = .internal))) →
        t.slideAndIncrement c p = none) ∧
    (∀ p : Slot, (t.node p).kind ≠ .leaf → (t.node p).kind ≠ .internal → t.slideAndIncrement c p = none) ∧
    (∀ y : Symbol, t.slotOfSym y ≠ noSlot →
      (t.node (t.slotOfSym y)).kind ≠ .leaf ∨ (t.node (t.slotOfSym y)).sym ≠ y →
        t.update c y = none ∧ t.mapBits y = none) ∧
    (∀ (n : Nat) (i : Slot), (∀ k ≤ n, (fun j => (t.node j).parent)^[k] i ≠ root) →
      (t.node ((fun j => (t.node j).parent)^[n] i)).parent = noSlot →
        t.codeword i = none ∧ (∀ y : Symbol, t.slotOfSym y = i → i ≠ noSlot → t.mapBits y = none) ∧
        (t.lo = i → ∀ y : Symbol, t.slotOfSym y = noSlot → t.mapBits y = none)) ∧
    (∀ (i : Slot) (n : Nat), (t.node i).kind = .internal ∧ (t.node i).child = noSlot ∨ (t.node i).kind = .unused →
      t.enterSlot i n = .failed .eInternal 0)

/-- The only ways back from a fatal error are INIT and reset: any other command leaves `FATAL`, `FATAL_CAUSE` and the
tree as they are while `FATAL` = 1 (R147, R149). -/
def Obligations.OnlyInitClearsFatal : Prop :=
  ∀ (s t : State) (i : Instr), s.fatal = true → i ≠ .init → exec i s = .next t →
    t.fatal = true ∧ t.fatalCause = s.fatalCause ∧ t.tree = s.tree ∧ t.binQ = s.binQ ∧ t.boutSent = s.boutSent

/-! ## The update engine -/

/-- UPDATE of the first symbol of a session, for every symbol and every `W_BITS`: 510 is INTERNAL of weight 1, 509 the
LEAF of the symbol with weight 1, 508 the NYT (R94). -/
def Obligations.FirstUpdateBuildsTheThreeNodeTree : Prop :=
  ∀ (s : State) (opnd : Operand), s.tree = Tree.fresh → s.fatal = false → opnd.toNat ≤ 255 →
    ∃ t : Tree,
      exec (.update opnd) s =
        .next ({ s with tree := t }.offer ⟨.ok, resultWord 0 true (opnd.setWidth 8)⟩) ∧
      t.node 510 = ⟨1, .internal, 0, 509, 511⟩ ∧ t.node 509 = ⟨1, .leaf, opnd.setWidth 8, 511, 510⟩ ∧
      t.node 508 = ⟨0, .nyt, 0, 511, 510⟩ ∧ (∀ i : Slot, i.toNat < 508 → t.node i = Node.empty) ∧
      (∀ z : Symbol, t.slotOfSym z = if z = opnd.setWidth 8 then 509 else noSlot) ∧
      t.lo = 508 ∧ t.nytp = true

/-- Where an update starts. For an unseen symbol while `LO` > 0, Split: what each slot, `SLOT_OF` entry and `LO` holds then,
the chain starting at the old NYT slot and the new leaf deferred (R83). With `LO` = 0, Absorb: slot 0 becomes the leaf,
`NYTP` is cleared, the chain starts at slot 0 and nothing is deferred (R84). For a seen symbol, with `l` the highest slot of
the run of LEAF slots of its leaf's weight: the symbols of the two leaves are exchanged, and the chain starts at `l` with
nothing deferred, or, exactly where `NYTP` = 1 and `l` = `LO` + 1, at the parent of `l` with `l` deferred (R81, R85, R86). -/
def Obligations.UpdateStartsAsTheRulesSay : Prop :=
  ∀ (t : Tree) (y : Symbol),
    (t.slotOfSym y = noSlot → t.nytp = true → 2 ≤ t.lo.toNat → t.lo.toNat ≤ 510 →
      ∃ u, t.updateStart y = some u ∧ u.first = t.lo ∧ u.defer = t.lo - 1 ∧
        u.tree.lo = t.lo - 2 ∧ u.tree.nytp = true ∧
        (∀ i : Slot, u.tree.node i =
          if i = t.lo then { t.node i with kind := .internal, child := t.lo - 1 }
          else if i = t.lo - 1 then ⟨0, .leaf, y, 511, t.lo⟩
          else if i = t.lo - 2 then ⟨0, .nyt, 0, 511, t.lo⟩ else t.node i) ∧
        (∀ z : Symbol, u.tree.slotOfSym z = if z = y then t.lo - 1 else t.slotOfSym z)) ∧
    (t.slotOfSym y = noSlot → t.nytp = true → t.lo = 0 →
      ∃ u, t.updateStart y = some u ∧ u.first = 0 ∧ u.defer = 511 ∧ u.tree.lo = 0 ∧ u.tree.nytp = false ∧
        (∀ i : Slot, u.tree.node i = if i = 0 then { t.node i with kind := .leaf, sym := y } else t.node i) ∧
        (∀ z : Symbol, u.tree.slotOfSym z = if z = y then 0 else t.slotOfSym z)) ∧
    (∀ q l : Slot, t.slotOfSym y = q → q.toNat ≤ l.toNat → l.toNat ≤ 510 →
      (t.node q).sym = y → (t.node q).child = noSlot → (t.node l).child = noSlot →
      (∀ k : Slot, q.toNat ≤ k.toNat → k.toNat ≤ l.toNat →
        (t.node k).kind = .leaf ∧ (t.node k).weight = (t.node q).weight) →
      (l.toNat < 510 → (t.node (l + 1)).kind ≠ .leaf ∨ (t.node (l + 1)).weight ≠ (t.node q).weight) →
      ∃ u, t.updateStart y = some u ∧ u.tree.lo = t.lo ∧ u.tree.nytp = t.nytp ∧
        (t.nytp = true ∧ l.toNat = t.lo.toNat + 1 → u.first = (t.node l).parent ∧ u.defer = l) ∧
        (¬ (t.nytp = true ∧ l.toNat = t.lo.toNat + 1) → u.first = l ∧ u.defer = 511) ∧
        (∀ i : Slot, u.tree.node i =
          if i = q then { t.node i with sym := (t.node l).sym }
          else if i = l then { t.node i with sym := y } else t.node i) ∧
        (∀ z : Symbol, u.tree.slotOfSym z =
          if z = y then l else if z = (t.node l).sym then q else t.slotOfSym z))

/-- `Update(s)` is its start, then `SlideAndIncrement` along the slots it returns until `NONE`, then, where a slot was
deferred, one `SlideAndIncrement` of it whose returned slot is dropped (R81, R88). The chain has at most 512 calls: a longer
one is endless, which no rule reaches (log entry 6). -/
def Obligations.UpdateIsTheChainAndTheDeferredStep : Prop :=
  ∀ (c : WBits) (t t' : Tree) (y : Symbol),
    t.update c y = some t' ↔
      ∃ (u : UpdateStart) (n : Nat) (call : Nat → Tree × Slot), t.updateStart y = some u ∧ n ≤ 512 ∧
        call 0 = (u.tree, u.first) ∧
        (∀ k, k < n → (call k).2 ≠ noSlot ∧ (call k).1.slideAndIncrement c (call k).2 = some (call (k + 1))) ∧
        (call n).2 = noSlot ∧
        ((u.defer = noSlot ∧ t' = (call n).1) ∨
          (u.defer ≠ noSlot ∧ ∃ next, (call n).1.slideAndIncrement c u.defer = some (t', next)))

/-- `Leader(q)` is the highest slot of the run, from `q` up, of slots with `q`'s KIND and weight (R37, R89). -/
def Obligations.LeaderIsTheTopOfTheRun : Prop :=
  ∀ (t : Tree) (q : Slot), q.toNat ≤ 510 →
    q.toNat ≤ (t.leader q).toNat ∧ (t.leader q).toNat ≤ 510 ∧
    (∀ k : Slot, q.toNat ≤ k.toNat → k.toNat ≤ (t.leader q).toNat →
      (t.node k).kind = (t.node q).kind ∧ (t.node k).weight = (t.node q).weight) ∧
    ((t.leader q).toNat < 510 →
      (t.node (t.leader q + 1)).kind ≠ (t.node q).kind ∨ (t.node (t.leader q + 1)).weight ≠ (t.node q).weight)

/-- `SwapLeaves` of two LEAF slots of equal weight exchanges their symbols and the two `SLOT_OF` entries, and nothing
else (R89). -/
def Obligations.SwapLeavesExchangesTheSymbols : Prop :=
  ∀ (t : Tree) (a b : Slot), a ≠ b → (t.node a).kind = .leaf → (t.node b).kind = .leaf →
    (t.node a).weight = (t.node b).weight → (t.node a).child = noSlot → (t.node b).child = noSlot →
      ∃ t' : Tree, t.swapLeaves a b = some t' ∧ t'.lo = t.lo ∧ t'.nytp = t.nytp ∧
        (∀ i : Slot, t'.node i =
          if i = a then { t.node a with sym := (t.node b).sym }
          else if i = b then { t.node b with sym := (t.node a).sym } else t.node i) ∧
        (∀ y : Symbol, t'.slotOfSym y =
          if y = (t.node a).sym then b else if y = (t.node b).sym then a else t.slotOfSym y)

/-- `Rotate(p, q)` carries the content of slot p to q and each content of p+1..q one slot down, and leaves every other
content (R90). -/
def Obligations.RotateShiftsTheContents : Prop :=
  ∀ (t t' : Tree) (p q : Slot), p.toNat ≤ q.toNat → q.toNat ≤ 510 → t.rotate p q = some t' →
    (t'.node q).content = (t.node p).content ∧
    (∀ k : Slot, p.toNat < k.toNat → k.toNat ≤ q.toNat → (t'.node (k - 1)).content = (t.node k).content) ∧
    (∀ k : Slot, k.toNat < p.toNat ∨ q.toNat < k.toNat → (t'.node k).content = (t.node k).content)

/-- The slide from slot p lands at the first slot q whose upper neighbour, if it has one, does not stand below the new key,
of weight `w` and of an INTERNAL node or a leaf: it passes exactly slots of a lower weight, and, for an INTERNAL node, the
leaves of the same weight; and never p's own parent (R87). The order is told by weights and KINDs; an UNUSED slot counts as
a leaf (log entry 6). -/
def Obligations.SlidePassesExactlyTheLowerKeys : Prop :=
  ∀ (t : Tree) (p q : Slot) (w : Word) (internal : Bool), p.toNat ≤ 510 →
    t.slideFrom p w (if internal then 1 else 0) 511 p = some q →
      p.toNat ≤ q.toNat ∧ q.toNat ≤ 510 ∧
      (∀ k : Slot, p.toNat < k.toNat → k.toNat ≤ q.toNat →
        t.StandsBelow k w.toNat internal ∧ k ≠ (t.node p).parent) ∧
      (q.toNat < 510 → ¬ t.StandsBelow (q + 1) w.toNat internal)

/-- `SlideAndIncrement(p)` whole (R87): the node in slot p goes to slot q, past exactly the slots that stand below its new
key; its weight rises by 1 (R92); the contents in between go down by one and every other content stays (R90); and the next
node to increment is the former parent for an INTERNAL node, the new parent for a leaf. An UNUSED slot on the way counts as
a leaf (log entry 6). -/
def Obligations.SlideAndIncrementMovesTheNode : Prop :=
  ∀ (c : WBits) (t : Tree) (p : Slot) (r : Tree × Slot), p.toNat ≤ 510 →
    (t.node p).weight.toNat < 2 ^ c.bits - 1 → t.slideAndIncrement c p = some r →
      ((t.node p).kind = .leaf ∨ (t.node p).kind = .internal) ∧
      ∃ q : Slot, p.toNat ≤ q.toNat ∧ q.toNat ≤ 510 ∧
        (∀ k : Slot, p.toNat < k.toNat → k.toNat ≤ q.toNat →
          t.StandsBelow k ((t.node p).weight.toNat + 1) (decide ((t.node p).kind = .internal))) ∧
        (q.toNat < 510 →
          ¬ t.StandsBelow (q + 1) ((t.node p).weight.toNat + 1) (decide ((t.node p).kind = .internal))) ∧
        (r.1.node q).content =
          ((t.node p).weight + 1, (t.node p).kind, (t.node p).sym, (t.node p).child) ∧
        (∀ k : Slot, p.toNat < k.toNat → k.toNat ≤ q.toNat → (r.1.node (k - 1)).content = (t.node k).content) ∧
        (∀ k : Slot, k.toNat < p.toNat ∨ q.toNat < k.toNat → (r.1.node k).content = (t.node k).content) ∧
        ((t.node p).kind = .internal → r.2 = (t.node p).parent) ∧
        ((t.node p).kind = .leaf → r.2 = (r.1.node q).parent)

/-- The update engine never fails on a well-formed tree with headroom, and leaves a well-formed tree: the invariants
hold at the start and end of a full update (R35, R36, R91). -/
def Obligations.UpdateKeepsTheTreeWellFormed : Prop :=
  ∀ (c : WBits) (t : Tree) (y : Symbol), t.WellFormed c → (t.node root).weight.toNat < 2 ^ c.bits - 1 →
    ∃ t', t.update c y = some t' ∧ t'.WellFormed c

/-- One update counts one symbol: TOTAL rises by 1, the leaf weight of that symbol rises by 1 and no other symbol's
changes, and the symbol is then seen (R88, R92). -/
def Obligations.UpdateCountsOneSymbol : Prop :=
  ∀ (c : WBits) (t t' : Tree) (y : Symbol), t.WellFormed c → (t.node root).weight.toNat < 2 ^ c.bits - 1 →
    t.update c y = some t' →
      t'.total.toNat = t.total.toNat + 1 ∧ t'.slotOfSym y ≠ noSlot ∧
      (∀ z : Symbol, t'.symbolWeight z = t.symbolWeight z + if z = y then 1 else 0) ∧
      t'.seenCount = t.seenCount + if t.isNew y then 1 else 0

/-- UPDATE completes on every sound tree with headroom, and changes the tree alone (R94). -/
def Obligations.UpdateCompletes : Prop :=
  ∀ (s : State) (opnd : Operand), s.tree.WellFormed s.wBits → s.fatal = false → opnd.toNat ≤ 255 →
    s.atMaxW = false →
      ∃ t, s.tree.update s.wBits (opnd.setWidth 8) = some t ∧ t.WellFormed s.wBits ∧
        exec (.update opnd) s =
          .next ({ s with tree := t }.offer ⟨.ok, resultWord 0 (s.tree.isNew (opnd.setWidth 8)) (opnd.setWidth 8)⟩)

/-- After any stream of updates from reset, short enough for the headroom, the tree is well formed, TOTAL is the length
of the stream, and every leaf's weight is the number of times its symbol came (R25, R92). -/
def Obligations.WeightsCountTheStream : Prop :=
  ∀ (c : WBits) (ys : List Symbol), ys.length < 2 ^ c.bits →
    ∃ s, execAll (ys.map fun y => .update (y.setWidth 16)) (State.resetWith c) = .next s ∧
      s.tree.WellFormed c ∧ s.tree.total.toNat = ys.length ∧
      (∀ y : Symbol, s.tree.symbolWeight y = ys.count y) ∧ s.fatal = false

/-! ## The codeword mapper -/

/-- The beats of a bit sequence carry its bits in order, and `bout_last` is 1 on the final one only (R71). -/
def Obligations.LastFlagMarksTheFinalBeat : Prop :=
  ∀ b : List Bool, b ≠ [] →
    (toBeats b).map OutBeat.bit = b ∧
    (toBeats b).map OutBeat.last = List.replicate (b.length - 1) false ++ [true]

/-- First-symbol shortcut: in a fresh session `LO` = `ROOT`, the root's codeword is empty, and a symbol maps to its
8 raw bits, most significant first (R105). -/
def Obligations.FirstSymbolMapsToItsRawCode : Prop :=
  Tree.fresh.lo = root ∧ Tree.fresh.codeword root = some [] ∧
    ∀ y : Symbol, Tree.fresh.mapBits y = some (raw8 y) ∧
      raw8 y = (List.range 8).map fun k => y.toNat.testBit (7 - k)

/-- Full-alphabet termination: once 256 symbols are seen, every symbol has a slot, and its bits are its own codeword,
never an escape (R106). -/
def Obligations.FullAlphabetNeverEscapes : Prop :=
  ∀ t : Tree, t.slotOf.countP (fun i => i != noSlot) = t.seenCount → t.seenCount = 256 →
    ∀ y : Symbol, t.slotOfSym y ≠ noSlot ∧ ∀ b, t.mapBits y = some b → t.codeword (t.slotOfSym y) = some b

/-- Which bits a symbol maps to, on a well-formed tree. The codeword of `ROOT` is empty, and that of another slot in use is
its parent's followed by its own branch bit, 0 for an even slot and 1 for an odd one (R34, R100). A seen symbol maps to the
codeword of its leaf; an unseen one, while the tree has an NYT, to the codeword of `LO` followed by its 8 bits, most
significant first (R10, R101). -/
def Obligations.CodewordsAreTheBranchBits : Prop :=
  ∀ (c : WBits) (t : Tree), t.WellFormed c →
    t.codeword root = some [] ∧
    (∀ i : Slot, t.inUse i → i ≠ root →
      ∃ b, t.codeword (t.node i).parent = some b ∧ t.codeword i = some (b ++ [decide (i.toNat % 2 = 1)])) ∧
    (∀ y : Symbol, t.slotOfSym y ≠ noSlot →
      ∃ b, t.codeword (t.slotOfSym y) = some b ∧ t.mapBits y = some b) ∧
    (∀ y : Symbol, t.slotOfSym y = noSlot →
      ∃ b, t.codeword t.lo = some b ∧
        t.mapBits y = some (b ++ (List.range 8).map fun k => y.toNat.testBit (7 - k)))

/-- On a well-formed tree every symbol maps to at least 1 and at most 263 bits, a seen symbol to at most 255 (R39,
R101). -/
def Obligations.MappedBitsAreBounded : Prop :=
  ∀ (c : WBits) (t : Tree) (y : Symbol), t.WellFormed c →
    ∃ b, t.mapBits y = some b ∧ 1 ≤ b.length ∧ b.length ≤ 263 ∧
      (t.slotOfSym y ≠ noSlot → b.length ≤ 255)

/-- MAP completes on every sound tree, with or without headroom: its beats transfer and it answers their number, or it
waits with them offered; the tree is unchanged (R103, R154). -/
def Obligations.MapCompletes : Prop :=
  ∀ (s : State) (opnd : Operand), s.tree.WellFormed s.wBits → s.fatal = false → opnd.toNat ≤ 255 →
    ∃ b r, s.tree.mapBits (opnd.setWidth 8) = some b ∧
      r = (⟨.ok, resultWord b.length (s.tree.isNew (opnd.setWidth 8)) (opnd.setWidth 8)⟩ : Response) ∧
      (s.boutReady = true →
        exec (.map opnd) s = .next ({ s with boutSent := s.boutSent ++ toBeats b }.offer r)) ∧
      (s.boutReady = false →
        exec (.map opnd) s = .next { s with phase := .emitting (toBeats b) none r })

/-- ENCODE completes on every sound tree with headroom: the bits are those of the tree before the update, then the
tree is updated and the response is as MAP's; or it waits with the beats offered and the tree not yet updated (R104,
R154). -/
def Obligations.EncodeCompletes : Prop :=
  ∀ (s : State) (opnd : Operand), s.tree.WellFormed s.wBits → s.fatal = false → opnd.toNat ≤ 255 →
    s.atMaxW = false →
      ∃ b r t, s.tree.mapBits (opnd.setWidth 8) = some b ∧
        r = (⟨.ok, resultWord b.length (s.tree.isNew (opnd.setWidth 8)) (opnd.setWidth 8)⟩ : Response) ∧
        s.tree.update s.wBits (opnd.setWidth 8) = some t ∧ t.WellFormed s.wBits ∧
        (s.boutReady = true →
          exec (.encode opnd) s =
            .next ({ s with tree := t, boutSent := s.boutSent ++ toBeats b }.offer r)) ∧
        (s.boutReady = false →
          exec (.encode opnd) s =
            .next { s with phase := .emitting (toBeats b) (some (opnd.setWidth 8)) r })

/-- A host that takes the offered beats one at a time leaves the machine where `bout_ready` would have: all beats
transferred in order, and only then the end of the command (R60, R154). -/
def Obligations.TakingBeatsOneByOneEndsTheCommand : Prop :=
  ∀ (s : State) (beats : List OutBeat) (upd : Option Symbol) (r : Response),
    s.rst = false → s.phase = .emitting beats upd r → beats ≠ [] →
      (State.acceptBeat^[beats.length]) s = { s with boutSent := s.boutSent ++ beats }.complete upd r ∧
      (s.boutReady = true → step s = .next ({ s with boutSent := s.boutSent ++ beats }.complete upd r)) ∧
      ∀ k, k < beats.length → ((State.acceptBeat^[k]) s).rspSent = s.rspSent ∧
        ((State.acceptBeat^[k]) s).rspOffered = none

/-! ## The tree walker -/

/-- WALK completes on every sound tree and reads back what MAP sends: given the bits that MAP emits for a symbol, it
answers MAP's own RESULT, takes exactly those bits, and leaves the tree (R110, R113). -/
def Obligations.WalkReadsWhatMapSends : Prop :=
  ∀ (s : State) (y : Symbol) (rest : List InBeat), s.tree.WellFormed s.wBits → s.fatal = false →
    ∃ b, s.tree.mapBits y = some b ∧
      (s.binQ = dataBeats b ++ rest →
        exec .walk s =
          .next ({ s with binQ := rest }.offer ⟨.ok, resultWord b.length (s.tree.isNew y) y⟩))

/-- DECODE completes on every sound tree with headroom, and follows ENCODE in lockstep: two instances with the same
tree and `W_BITS`, one running ENCODE and the other DECODE on the bits sent, give the same RESULT and the same next
tree (R114, R115). -/
def Obligations.DecodeFollowsEncode : Prop :=
  ∀ (e d : State) (opnd : Operand) (rest : List InBeat),
    e.tree.WellFormed e.wBits → e.fatal = false → e.atMaxW = false → e.boutReady = true → opnd.toNat ≤ 255 →
    d.tree = e.tree → d.wBits = e.wBits → d.fatal = false →
      ∃ b t v, e.tree.mapBits (opnd.setWidth 8) = some b ∧ t.WellFormed e.wBits ∧
        exec (.encode opnd) e =
          .next ({ e with tree := t, boutSent := e.boutSent ++ toBeats b }.offer ⟨.ok, v⟩) ∧
        (d.binQ = dataBeats b ++ rest →
          exec .decode d = .next ({ d with tree := t, binQ := rest }.offer ⟨.ok, v⟩))

/-- Round trip (R115): an encoder and a decoder with the same `W_BITS`, both at the start of a session, whose hosts hold
the ready pins. The encoder answers OK for every symbol of the stream, in order; the decoder, given the bits sent, answers
the same responses, takes exactly those bits, and ends with the encoder's tree. What was on the channels before does not
matter: the ready pins are hypotheses, no history is assumed empty. -/
def Obligations.EncodedStreamsRoundTrip : Prop :=
  ∀ (e₀ d₀ : State) (ys : List Symbol) (rest : List InBeat),
    e₀.tree = Tree.fresh → e₀.fatal = false → e₀.boutReady = true → e₀.rspReady = true →
    d₀.tree = Tree.fresh → d₀.fatal = false → d₀.rspReady = true → d₀.wBits = e₀.wBits →
    ys.length < 2 ^ e₀.wBits.bits →
      ∃ e beats rs, execAll (ys.map fun y => .encode (y.setWidth 16)) e₀ = .next e ∧
        e.boutSent = e₀.boutSent ++ beats ∧ e.rspSent = e₀.rspSent ++ rs ∧
        (rs.map fun r => r.status) = List.replicate ys.length .ok ∧
        (rs.map fun r : Response => r.value >>> (10 : Nat)) = (ys.map fun y : Symbol => y.setWidth 32) ∧
        (d₀.binQ = dataBeats (beats.map OutBeat.bit) ++ rest →
          ∃ d, execAll (List.replicate ys.length .decode) d₀ = .next d ∧
            d.rspSent = d₀.rspSent ++ rs ∧ d.tree = e.tree ∧ d.binQ = rest)

/-- A walk that finds a symbol has taken at least 1 and at most 263 data bits, 8 for the first symbol of a session, and no
beat beyond them (R72, R116). -/
def Obligations.WalkTakesOneTo263Bits : Prop :=
  ∀ (c : WBits) (t : Tree) (beats rest : List InBeat) (y : Symbol) (new : Bool) (n : Nat), t.WellFormed c →
    t.walkBeats beats (t.enterSlot root 0) = (.found y new n, rest) →
      1 ≤ n ∧ n ≤ 263 ∧ (t.lo = root → n = 8) ∧ ∃ b : List InBeat, beats = b ++ rest ∧ b.length = n ∧ ∀ x ∈ b, x.eos = false

/-- A WALK or DECODE whose beats come late is the one whose beats came in time: waiting and going on gives the state
that all the beats at once would have given (R59, R155). -/
def Obligations.LateBeatsGiveTheSameResult : Prop :=
  ∀ (s t : State) (i : Instr) (a b : List InBeat) (upd : Bool) (pos : TwPos),
    s.rst = false → i = .walk ∨ i = .decode → exec i { s with binQ := a } = .next t → t.phase = .walking upd pos →
      t.binQ = [] ∧ t.rspSent = s.rspSent ∧ step { t with binQ := b } = exec i { s with binQ := a ++ b }

/-! ## Invariants -/

/-- Every step keeps the state consistent, E_INTERNAL included: weights fit `W_BITS`, `FATAL_CAUSE` matches `FATAL`, and
a tree command in flight runs with `FATAL` = 0 (R12, R24, R92, R147). -/
def Obligations.StepKeepsConsistency : Prop :=
  ∀ s t : State, s.Consistent → step s = .next t → t.Consistent

/-- The reset state is consistent and sound, for every `W_BITS` (R35, R36, R43). -/
def Obligations.ResetStateIsSound : Prop :=
  ∀ c : WBits, (State.resetWith c).Consistent ∧ (State.resetWith c).Sound

/-- Every step keeps the state sound: the tree well formed, no E_INTERNAL, the phase's promises (R35, R36, R146). -/
def Obligations.StepKeepsSoundness : Prop :=
  ∀ s t : State, s.Sound → step s = .next t → t.Sound

/-- Every move of the host keeps the state sound and consistent (R15, R126). -/
def Obligations.HostMovesKeepSoundness : Prop :=
  ∀ (s : State) (m : HostMove), (s.Sound → (hostMove m s).Sound) ∧ (s.Consistent → (hostMove m s).Consistent)

/-- E_INTERNAL cannot occur: no step from a sound state transfers or offers an E_INTERNAL response (R91, R146). -/
def Obligations.SoundStepsNeverAnswerEInternal : Prop :=
  ∀ s t : State, s.Sound → step s = .next t →
    (∀ r, t.phase = .responding r → r.status ≠ .eInternal) ∧
    (t.rspSent = s.rspSent ∨ ∃ r, t.rspSent = s.rspSent ++ [r] ∧ r.status ≠ .eInternal)

/-- No step changes `W_BITS`, the pins, or what has transferred: histories only grow (R7, R54, R130, R151). -/
def Obligations.StepKeepsParameterPinsAndHistory : Prop :=
  ∀ s t : State, step s = .next t →
    t.wBits = s.wBits ∧ t.rst = s.rst ∧ t.boutReady = s.boutReady ∧ t.rspReady = s.rspReady ∧
    (∃ b, t.boutSent = s.boutSent ++ b) ∧ (∃ r, t.rspSent = s.rspSent ++ r) ∧
    (∃ w, s.cmdQ = w ++ t.cmdQ) ∧ (∃ x, s.binQ = x ++ t.binQ)

/-! ## The assembler -/

/-- The three pseudo-instructions are CSR_RD 1, 2 and 4 (R74). -/
def Obligations.PseudoInstructionsExpand : Prop :=
  assembleLine ['R', 'D', 'S', 'T', 'A', 'T', 'U', 'S'] = .ok (some (encode (.csrRd 1))) ∧
  assembleLine ['R', 'D', 'T', 'O', 'T', 'A', 'L'] = .ok (some (encode (.csrRd 2))) ∧
  assembleLine ['R', 'D', 'S', 'E', 'E', 'N'] = .ok (some (encode (.csrRd 4)))
end

