-- ==== Sys2Proof/Laws/State.lean ====
section
/-!
SUPPORT. The state's small lemmas: for each named update of the state, one lemma per field, so that no later proof
unfolds a record update.
-/

namespace Sys2Proof.Machine

open Sys2Proof.Config

/-! ## `clearFatal` -/

@[simp] theorem State.clearFatal_wBits (s : State) :
    (s.clearFatal).wBits = s.wBits := rfl

@[simp] theorem State.clearFatal_tree (s : State) :
    (s.clearFatal).tree = s.tree := rfl

@[simp] theorem State.clearFatal_fatal (s : State) :
    (s.clearFatal).fatal = false := rfl

@[simp] theorem State.clearFatal_fatalCause (s : State) :
    (s.clearFatal).fatalCause = 0 := rfl

@[simp] theorem State.clearFatal_phase (s : State) :
    (s.clearFatal).phase = s.phase := rfl

@[simp] theorem State.clearFatal_rst (s : State) :
    (s.clearFatal).rst = s.rst := rfl

@[simp] theorem State.clearFatal_cmdQ (s : State) :
    (s.clearFatal).cmdQ = s.cmdQ := rfl

@[simp] theorem State.clearFatal_binQ (s : State) :
    (s.clearFatal).binQ = s.binQ := rfl

@[simp] theorem State.clearFatal_boutReady (s : State) :
    (s.clearFatal).boutReady = s.boutReady := rfl

@[simp] theorem State.clearFatal_rspReady (s : State) :
    (s.clearFatal).rspReady = s.rspReady := rfl

@[simp] theorem State.clearFatal_boutSent (s : State) :
    (s.clearFatal).boutSent = s.boutSent := rfl

@[simp] theorem State.clearFatal_rspSent (s : State) :
    (s.clearFatal).rspSent = s.rspSent := rfl

@[simp] theorem State.clearFatal_draws (s : State) :
    (s.clearFatal).draws = s.draws := rfl

/-! ## `loseTree` -/

@[simp] theorem State.loseTree_wBits (s : State) :
    (s.loseTree).wBits = s.wBits := rfl

@[simp] theorem State.loseTree_tree (s : State) :
    (s.loseTree).tree = drawTree s.wBits s.draws := rfl

@[simp] theorem State.loseTree_fatal (s : State) :
    (s.loseTree).fatal = s.fatal := rfl

@[simp] theorem State.loseTree_fatalCause (s : State) :
    (s.loseTree).fatalCause = s.fatalCause := rfl

@[simp] theorem State.loseTree_phase (s : State) :
    (s.loseTree).phase = s.phase := rfl

@[simp] theorem State.loseTree_rst (s : State) :
    (s.loseTree).rst = s.rst := rfl

@[simp] theorem State.loseTree_cmdQ (s : State) :
    (s.loseTree).cmdQ = s.cmdQ := rfl

@[simp] theorem State.loseTree_binQ (s : State) :
    (s.loseTree).binQ = s.binQ := rfl

@[simp] theorem State.loseTree_boutReady (s : State) :
    (s.loseTree).boutReady = s.boutReady := rfl

@[simp] theorem State.loseTree_rspReady (s : State) :
    (s.loseTree).rspReady = s.rspReady := rfl

@[simp] theorem State.loseTree_boutSent (s : State) :
    (s.loseTree).boutSent = s.boutSent := rfl

@[simp] theorem State.loseTree_rspSent (s : State) :
    (s.loseTree).rspSent = s.rspSent := rfl

@[simp] theorem State.loseTree_draws (s : State) :
    (s.loseTree).draws = s.draws + 1 := rfl

/-! ## `freshSession` -/

@[simp] theorem State.freshSession_wBits (s : State) :
    (s.freshSession).wBits = s.wBits := rfl

@[simp] theorem State.freshSession_tree (s : State) :
    (s.freshSession).tree = Tree.fresh := rfl

@[simp] theorem State.freshSession_fatal (s : State) :
    (s.freshSession).fatal = false := rfl

@[simp] theorem State.freshSession_fatalCause (s : State) :
    (s.freshSession).fatalCause = 0 := rfl

@[simp] theorem State.freshSession_phase (s : State) :
    (s.freshSession).phase = s.phase := rfl

@[simp] theorem State.freshSession_rst (s : State) :
    (s.freshSession).rst = s.rst := rfl

@[simp] theorem State.freshSession_cmdQ (s : State) :
    (s.freshSession).cmdQ = s.cmdQ := rfl

@[simp] theorem State.freshSession_binQ (s : State) :
    (s.freshSession).binQ = s.binQ := rfl

@[simp] theorem State.freshSession_boutReady (s : State) :
    (s.freshSession).boutReady = s.boutReady := rfl

@[simp] theorem State.freshSession_rspReady (s : State) :
    (s.freshSession).rspReady = s.rspReady := rfl

@[simp] theorem State.freshSession_boutSent (s : State) :
    (s.freshSession).boutSent = s.boutSent := rfl

@[simp] theorem State.freshSession_rspSent (s : State) :
    (s.freshSession).rspSent = s.rspSent := rfl

@[simp] theorem State.freshSession_draws (s : State) :
    (s.freshSession).draws = s.draws := rfl

/-! ## `resetEdge` -/

@[simp] theorem State.resetEdge_wBits (s : State) :
    (s.resetEdge).wBits = s.wBits := rfl

@[simp] theorem State.resetEdge_tree (s : State) :
    (s.resetEdge).tree = Tree.fresh := rfl

@[simp] theorem State.resetEdge_fatal (s : State) :
    (s.resetEdge).fatal = false := rfl

@[simp] theorem State.resetEdge_fatalCause (s : State) :
    (s.resetEdge).fatalCause = 0 := rfl

@[simp] theorem State.resetEdge_phase (s : State) :
    (s.resetEdge).phase = .idle := rfl

@[simp] theorem State.resetEdge_rst (s : State) :
    (s.resetEdge).rst = s.rst := rfl

@[simp] theorem State.resetEdge_cmdQ (s : State) :
    (s.resetEdge).cmdQ = s.cmdQ := rfl

@[simp] theorem State.resetEdge_binQ (s : State) :
    (s.resetEdge).binQ = s.binQ := rfl

@[simp] theorem State.resetEdge_boutReady (s : State) :
    (s.resetEdge).boutReady = s.boutReady := rfl

@[simp] theorem State.resetEdge_rspReady (s : State) :
    (s.resetEdge).rspReady = s.rspReady := rfl

@[simp] theorem State.resetEdge_boutSent (s : State) :
    (s.resetEdge).boutSent = s.boutSent := rfl

@[simp] theorem State.resetEdge_rspSent (s : State) :
    (s.resetEdge).rspSent = s.rspSent := rfl

@[simp] theorem State.resetEdge_draws (s : State) :
    (s.resetEdge).draws = s.draws := rfl

/-! ## `presentFirst` -/

@[simp] theorem State.presentFirst_wBits (s : State) (w : Word) :
    (s.presentFirst w).wBits = s.wBits := rfl

@[simp] theorem State.presentFirst_tree (s : State) (w : Word) :
    (s.presentFirst w).tree = s.tree := rfl

@[simp] theorem State.presentFirst_fatal (s : State) (w : Word) :
    (s.presentFirst w).fatal = s.fatal := rfl

@[simp] theorem State.presentFirst_fatalCause (s : State) (w : Word) :
    (s.presentFirst w).fatalCause = s.fatalCause := rfl

@[simp] theorem State.presentFirst_phase (s : State) (w : Word) :
    (s.presentFirst w).phase = .idle := rfl

@[simp] theorem State.presentFirst_rst (s : State) (w : Word) :
    (s.presentFirst w).rst = false := rfl

@[simp] theorem State.presentFirst_cmdQ (s : State) (w : Word) :
    (s.presentFirst w).cmdQ = w :: s.cmdQ := rfl

@[simp] theorem State.presentFirst_binQ (s : State) (w : Word) :
    (s.presentFirst w).binQ = s.binQ := rfl

@[simp] theorem State.presentFirst_boutReady (s : State) (w : Word) :
    (s.presentFirst w).boutReady = s.boutReady := rfl

@[simp] theorem State.presentFirst_rspReady (s : State) (w : Word) :
    (s.presentFirst w).rspReady = s.rspReady := rfl

@[simp] theorem State.presentFirst_boutSent (s : State) (w : Word) :
    (s.presentFirst w).boutSent = s.boutSent := rfl

@[simp] theorem State.presentFirst_rspSent (s : State) (w : Word) :
    (s.presentFirst w).rspSent = s.rspSent := rfl

@[simp] theorem State.presentFirst_draws (s : State) (w : Word) :
    (s.presentFirst w).draws = s.draws := rfl

/-! ## `offer` -/

@[simp] theorem State.offer_wBits (s : State) (r : Response) :
    (s.offer r).wBits = s.wBits := by
  unfold State.offer; split <;> rfl

@[simp] theorem State.offer_tree (s : State) (r : Response) :
    (s.offer r).tree = s.tree := by
  unfold State.offer; split <;> rfl

@[simp] theorem State.offer_fatal (s : State) (r : Response) :
    (s.offer r).fatal = s.fatal := by
  unfold State.offer; split <;> rfl

@[simp] theorem State.offer_fatalCause (s : State) (r : Response) :
    (s.offer r).fatalCause = s.fatalCause := by
  unfold State.offer; split <;> rfl

@[simp] theorem State.offer_phase (s : State) (r : Response) :
    (s.offer r).phase = if s.rspReady then .idle else .responding r := by
  unfold State.offer; split <;> rfl

@[simp] theorem State.offer_rst (s : State) (r : Response) :
    (s.offer r).rst = s.rst := by
  unfold State.offer; split <;> rfl

@[simp] theorem State.offer_cmdQ (s : State) (r : Response) :
    (s.offer r).cmdQ = s.cmdQ := by
  unfold State.offer; split <;> rfl

@[simp] theorem State.offer_binQ (s : State) (r : Response) :
    (s.offer r).binQ = s.binQ := by
  unfold State.offer; split <;> rfl

@[simp] theorem State.offer_boutReady (s : State) (r : Response) :
    (s.offer r).boutReady = s.boutReady := by
  unfold State.offer; split <;> rfl

@[simp] theorem State.offer_rspReady (s : State) (r : Response) :
    (s.offer r).rspReady = s.rspReady := by
  unfold State.offer; split <;> rfl

@[simp] theorem State.offer_boutSent (s : State) (r : Response) :
    (s.offer r).boutSent = s.boutSent := by
  unfold State.offer; split <;> rfl

@[simp] theorem State.offer_rspSent (s : State) (r : Response) :
    (s.offer r).rspSent = if s.rspReady then s.rspSent ++ [r] else s.rspSent := by
  unfold State.offer; split <;> rfl

@[simp] theorem State.offer_draws (s : State) (r : Response) :
    (s.offer r).draws = s.draws := by
  unfold State.offer; split <;> rfl

/-! ## `recordError` -/

@[simp] theorem State.recordError_wBits (s : State) (e : Status) :
    (s.recordError e).wBits = s.wBits := by
  unfold State.recordError; split <;> rfl

@[simp] theorem State.recordError_tree (s : State) (e : Status) :
    (s.recordError e).tree = s.tree := by
  unfold State.recordError; split <;> rfl

@[simp] theorem State.recordError_fatal (s : State) (e : Status) :
    (s.recordError e).fatal = (if e.isFatal then true else s.fatal) := by
  unfold State.recordError; split <;> rfl

@[simp] theorem State.recordError_fatalCause (s : State) (e : Status) :
    (s.recordError e).fatalCause = (if e.isFatal then e.code else s.fatalCause) := by
  unfold State.recordError; split <;> rfl

@[simp] theorem State.recordError_phase (s : State) (e : Status) :
    (s.recordError e).phase = s.phase := by
  unfold State.recordError; split <;> rfl

@[simp] theorem State.recordError_rst (s : State) (e : Status) :
    (s.recordError e).rst = s.rst := by
  unfold State.recordError; split <;> rfl

@[simp] theorem State.recordError_cmdQ (s : State) (e : Status) :
    (s.recordError e).cmdQ = s.cmdQ := by
  unfold State.recordError; split <;> rfl

@[simp] theorem State.recordError_binQ (s : State) (e : Status) :
    (s.recordError e).binQ = s.binQ := by
  unfold State.recordError; split <;> rfl

@[simp] theorem State.recordError_boutReady (s : State) (e : Status) :
    (s.recordError e).boutReady = s.boutReady := by
  unfold State.recordError; split <;> rfl

@[simp] theorem State.recordError_rspReady (s : State) (e : Status) :
    (s.recordError e).rspReady = s.rspReady := by
  unfold State.recordError; split <;> rfl

@[simp] theorem State.recordError_boutSent (s : State) (e : Status) :
    (s.recordError e).boutSent = s.boutSent := by
  unfold State.recordError; split <;> rfl

@[simp] theorem State.recordError_rspSent (s : State) (e : Status) :
    (s.recordError e).rspSent = s.rspSent := by
  unfold State.recordError; split <;> rfl

@[simp] theorem State.recordError_draws (s : State) (e : Status) :
    (s.recordError e).draws = s.draws := by
  unfold State.recordError; split <;> rfl

/-! ## The reset state -/

@[simp] theorem State.resetWith_wBits (c : WBits) : (State.resetWith c).wBits = c := rfl

@[simp] theorem State.resetWith_tree (c : WBits) : (State.resetWith c).tree = Tree.fresh := rfl

@[simp] theorem State.resetWith_fatal (c : WBits) : (State.resetWith c).fatal = false := rfl

@[simp] theorem State.resetWith_fatalCause (c : WBits) : (State.resetWith c).fatalCause = 0 := rfl

@[simp] theorem State.resetWith_phase (c : WBits) : (State.resetWith c).phase = .idle := rfl

@[simp] theorem State.resetWith_rst (c : WBits) : (State.resetWith c).rst = false := rfl

@[simp] theorem State.resetWith_cmdQ (c : WBits) : (State.resetWith c).cmdQ = [] := rfl

@[simp] theorem State.resetWith_binQ (c : WBits) : (State.resetWith c).binQ = [] := rfl

@[simp] theorem State.resetWith_boutReady (c : WBits) : (State.resetWith c).boutReady = true := rfl

@[simp] theorem State.resetWith_rspReady (c : WBits) : (State.resetWith c).rspReady = true := rfl

@[simp] theorem State.resetWith_boutSent (c : WBits) : (State.resetWith c).boutSent = [] := rfl

@[simp] theorem State.resetWith_rspSent (c : WBits) : (State.resetWith c).rspSent = [] := rfl

@[simp] theorem State.resetWith_draws (c : WBits) : (State.resetWith c).draws = 0 := rfl

end Sys2Proof.Machine
end

