-- ==== Sys2Proof/Laws/Tree.lean ====
section
/-!
SUPPORT. The node store's lemmas: reading after writing, and what each operation on the tree leaves alone.
-/

namespace Sys2Proof.Machine

open Sys2Proof.Config

/-! ## Slots -/

@[simp] theorem toNat_root : root.toNat = 510 := rfl

@[simp] theorem toNat_noSlot : noSlot.toNat = 511 := rfl

theorem slot_lt_iff (i : Slot) : i.toNat < 511 ↔ i ≠ noSlot := by
  constructor
  · rintro h rfl
    simp at h
  · intro h
    have h' : i.toNat ≠ 511 := fun e => h (BitVec.eq_of_toNat_eq (by simpa using e))
    have := i.isLt
    omega

theorem slot_le_iff (i : Slot) : i.toNat ≤ 510 ↔ i ≠ noSlot := by
  rw [← slot_lt_iff]; omega

/-! ## Reading and writing the node store -/

@[simp] theorem Tree.node_noSlot (t : Tree) : t.node noSlot = Node.empty := rfl

theorem Tree.node_of_lt (t : Tree) {i : Slot} (h : i.toNat < 511) : t.node i = t.nodes[i.toNat] := by
  simp [Tree.node, h]

/-- Reading after writing (R18, R45): the slot written holds `f` of what it held, every other slot is unchanged. -/
theorem Tree.node_modify (t : Tree) (i j : Slot) (f : Node → Node) :
    (t.modify i f).node j = if i = j ∧ i ≠ noSlot then f (t.node j) else t.node j := by
  by_cases hi : i.toNat < 511
  · have hn := (slot_lt_iff i).mp hi
    unfold Tree.modify Tree.node
    by_cases hj : j.toNat < 511
    · simp only [hi, hj, dite_true, Vector.getElem_set, hn, ne_eq, not_false_eq_true, and_true]
      by_cases e : i = j
      · subst e; simp
      · have : i.toNat ≠ j.toNat := fun h => e (BitVec.eq_of_toNat_eq h)
        simp [e, this]
    · have e : i ≠ j := by rintro rfl; exact hj hi
      simp [hj, e]
  · have hn : ¬ i ≠ noSlot := fun h => hi ((slot_lt_iff i).mpr h)
    simp [Tree.modify, hi, hn]

theorem Tree.node_modify_self (t : Tree) {i : Slot} (f : Node → Node) (h : i ≠ noSlot) :
    (t.modify i f).node i = f (t.node i) := by simp [Tree.node_modify, h]

theorem Tree.node_modify_of_ne (t : Tree) {i j : Slot} (f : Node → Node) (h : i ≠ j) :
    (t.modify i f).node j = t.node j := by simp [Tree.node_modify, h]

@[simp] theorem Tree.slotOf_modify (t : Tree) (i : Slot) (f : Node → Node) :
    (t.modify i f).slotOf = t.slotOf := by unfold Tree.modify; split <;> rfl

@[simp] theorem Tree.lo_modify (t : Tree) (i : Slot) (f : Node → Node) : (t.modify i f).lo = t.lo := by
  unfold Tree.modify; split <;> rfl

@[simp] theorem Tree.nytp_modify (t : Tree) (i : Slot) (f : Node → Node) : (t.modify i f).nytp = t.nytp := by
  unfold Tree.modify; split <;> rfl

@[simp] theorem Tree.slotOfSym_modify (t : Tree) (i : Slot) (f : Node → Node) (y : Symbol) :
    (t.modify i f).slotOfSym y = t.slotOfSym y := by simp [Tree.slotOfSym]

/-! ## Reading and writing `SLOT_OF` -/

@[simp] theorem Tree.node_setSlotOf (t : Tree) (y : Symbol) (i j : Slot) :
    (t.setSlotOf y i).node j = t.node j := rfl

@[simp] theorem Tree.lo_setSlotOf (t : Tree) (y : Symbol) (i : Slot) : (t.setSlotOf y i).lo = t.lo := rfl

@[simp] theorem Tree.nytp_setSlotOf (t : Tree) (y : Symbol) (i : Slot) :
    (t.setSlotOf y i).nytp = t.nytp := rfl

theorem Tree.slotOfSym_setSlotOf (t : Tree) (y z : Symbol) (i : Slot) :
    (t.setSlotOf y i).slotOfSym z = if y = z then i else t.slotOfSym z := by
  unfold Tree.setSlotOf Tree.slotOfSym
  simp only [Vector.getElem_set]
  by_cases e : y = z
  · subst e; simp
  · have : y.toNat ≠ z.toNat := fun h => e (BitVec.eq_of_toNat_eq h)
    simp [e, this]

/-! ## Writing `LO` and `NYTP` -/

@[simp] theorem Tree.node_withLo (t : Tree) (l i : Slot) : ({ t with lo := l } : Tree).node i = t.node i := rfl

@[simp] theorem Tree.node_withNytp (t : Tree) (b : Bool) (i : Slot) :
    ({ t with nytp := b } : Tree).node i = t.node i := rfl

@[simp] theorem Tree.slotOfSym_withLo (t : Tree) (l : Slot) (y : Symbol) :
    ({ t with lo := l } : Tree).slotOfSym y = t.slotOfSym y := rfl

@[simp] theorem Tree.slotOfSym_withNytp (t : Tree) (b : Bool) (y : Symbol) :
    ({ t with nytp := b } : Tree).slotOfSym y = t.slotOfSym y := rfl

/-! ## The fresh tree (R43) -/

theorem Tree.fresh_node (i : Slot) : Tree.fresh.node i = if i = root then Node.freshRoot else Node.empty := by
  unfold Tree.node Tree.fresh
  by_cases h : i.toNat < 511
  · simp only [h, dite_true, Vector.getElem_set, Vector.getElem_replicate]
    by_cases e : i = root
    · subst e; simp
    · have : 510 ≠ i.toNat := fun h' => e (BitVec.eq_of_toNat_eq (by simpa using h'.symm))
      simp [e, this]
  · have e : i ≠ root := by rintro rfl; simp at h
    simp [h, e]

theorem Tree.fresh_slotOfSym (y : Symbol) : Tree.fresh.slotOfSym y = noSlot := by
  simp [Tree.slotOfSym, Tree.fresh]

@[simp] theorem Tree.fresh_lo : Tree.fresh.lo = root := rfl

@[simp] theorem Tree.fresh_nytp : Tree.fresh.nytp = true := rfl

/-! ## The primitive moves (R89, R90) -/

/-- What `Place` can do (R90): content into slot `d`, then the children of an INTERNAL node or the `SLOT_OF` of a LEAF
follow it. -/
theorem Tree.place_cases {t t' : Tree} {d : Slot} {n : Node} (h : t.place d n = some t') :
    (n.kind = .internal ∧ n.child ≠ 0 ∧ n.child ≠ noSlot ∧
      t' = ((t.putContent d n).setParent n.child d).setParent (n.child - 1) d) ∨
    (n.kind = .leaf ∧ t' = (t.putContent d n).setSlotOf n.sym d) ∨
    ((n.kind = .nyt ∨ n.kind = .unused) ∧ t' = t.putContent d n) := by
  unfold Tree.place at h
  split at h
  · rename_i hk
    split at h
    · cases h
    · rename_i hc
      simp only [not_or] at hc
      exact .inl ⟨hk, hc.1, hc.2, (Option.some.inj h).symm⟩
  · exact .inr (.inl ⟨‹_›, (Option.some.inj h).symm⟩)
  · exact .inr (.inr ⟨.inl ‹_›, (Option.some.inj h).symm⟩)
  · exact .inr (.inr ⟨.inr ‹_›, (Option.some.inj h).symm⟩)

/-- A move of contents never writes `LO` or `NYTP` (R90). -/
theorem Tree.place_frame {t t' : Tree} {d : Slot} {n : Node} (h : t.place d n = some t') :
    t'.lo = t.lo ∧ t'.nytp = t.nytp := by
  rcases Tree.place_cases h with ⟨_, _, _, rfl⟩ | ⟨_, rfl⟩ | ⟨_, rfl⟩ <;>
    simp [Tree.putContent, Tree.setParent]

theorem Tree.shiftDown_frame {n : Nat} {k : Slot} {t t' : Tree} (h : Tree.shiftDown n k t = some t') :
    t'.lo = t.lo ∧ t'.nytp = t.nytp := by
  induction n generalizing k t with
  | zero => simp only [Tree.shiftDown, Option.some.injEq] at h; subst h; exact ⟨rfl, rfl⟩
  | succ n ih =>
    obtain ⟨u, hu, hn⟩ := Option.bind_eq_some_iff.mp h
    obtain ⟨a, b⟩ := ih hn
    obtain ⟨c, d⟩ := Tree.place_frame hu
    exact ⟨a.trans c, b.trans d⟩

theorem Tree.rotate_frame {t t' : Tree} {p q : Slot} (h : t.rotate p q = some t') :
    t'.lo = t.lo ∧ t'.nytp = t.nytp := by
  unfold Tree.rotate at h
  split at h
  · cases h; exact ⟨rfl, rfl⟩
  · obtain ⟨u, hu, hn⟩ := Option.bind_eq_some_iff.mp h
    obtain ⟨a, b⟩ := Tree.place_frame hn
    obtain ⟨c, d⟩ := Tree.shiftDown_frame hu
    exact ⟨a.trans c, b.trans d⟩

/-! ## Keys and weights (R87, R92) -/

/-- The engine's key test is R87's order by weight and KIND. -/
theorem Tree.keyBelow_iff_standsBelow (t : Tree) (k : Slot) (w : Word) (internal : Bool) :
    t.keyBelow k w (if internal then 1 else 0) = true ↔ t.StandsBelow k w.toNat internal := by
  unfold Tree.keyBelow keyLt Tree.StandsBelow
  cases h : (t.node k).kind <;> cases internal <;> simp [Kind.cls, BitVec.toNat_inj]

/-- Below `MAXW` the `+1` of a weight does not wrap (R82, R92). -/
theorem weightSucc_of_lt {c : WBits} {w : Word} (h : w.toNat < 2 ^ c.bits - 1) :
    weightSucc c w = w + 1 ∧ (w + 1).toNat = w.toNat + 1 := by
  have hb : 2 ^ c.bits ≤ 2 ^ 32 := Nat.pow_le_pow_right (by omega) (by unfold WBits.bits; omega)
  have e : (w + 1).toNat = w.toNat + 1 := by rw [BitVec.toNat_add]; simp; omega
  refine ⟨BitVec.eq_of_toNat_eq ?_, e⟩
  unfold weightSucc maxW
  rw [BitVec.toNat_and, e, BitVec.toNat_ofNat, Nat.mod_eq_of_lt (by omega), Nat.and_two_pow_sub_one_eq_mod,
    Nat.mod_eq_of_lt (by omega)]

/-- What `SlideAndIncrement` can do (R87): a landing slot, a rotation to it, the new weight there, and the next slot
of the chain. -/
theorem Tree.slideAndIncrement_cases {c : WBits} {t : Tree} {p : Slot} {r : Tree × Slot}
    (h : t.slideAndIncrement c p = some r) :
    ((t.node p).kind = .leaf ∨ (t.node p).kind = .internal) ∧
      ∃ q t', t.slideFrom p (weightSucc c (t.node p).weight) (t.node p).kind.cls 511 p = some q ∧
        t.rotate p q = some t' ∧ r.1 = t'.setWeight q (weightSucc c (t.node p).weight) ∧
        r.2 = if (t.node p).kind = .internal then (t.node p).parent else (r.1.node q).parent := by
  unfold Tree.slideAndIncrement at h
  simp only at h
  split at h
  · rename_i hk
    obtain ⟨q, hq, h⟩ := Option.bind_eq_some_iff.mp h
    obtain ⟨t', ht, h⟩ := Option.bind_eq_some_iff.mp h
    refine ⟨hk, q, t', hq, ht, ?_, ?_⟩ <;> · cases h; rfl
  · cases h

theorem Tree.slideAndIncrement_frame {c : WBits} {t : Tree} {p : Slot} {r : Tree × Slot}
    (h : t.slideAndIncrement c p = some r) : r.1.lo = t.lo ∧ r.1.nytp = t.nytp := by
  obtain ⟨_, q, t', _, ht, hr, _⟩ := Tree.slideAndIncrement_cases h
  obtain ⟨a, b⟩ := Tree.rotate_frame ht
  rw [hr]
  exact ⟨by simpa [Tree.setWeight] using a, by simpa [Tree.setWeight] using b⟩

/-- The chain and the deferred step never write `LO` or `NYTP` (R88). -/
theorem Tree.chain_frame {c : WBits} {n : Nat} {q : Slot} {t t' : Tree} (h : Tree.chain c n q t = some t') :
    t'.lo = t.lo ∧ t'.nytp = t.nytp := by
  induction n generalizing q t with
  | zero =>
    unfold Tree.chain at h
    split at h
    · cases h; exact ⟨rfl, rfl⟩
    · cases h
  | succ n ih =>
    unfold Tree.chain at h
    split at h
    · cases h; exact ⟨rfl, rfl⟩
    · obtain ⟨r, hr, hn⟩ := Option.bind_eq_some_iff.mp h
      obtain ⟨a, b⟩ := ih hn
      obtain ⟨c, d⟩ := Tree.slideAndIncrement_frame hr
      exact ⟨a.trans c, b.trans d⟩

theorem Tree.deferredStep_frame {c : WBits} {d : Slot} {t t' : Tree} (h : Tree.deferredStep c d t = some t') :
    t'.lo = t.lo ∧ t'.nytp = t.nytp := by
  unfold Tree.deferredStep at h
  split at h
  · cases h; exact ⟨rfl, rfl⟩
  · obtain ⟨r, hr, rfl⟩ := Option.map_eq_some_iff.mp h
    exact Tree.slideAndIncrement_frame hr

/-- What `Update(s)` can do (R81): a start, the chain, and the deferred step. -/
theorem Tree.update_cases {c : WBits} {t t' : Tree} {y : Symbol} (h : t.update c y = some t') :
    ∃ u t₁, t.updateStart y = some u ∧ Tree.chain c 512 u.first u.tree = some t₁ ∧
      Tree.deferredStep c u.defer t₁ = some t' := by
  obtain ⟨u, hu, h⟩ := Option.bind_eq_some_iff.mp h
  obtain ⟨t₁, h₁, h⟩ := Option.bind_eq_some_iff.mp h
  exact ⟨u, t₁, hu, h₁, h⟩

end Sys2Proof.Machine
end

