-- ==== Sys2Proof/Laws/Ops.lean ====
section
/-!
SUPPORT. What each shared operation over the state can do, said once: the provers cite these lemmas instead of
unfolding the operations.
-/

namespace Sys2Proof.Machine

open Sys2Proof.Config

/-! ## Responses and errors -/

theorem State.offer_ready {s : State} (r : Response) (h : s.rspReady = true) :
    s.offer r = { s with phase := .idle, rspSent := s.rspSent ++ [r] } := by simp [State.offer, h]

theorem State.offer_waiting {s : State} (r : Response) (h : s.rspReady = false) :
    s.offer r = { s with phase := .responding r } := by simp [State.offer, h]

/-- A non-fatal error has no effect but its response (R142, R143, R144, R147). -/
theorem State.raise_of_not_fatal (s : State) {e : Status} (v : Word) (h : e.isFatal = false) :
    s.raise e v = s.offer { status := e, value := v } := by
  cases e <;> first | rfl | cases h

/-- E_TRUNCATED and E_STREAM set `FATAL` and `FATAL_CAUSE` and leave the tree (R145). -/
theorem State.raise_of_stream_error (s : State) {e : Status} (v : Word) (h : e = .eTruncated ∨ e = .eStream) :
    s.raise e v = { s with fatal := true, fatalCause := e.code }.offer { status := e, value := v } := by
  rcases h with rfl | rfl <;> rfl

/-- E_INTERNAL sets `FATAL` and `FATAL_CAUSE` and leaves the tree to a draw (R145, R146). -/
theorem State.raise_internal (s : State) (v : Word) :
    s.raise .eInternal v =
      { s with tree := drawTree s.wBits s.draws, draws := s.draws + 1, fatal := true, fatalCause := 6 }.offer
        { status := .eInternal, value := v } := rfl

/-- All that is known of a draw: its weights fit `W_BITS` (R12, R146). -/
theorem drawTree_weightsFit (c : WBits) (k : Nat) : (drawTree c k).WeightsFit c := by
  intro i
  unfold Machine.Tree.node drawTree
  split
  · simp only [Vector.getElem_ofFn, maxW]
    rw [BitVec.toNat_and]
    refine lt_of_le_of_lt Nat.and_le_right ?_
    rw [BitVec.toNat_ofNat]
    exact lt_of_le_of_lt (Nat.mod_le _ _) (Nat.sub_lt (Nat.two_pow_pos _) Nat.one_pos)
  · exact Nat.two_pow_pos _

/-- Raising E_INTERNAL ends as `EndsInternal` says (R145, R146). -/
theorem State.raise_endsInternal (s : State) : EndsInternal (.next (s.raise .eInternal 0)) s :=
  ⟨_, drawTree_weightsFit _ _, by rw [State.raise_internal]⟩

/-! ## The checks before execution (R148) -/

theorem State.unlessFatal_fatal {s : State} (go : State) (h : s.fatal = true) :
    s.unlessFatal go = s.raise .eFatal 0 := by simp [State.unlessFatal, h]

theorem State.unlessFatal_clear {s : State} (go : State) (h : s.fatal = false) : s.unlessFatal go = go := by
  simp [State.unlessFatal, h]

@[simp] theorem State.withOperand_none {α : Type} (s : State) (go : α → State) :
    s.withOperand none go = s.raise .eRange 0 := rfl

@[simp] theorem State.withOperand_some {α : Type} (s : State) (a : α) (go : α → State) :
    s.withOperand (some a) go = go a := rfl

theorem State.withHeadroom_full {s : State} (go : State) (h : s.atMaxW = true) :
    s.withHeadroom go = s.raise .eOverflow 0 := by simp [State.withHeadroom, h]

theorem State.withHeadroom_clear {s : State} (go : State) (h : s.atMaxW = false) : s.withHeadroom go = go := by
  simp [State.withHeadroom, h]

/-! ## Operands (R62) -/

theorem symOperand_of_le {opnd : Operand} (h : opnd.toNat ≤ 255) : symOperand opnd = some (opnd.setWidth 8) := by
  simp [symOperand, h]

theorem symOperand_of_gt {opnd : Operand} (h : 255 < opnd.toNat) : symOperand opnd = none := by
  simp [symOperand, Nat.not_le.mpr h]

theorem slotOperand_of_le {opnd : Operand} (h : opnd.toNat ≤ 510) : slotOperand opnd = some (opnd.setWidth 9) := by
  simp [slotOperand, h]

theorem slotOperand_of_gt {opnd : Operand} (h : 510 < opnd.toNat) : slotOperand opnd = none := by
  simp [slotOperand, Nat.not_le.mpr h]

theorem csrOperand_of_gt {opnd : Operand} (h : 5 < opnd.toNat) : csrOperand opnd = none := by
  unfold csrOperand
  split <;> first | omega | rfl

/-! ## The ends of a tree command -/

/-- What `complete` can do: offer the response, with or without an update, or E_INTERNAL (R94, R104, R114). -/
theorem State.complete_cases (s : State) (upd : Option Symbol) (r : Response) :
    (upd = none ∧ s.complete upd r = s.offer r) ∨
    (∃ y t, upd = some y ∧ s.tree.update s.wBits y = some t ∧ s.complete upd r = { s with tree := t }.offer r) ∨
    (∃ y, upd = some y ∧ s.tree.update s.wBits y = none ∧ s.complete upd r = s.raise .eInternal 0) := by
  cases upd with
  | none => exact .inl ⟨rfl, rfl⟩
  | some y =>
    cases h : s.tree.update s.wBits y with
    | none => exact .inr (.inr ⟨y, rfl, h, by simp [State.complete, h]⟩)
    | some t => exact .inr (.inl ⟨y, t, rfl, h, by simp [State.complete, h]⟩)

/-- What `emit` can do with beats to transfer: transfer them all and complete, or wait with them offered (R60,
R154). -/
theorem State.emit_cases (s : State) {beats : List OutBeat} (upd : Option Symbol) (r : Response) (h : beats ≠ []) :
    (s.boutReady = true ∧
      s.emit beats upd r = { s with boutSent := s.boutSent ++ beats }.complete upd r) ∨
    (s.boutReady = false ∧ s.emit beats upd r = { s with phase := .emitting beats upd r }) := by
  cases beats with
  | nil => exact absurd rfl h
  | cons b bs => cases hb : s.boutReady <;> simp [State.emit, hb]

theorem toBeats_ne_nil {b : List Bool} (h : b ≠ []) : toBeats b ≠ [] := by
  cases b with
  | nil => exact absurd rfl h
  | cons x xs => cases xs <;> simp [toBeats]

/-- What `walkOn` can do: wait for a beat with every presented beat taken, complete, or raise (R110, R155). -/
theorem State.walkOn_cases (s : State) (upd : Bool) (w : Walk) :
    (∃ pos, s.tree.walkBeats s.binQ w = (.needs pos, []) ∧
      s.walkOn upd w = { s with binQ := [], phase := .walking upd pos }) ∨
    (∃ y new n rest, s.tree.walkBeats s.binQ w = (.found y new n, rest) ∧
      s.walkOn upd w = { s with binQ := rest }.complete (if upd then some y else none)
        { status := .ok, value := resultWord n new y }) ∨
    (∃ e v rest, s.tree.walkBeats s.binQ w = (.failed e v, rest) ∧
      s.walkOn upd w = { s with binQ := rest }.raise e v) := by
  have needs_nil : ∀ (bs : List InBeat) (w : Walk) (pos : TwPos) (rest : List InBeat),
      s.tree.walkBeats bs w = (.needs pos, rest) → rest = [] := by
    intro bs
    induction bs with
    | nil => intro w pos rest h; simp only [Tree.walkBeats, Prod.mk.injEq] at h; exact h.2.symm
    | cons b bs ih =>
      intro w pos rest h
      cases w with
      | needs p => exact ih _ _ _ h
      | found y new n => simp [Tree.walkBeats] at h
      | failed e v => simp [Tree.walkBeats] at h
  cases h : s.tree.walkBeats s.binQ w with
  | mk r rest =>
    cases r with
    | needs pos =>
      obtain rfl := needs_nil _ _ _ _ h
      exact .inl ⟨pos, rfl, by simp [State.walkOn, h]⟩
    | found y new n => exact .inr (.inl ⟨y, new, n, rest, rfl, by simp [State.walkOn, h]⟩)
    | failed e v => exact .inr (.inr ⟨e, v, rest, rfl, by simp [State.walkOn, h]⟩)

/-! ## The phase a command ends in does not depend on the phase it ends from (R60) -/

theorem State.offer_withPhase (s : State) (p : Phase) (r : Response) :
    ({ s with phase := p } : State).offer r = s.offer r := by
  unfold State.offer; split <;> rfl

theorem State.raise_withPhase (s : State) (p : Phase) (e : Status) (v : Word) :
    ({ s with phase := p } : State).raise e v = s.raise e v := by
  cases e <;> cases h : s.rspReady <;>
    simp [State.raise, State.recordError, State.loseTree, State.offer, Status.isFatal, h]

theorem State.complete_withPhase (s : State) (p : Phase) (upd : Option Symbol) (r : Response) :
    ({ s with phase := p } : State).complete upd r = s.complete upd r := by
  cases upd with
  | none => exact State.offer_withPhase s p r
  | some y =>
    cases h : s.tree.update s.wBits y with
    | none =>
      have e := State.raise_withPhase s p .eInternal 0
      simpa only [State.complete, h] using e
    | some t =>
      have e := State.offer_withPhase { s with tree := t } p r
      simpa only [State.complete, h] using e

theorem State.walkOn_withPhase (s : State) (p : Phase) (upd : Bool) (w : Walk) :
    ({ s with phase := p } : State).walkOn upd w = s.walkOn upd w := by
  cases h : s.tree.walkBeats s.binQ w with
  | mk a rest =>
    cases a with
    | needs pos => simp only [State.walkOn, h]
    | found y new n =>
      have e := State.complete_withPhase { s with binQ := rest } p (if upd then some y else none)
        { status := .ok, value := resultWord n new y }
      simpa only [State.walkOn, h] using e
    | failed c v =>
      have e := State.raise_withPhase { s with binQ := rest } p c v
      simpa only [State.walkOn, h] using e

/-! ## Every command and every step has a next state (R66, R141) -/

theorem exec_next (i : Instr) (s : State) : ∃ t, exec i s = .next t := by
  cases i <;> exact ⟨_, rfl⟩

theorem State.runWord_next (s : State) (w : Word) : ∃ t, s.runWord w = .next t := by
  unfold State.runWord
  split
  · exact exec_next _ s
  · exact ⟨_, rfl⟩

theorem step_next (s : State) : ∃ t, step s = .next t := by
  unfold step State.resume State.acceptCommand
  split
  · exact ⟨_, rfl⟩
  · split
    · split
      · exact ⟨_, rfl⟩
      · exact State.runWord_next _ _
    · exact ⟨_, rfl⟩
    · exact ⟨_, rfl⟩
    · exact ⟨_, rfl⟩

/-! ## The walk over the beats -/

/-- The walk over beats presented in two parts (R72, R110). -/
theorem Tree.walkBeats_append (t : Tree) (a b : List InBeat) (w : Walk) {pos : TwPos}
    (h : t.walkBeats a w = (.needs pos, [])) : t.walkBeats (a ++ b) w = t.walkBeats b (.needs pos) := by
  induction a generalizing w with
  | nil => simp only [Tree.walkBeats, Prod.mk.injEq] at h; simp [h.1]
  | cons x xs ih =>
    cases w with
    | needs p => exact ih _ h
    | found y new n => simp [Tree.walkBeats] at h
    | failed e v => simp [Tree.walkBeats] at h

end Sys2Proof.Machine
end

