-- ==== Sys2Proof/Laws/PerInstr.lean ====
section
/-!
SUPPORT. Statements about every instruction, one lemma per constructor.
-/

namespace Sys2Proof.Laws.EncodeFields

/-- The word of an instruction has its opcode in `OPC`, 0 in `RSVD` and its operand in `OPND` (R61, R63). -/
def Statement (i : Instr) : Prop :=
  opcField (encode i) = opcodeOf i ∧ rsvdField (encode i) = 0 ∧ opndField (encode i) = operandOf i

/-- The bits of a word laid out as `{a, 12'h000, o}`. -/
theorem bit_of_parts (a : BitVec 4) (o : Operand) (j : Nat) :
    BitVec.getLsbD (w := 32) ((a ++ (0 : BitVec 12)) ++ o) j =
      if j < 16 then o.getLsbD j else if j < 28 then false else a.getLsbD (j - 28) := by
  have h := BitVec.getLsbD_append (x := a ++ (0 : BitVec 12)) (y := o) (i := j)
  refine h.trans ?_
  rw [BitVec.getLsbD_append]
  by_cases h₁ : j < 16
  · simp [h₁]
  · by_cases h₂ : j < 28
    · have : j - 16 < 12 := by omega
      simp [h₁, h₂, this]
    · have h₃ : ¬ j - 16 < 12 := by omega
      have h₄ : j - 16 - 12 = j - 28 := by omega
      simp [h₁, h₂, h₃, h₄]

/-- The three fields of a word laid out as `{a, 12'h000, o}`. -/
theorem of_parts (a : BitVec 4) (o : Operand) :
    opcField ((a ++ (0 : BitVec 12)) ++ o) = a ∧ rsvdField ((a ++ (0 : BitVec 12)) ++ o) = 0 ∧
      opndField ((a ++ (0 : BitVec 12)) ++ o) = o := by
  refine ⟨BitVec.eq_of_getLsbD_eq fun i hi => ?_, BitVec.eq_of_getLsbD_eq fun i hi => ?_,
    BitVec.eq_of_getLsbD_eq fun i hi => ?_⟩
  · have h₁ : ¬ 28 + i < 16 := by omega
    have h₂ : ¬ 28 + i < 28 := by omega
    have h₃ : 28 + i - 28 = i := by omega
    simp only [opcField, BitVec.getLsbD_extractLsb', bit_of_parts, h₁, h₂, h₃, hi, if_false, decide_true,
      Bool.true_and]
  · have h₁ : ¬ 16 + i < 16 := by omega
    have h₂ : 16 + i < 28 := by omega
    simp only [rsvdField, BitVec.getLsbD_extractLsb', bit_of_parts, h₁, h₂, if_false, if_true, Bool.and_false]
    simp
  · have h₁ : 0 + i < 16 := by omega
    simp only [opndField, BitVec.getLsbD_extractLsb', bit_of_parts, h₁, hi, if_true, decide_true, Bool.true_and]
    simp

theorem nop : Statement .nop := of_parts _ _
theorem init : Statement .init := of_parts _ _
theorem encode (opnd : Operand) : Statement (.encode opnd) := of_parts _ _
theorem decode : Statement .decode := of_parts _ _
theorem update (opnd : Operand) : Statement (.update opnd) := of_parts _ _
theorem map (opnd : Operand) : Statement (.map opnd) := of_parts _ _
theorem walk : Statement .walk := of_parts _ _
theorem csrRd (opnd : Operand) : Statement (.csrRd opnd) := of_parts _ _
theorem nodeRdW (opnd : Operand) : Statement (.nodeRdW opnd) := of_parts _ _
theorem nodeRdS (opnd : Operand) : Statement (.nodeRdS opnd) := of_parts _ _

end Sys2Proof.Laws.EncodeFields
end

