-- ==== Sys2Proof/Tests/Slice0.lean ====
section
/-!
SUPPORT. The model's own tests: words written out from the opcode map, one-step vectors of spec/95_test_vectors.md,
ill-formed operands, and for every statement with hypotheses a concrete state and operands that meet them.
-/

namespace Sys2Proof.Tests

open Sys2Proof.Machine Sys2Proof.Config

-- One theorem at a time: many kernel evaluations waiting side by side would each hold a thread's stack.
set_option Elab.async false

/-! ## Helpers -/

/-- The state of an outcome that has one. -/
def stateOf : Host.Outcome State Fault Refusal → Option State
  | .next t => some t
  | .fault _ => none
  | .refused _ => none

/-- What the host has received after an outcome: the responses and the bit-out beats' bits. -/
def received (o : Host.Outcome State Fault Refusal) : Option (List Response × List Bool) :=
  (stateOf o).map fun t => (t.rspSent, t.boutSent.map OutBeat.bit)

/-- The tree after one update with symbol 1, as spec/95_test_vectors.md section 3.1 step 1 gives it. -/
def oneTree : Tree :=
  { (((Tree.fresh.modify 510 fun _ => ⟨1, .internal, 0, 509, 511⟩).modify 509 fun _ => ⟨1, .leaf, 1, 511, 510⟩).modify
      508 fun _ => ⟨0, .nyt, 0, 511, 510⟩).setSlotOf 1 509 with lo := 508 }

/-- A session in which symbol 1 has come once. -/
def oneState : State := { State.reset with tree := oneTree }

/-- A word presented to the reset state. -/
def presented (w : Word) : State := { State.reset with cmdQ := [w] }

/-! ## Decoding, from the opcode map of R63 -/

theorem test_decode_nop : decode 0b00000000000000000000000000000000 = .ok .nop := by decide
theorem test_decode_init : decode 0b00010000000000000000000000000000 = .ok .init := by decide
theorem test_decode_encode : decode 0b00100000000000000000000001000001 = .ok (.encode 65) := by decide
theorem test_decode_decode : decode 0b00110000000000000000000000000000 = .ok .decode := by decide
theorem test_decode_update : decode 0b01000000000000000000000000000001 = .ok (.update 1) := by decide
theorem test_decode_map : decode 0b01010000000000001111111111111111 = .ok (.map 65535) := by decide
theorem test_decode_walk : decode 0b01100000000000000000000000000000 = .ok .walk := by decide
theorem test_decode_csrRd : decode 0b01110000000000000000000000000101 = .ok (.csrRd 5) := by decide
theorem test_decode_nodeRdW : decode 0b10000000000000000000000111111110 = .ok (.nodeRdW 510) := by decide
theorem test_decode_nodeRdS : decode 0b10010000000000000000000111111101 = .ok (.nodeRdS 509) := by decide

/-- spec/95_test_vectors.md section 2.2: the three kinds of illegal word, each rejected by its name. -/
theorem test_decode_illegal :
    decode 0xA0000000 = .error .reservedOpcode ∧ decode 0xF0000000 = .error .reservedOpcode ∧
    decode 0x20010041 = .error .reservedBits ∧ decode 0x30000001 = .error .operandPresent := by decide

theorem test_encode_words : encode (.encode 65) = 0x20000041 ∧ encode (.nodeRdS 509) = 0x900001FD := by decide

theorem test_decodeTableWord : decodeTableWord 32 0x20000041 = some (.encode 65) ∧
    decodeTableWord 32 0xB0000000 = none := by decide

/-! ## Operands out of range (R62) -/

theorem test_sym_ill_formed : (Instr.encode 256).wellFormed = false ∧ (Instr.update 256).wellFormed = false ∧
    (Instr.map 65535).wellFormed = false := by decide
theorem test_slot_ill_formed : (Instr.nodeRdW 511).wellFormed = false ∧ (Instr.nodeRdS 511).wellFormed = false := by
  decide
theorem test_csr_ill_formed : (Instr.csrRd 6).wellFormed = false := by decide
theorem test_well_formed : (Instr.encode 255).wellFormed = true ∧ (Instr.nodeRdW 510).wellFormed = true ∧
    (Instr.csrRd 5).wellFormed = true := by decide

/-! ## One step (vectors of spec/95_test_vectors.md) -/

/-- Section 2.1. -/
theorem test_step_nop : received (step (presented 0x00000000)) = some ([⟨.ok, 0⟩], []) := by decide +kernel

/-- Section 2.2. -/
theorem test_step_illegal : received (step (presented 0xF0000000)) = some ([⟨.eIllegal, 0⟩], []) := by decide +kernel

/-- Rule R130: INIT after a symbol gives the reset tree and clears `FATAL`. -/
theorem test_step_init : (stateOf (exec .init { oneState with fatal := true, fatalCause := 4 })).map
    (fun t => (t.tree.node 510, t.tree.node 509, t.tree.lo, t.fatal, t.fatalCause)) =
    some (⟨0, .nyt, 0, 511, 511⟩, ⟨0, .unused, 0, 511, 511⟩, 510, false, 0) := by decide +kernel

/-- Section 1.1 step 1. -/
theorem test_step_encode_first : received (step (presented 0x20000041)) =
    some ([⟨.ok, 0x00010608⟩], [false, true, false, false, false, false, false, true]) := by decide +kernel

/-- Section 3.1 step 2: ENCODE 2 after 1. -/
theorem test_step_encode_second : received (exec (.encode 2) oneState) =
    some ([⟨.ok, 0x00000A09⟩], [false, false, false, false, false, false, false, true, false]) := by decide +kernel

/-- Section 3.1 step 1, as UPDATE. -/
theorem test_step_update : (stateOf (step (presented 0x40000001))).map
    (fun t => ([t.tree.node 510, t.tree.node 509, t.tree.node 508], t.rspSent)) =
    some ([⟨1, .internal, 0, 509, 511⟩, ⟨1, .leaf, 1, 511, 510⟩, ⟨0, .nyt, 0, 511, 510⟩], [⟨.ok, 0x00000600⟩]) := by
  decide +kernel

/-- Section 3.1 step 2, the tree: the INTERNAL node slides past the leaf, the new leaf is deferred. -/
theorem test_step_update_slides : (stateOf (exec (.update 2) oneState)).map (fun t =>
    [t.tree.node 510, t.tree.node 509, t.tree.node 508, t.tree.node 507, t.tree.node 506]) =
    some [⟨2, .internal, 0, 509, 511⟩, ⟨1, .internal, 0, 507, 510⟩, ⟨1, .leaf, 1, 511, 510⟩, ⟨1, .leaf, 2, 511, 509⟩,
      ⟨0, .nyt, 0, 511, 509⟩] := by decide +kernel

/-- Section 2.1. -/
theorem test_step_map : received (step (presented 0x50000041)) =
    some ([⟨.ok, 0x00010608⟩], [false, true, false, false, false, false, false, true]) := by decide +kernel

/-- Section 1.1 step 4, on symbol 1: the bit `1`. -/
theorem test_step_decode : (stateOf (exec .decode { oneState with binQ := dataBeats [true] })).map
    (fun t => (t.rspSent, t.tree.total, t.binQ)) = some ([⟨.ok, 0x00000401⟩], 2, []) := by decide +kernel

/-- Section 4.5, first row. -/
theorem test_step_decode_truncated : (stateOf (exec .decode { State.reset with binQ := [⟨true, false⟩] })).map
    (fun t => (t.rspSent, t.fatal, t.fatalCause)) = some ([⟨.eTruncated, 0x00000200⟩], true, 4) := by decide +kernel

/-- Section 2.1. -/
theorem test_step_walk : (stateOf (exec .walk
    { State.reset with binQ := dataBeats [false, true, false, false, false, false, false, true] })).map
    (fun t => (t.rspSent, t.tree.nodeCount)) = some ([⟨.ok, 0x00010608⟩], 1) := by decide +kernel

/-- Section 4.6, on symbol 1: an escape that names it. -/
theorem test_step_walk_stream : (stateOf (exec .walk
    { oneState with binQ := dataBeats (false :: raw8 1) })).map
    (fun t => (t.rspSent, t.fatalCause)) = some ([⟨.eStream, 0x00000609⟩], 5) := by decide +kernel

/-- Section 2.1: STATUS of a fresh instance. -/
theorem test_step_csr_status : received (step (presented 0x70000001)) = some ([⟨.ok, 0x00000006⟩], []) := by
  decide +kernel

/-- Section 2.1: ID with `W_BITS` = 32. -/
theorem test_step_csr_id : received (step (presented 0x70000000)) = some ([⟨.ok, 0x41480120⟩], []) := by
  decide +kernel

/-- Section 6.3, on symbol 1 come once. -/
theorem test_step_nodeRdW : received (exec (.nodeRdW 509) oneState) = some ([⟨.ok, 1⟩], []) := by decide +kernel

/-- Section 6.3: NODE_RD_S 510 after "A". -/
theorem test_step_nodeRdS : received (exec (.nodeRdS 510) oneState) = some ([⟨.ok, 0x0FEFFC01⟩], []) := by
  decide +kernel

/-- Section 2.1: an UNUSED slot. -/
theorem test_step_nodeRdS_unused : received (step (presented 0x90000000)) = some ([⟨.ok, 0x0FFFFC00⟩], []) := by
  decide +kernel

/-- The word given to `withFetchWord` is the one the next step runs. -/
theorem test_withFetchWord : received (step (State.reset.withFetchWord 32 0x70000005)) =
    some ([⟨.ok, 0x000001FE⟩], []) := by decide +kernel

/-- Rule R154: with `bout_ready` low, MAP waits with its beats offered and no response. -/
theorem test_map_waits : (stateOf (exec (.map 1) { oneState with boutReady := false })).map
    (fun t => (t.beatOffered, t.rspOffered, t.rspSent, t.cmdReady)) = some (some ⟨true, true⟩, none, [], false) := by
  decide +kernel

/-- Rule R73: mnemonics in any letter case, character literals, comments. -/
theorem test_assemble_char : assembleLine ['e', 'n', 'C', 'o', 'd', 'e', ' ', '\'', 'A', '\'', ';', 'x'] =
    .ok (some 0x20000041) := by decide

/-- Rule R73: an operand out of its range assembles; one above 65535 does not. -/
theorem test_assemble_number :
    assembleLine ['M', 'A', 'P', ' ', '0', 'x', 'F', 'f', 'f', 'F'] = .ok (some 0x5000FFFF) ∧
    assembleLine ['M', 'A', 'P', ' ', '6', '5', '5', '3', '6'] = .error .operandTooLarge := by decide

/-! ## A well-formed tree -/

theorem oneTree_node (i : Slot) : oneTree.node i =
    if i = 508 then ⟨0, .nyt, 0, 511, 510⟩ else if i = 509 then ⟨1, .leaf, 1, 511, 510⟩
    else if i = 510 then ⟨1, .internal, 0, 509, 511⟩ else Node.empty := by
  unfold oneTree
  rw [Tree.node_withLo, Tree.node_setSlotOf]
  simp only [Tree.node_modify, Tree.fresh_node]
  by_cases h₁ : i = 508
  · subst h₁; rfl
  by_cases h₂ : i = 509
  · subst h₂; rfl
  by_cases h₃ : i = 510
  · subst h₃; rfl
  have h₄ : i ≠ root := h₃
  rw [if_neg (fun h => h₁ h.1.symm), if_neg (fun h => h₂ h.1.symm), if_neg (fun h => h₃ h.1.symm), if_neg h₄,
    if_neg h₁, if_neg h₂, if_neg h₃]

theorem oneTree_slotOfSym (y : Symbol) : oneTree.slotOfSym y = if y = 1 then 509 else noSlot := by
  unfold oneTree
  rw [Tree.slotOfSym_withLo]
  simp only [Tree.slotOfSym_setSlotOf, Tree.slotOfSym_modify, Tree.fresh_slotOfSym, eq_comm]

/-- A slot of `oneTree` is one of its three nodes or UNUSED below them. -/
theorem oneTree_slots (i : Slot) (h : i.toNat ≤ 510) :
    (i = 508 ∧ oneTree.node i = ⟨0, .nyt, 0, 511, 510⟩) ∨ (i = 509 ∧ oneTree.node i = ⟨1, .leaf, 1, 511, 510⟩) ∨
    (i = 510 ∧ oneTree.node i = ⟨1, .internal, 0, 509, 511⟩) ∨ (i.toNat < 508 ∧ oneTree.node i = Node.empty) := by
  rw [oneTree_node]
  by_cases h₁ : i = 508
  · subst h₁; exact .inl ⟨rfl, rfl⟩
  by_cases h₂ : i = 509
  · subst h₂; exact .inr (.inl ⟨rfl, rfl⟩)
  by_cases h₃ : i = 510
  · subst h₃; exact .inr (.inr (.inl ⟨rfl, rfl⟩))
  refine .inr (.inr (.inr ⟨?_, by rw [if_neg h₁, if_neg h₂, if_neg h₃]⟩))
  have e₁ : i.toNat ≠ 508 := fun e => h₁ (BitVec.eq_of_toNat_eq e)
  have e₂ : i.toNat ≠ 509 := fun e => h₂ (BitVec.eq_of_toNat_eq e)
  have e₃ : i.toNat ≠ 510 := fun e => h₃ (BitVec.eq_of_toNat_eq e)
  omega

theorem oneTree_wellFormed : oneTree.WellFormed w32 := by
  have e508 : oneTree.node 508 = ⟨0, .nyt, 0, 511, 510⟩ := oneTree_node 508
  have e509 : oneTree.node 509 = ⟨1, .leaf, 1, 511, 510⟩ := oneTree_node 509
  have e510 : oneTree.node 510 = ⟨1, .internal, 0, 509, 511⟩ := oneTree_node 510
  have lo : oneTree.lo = 508 := rfl
  constructor
  case loEven => decide
  case used =>
    intro i hi
    rcases oneTree_slots i hi with ⟨rfl, h⟩ | ⟨rfl, h⟩ | ⟨rfl, h⟩ | ⟨hl, h⟩ <;> rw [h, lo]
    · decide
    · decide
    · decide
    · exact ⟨fun _ => hl, fun _ => rfl⟩
  case canonical =>
    intro i hi
    rcases oneTree_slots i hi with ⟨rfl, h⟩ | ⟨rfl, h⟩ | ⟨rfl, h⟩ | ⟨hl, h⟩ <;> rw [h]
    · exact ⟨rfl, rfl, rfl⟩
    · exact (rfl : (511 : Slot) = noSlot)
    · exact (rfl : (0 : Symbol) = 0)
    · exact (rfl : Node.empty = Node.empty)
  case fits =>
    intro i
    rw [oneTree_node]
    split_ifs <;> decide
  case children =>
    intro i hi hk
    rcases oneTree_slots i hi with ⟨rfl, h⟩ | ⟨rfl, h⟩ | ⟨rfl, h⟩ | ⟨hl, h⟩ <;> rw [h] at hk ⊢
    · cases hk
    · cases hk
    · exact ⟨by decide, by decide, by decide, by rw [e509], by rw [show (509 : Slot) - 1 = 508 from rfl, e508]⟩
    · cases hk
  case rootParent => exact congrArg Node.parent e510
  case parents =>
    intro i hi hr
    rcases oneTree_slots i hi.2 with ⟨rfl, h⟩ | ⟨rfl, h⟩ | ⟨rfl, h⟩ | ⟨hl, h⟩
    · rw [h, e510]; decide
    · rw [h, e510]; decide
    · exact absurd rfl hr
    · exact absurd hi.1 (Nat.not_le.mpr hl)
  case childrenInOrder =>
    intro p q hpq hq hp hk
    rcases oneTree_slots p (by omega) with ⟨rfl, h⟩ | ⟨rfl, h⟩ | ⟨rfl, h⟩ | ⟨hl, h⟩ <;> rw [h] at hp
    · cases hp
    · cases hp
    · exact absurd hpq (Nat.not_lt.mpr hq)
    · cases hp
  case ordered =>
    intro i j hi hj hij
    rcases oneTree_slots i hi.2 with ⟨rfl, h⟩ | ⟨rfl, h⟩ | ⟨rfl, h⟩ | ⟨hl, h⟩ <;>
      rcases oneTree_slots j hj.2 with ⟨rfl, h'⟩ | ⟨rfl, h'⟩ | ⟨rfl, h'⟩ | ⟨hl', h'⟩ <;>
      first
      | (rw [h, h']; decide)
      | exact absurd hij (by decide)
      | exact absurd hi.1 (Nat.not_le.mpr hl)
      | exact absurd hj.1 (Nat.not_le.mpr hl')
  case sums =>
    intro i hi hk
    rcases oneTree_slots i hi with ⟨rfl, h⟩ | ⟨rfl, h⟩ | ⟨rfl, h⟩ | ⟨hl, h⟩ <;> rw [h] at hk ⊢
    · cases hk
    · cases hk
    · rw [show (509 : Slot) - 1 = 508 from rfl, e509, e508]; rfl
    · cases hk
  case leafWeight =>
    intro i hi hk
    rcases oneTree_slots i hi with ⟨rfl, h⟩ | ⟨rfl, h⟩ | ⟨rfl, h⟩ | ⟨hl, h⟩ <;> rw [h] at hk ⊢
    · cases hk
    · decide
    · cases hk
    · cases hk
  case nytAtLo => intro _; rw [lo, e508]
  case nytOnly =>
    intro i hi hk
    rcases oneTree_slots i hi with ⟨rfl, h⟩ | ⟨rfl, h⟩ | ⟨rfl, h⟩ | ⟨hl, h⟩ <;> rw [h] at hk
    · exact ⟨rfl, lo.symm⟩
    · cases hk
    · cases hk
    · cases hk
  case fullWithoutNyt => intro h; cases h
  case slotOfLeaf =>
    intro i hi hk
    rcases oneTree_slots i hi with ⟨rfl, h⟩ | ⟨rfl, h⟩ | ⟨rfl, h⟩ | ⟨hl, h⟩ <;> rw [h] at hk ⊢
    · cases hk
    · exact oneTree_slotOfSym 1
    · cases hk
    · cases hk
  case leafOfSlot =>
    intro y
    rw [oneTree_slotOfSym]
    by_cases hy : y = 1
    · subst hy
      refine .inr ?_
      rw [if_pos rfl, e509]
      decide
    · exact .inl (if_neg hy)
  case seenCounts => decide +kernel

theorem oneState_sound : oneState.Sound :=
  ⟨oneTree_wellFormed, rfl, by decide, trivial⟩

theorem oneState_consistent : oneState.Consistent :=
  ⟨oneTree_wellFormed.fits, rfl, (fun _ _ h => by cases h), (fun _ _ _ h => by cases h)⟩

/-! ## The hypotheses of each statement are met

Each theorem below is named for the statement whose hypotheses it shows to hold together; where a statement has several
clauses, one case for each, at the ends of its range. -/

/-- A state in which symbol 1 has come once and ENCODE 1 is presented. -/
def busyState : State := { oneState with cmdQ := [0x20000001] }

theorem busyState_sound : busyState.Sound := ⟨oneTree_wellFormed, rfl, by decide, trivial⟩

theorem busyState_consistent : busyState.Consistent :=
  ⟨oneTree_wellFormed.fits, rfl, (fun _ _ h => by cases h), (fun _ _ _ h => by cases h)⟩

/-- A state in which symbol 1 has come once and E_TRUNCATED has been raised. -/
def fatalState : State := { oneState with fatal := true, fatalCause := 4 }

/-- Two leaves of equal weight beside each other, for the primitive moves. -/
def leafPair : Tree :=
  (Tree.fresh.modify 508 fun _ => ⟨1, .leaf, 1, 511, 511⟩).modify 509 fun _ => ⟨1, .leaf, 2, 511, 511⟩

/-- 256 symbols seen. -/
def fullTree : Tree := { Tree.fresh with slotOf := Vector.replicate 256 0, lo := 0, nytp := false }

theorem witness_ResultWordIsTheShiftedFields : (0 : Nat) < 512 ∧ 511 < 512 := by decide

theorem witness_StepRunsTheDecodedCommand :
    (presented 0x20000041).rst = false ∧ (presented 0x20000041).phase = .idle ∧
    (presented 0x20000041).cmdQ = 0x20000041 :: [] ∧ decode 0x20000041 = .ok (.encode 65) :=
  ⟨rfl, rfl, rfl, by decide⟩

theorem witness_IllegalWordCompletesWithEIllegal :
    (presented 0xA0000000).rst = false ∧ (presented 0xA0000000).phase = .idle ∧
    (presented 0xA0000000).cmdQ = 0xA0000000 :: [] ∧
    IllegalWord 0xA0000000 ∧ IllegalWord 0x20010000 ∧ IllegalWord 0x60000001 ∧ ¬ IllegalWord 0x9000FFFF :=
  ⟨rfl, rfl, rfl, by unfold IllegalWord; decide, by unfold IllegalWord; decide, by unfold IllegalWord; decide,
    by unfold IllegalWord; decide⟩

theorem witness_ResponseTransfersOrWaits :
    State.reset.rspReady = true ∧ ({ State.reset with rspReady := false } : State).rspReady = false ∧
    ({ State.reset with rspReady := false } : State).rst = false := ⟨rfl, rfl, rfl⟩

/-- NOP answers at once; WALK with no beat presented waits. -/
theorem witness_EveryAcceptedWordAnswersOnceOrWaits :
    (presented 0).rst = false ∧ (presented 0).phase = .idle ∧ (presented 0).cmdQ = 0 :: [] ∧
    (presented 0).rspReady = true ∧ (presented 0).boutReady = true ∧
    received (step (presented 0)) = some ([⟨.ok, 0⟩], []) ∧
    (presented 0x60000000).cmdQ = 0x60000000 :: [] ∧
    (stateOf (step (presented 0x60000000))).map (fun t => (t.phase, t.rspSent)) =
      some (.walking false (.raw 0 8 0), []) :=
  ⟨rfl, rfl, rfl, rfl, rfl, by decide +kernel, rfl, by decide +kernel⟩

theorem witness_WaitsRepeatTheState :
    State.reset.rst = false ∧ State.reset.phase = .idle ∧ State.reset.cmdQ = [] ∧
    ({ State.reset with phase := .walking true (.raw 0 8 0) } : State).binQ = [] ∧
    ({ State.reset with phase := .emitting [⟨true, true⟩] none ⟨.ok, 0⟩, boutReady := false } : State).boutReady =
      false ∧
    ({ State.reset with phase := .responding ⟨.ok, 0⟩, rspReady := false } : State).rspReady = false :=
  ⟨rfl, rfl, rfl, rfl, rfl, rfl⟩

theorem witness_OutputsFollowThePhase :
    State.reset.rst = false ∧ State.reset.phase = .idle ∧
    ({ State.reset with phase := .walking true (.raw 0 8 0) } : State).phase = .walking true (.raw 0 8 0) ∧
    ({ State.reset with phase := .emitting [⟨true, true⟩] none ⟨.ok, 0⟩ } : State).phase =
      .emitting [⟨true, true⟩] none ⟨.ok, 0⟩ ∧
    ({ State.reset with phase := .responding ⟨.ok, 0⟩ } : State).phase = .responding ⟨.ok, 0⟩ :=
  ⟨rfl, rfl, rfl, rfl, rfl⟩

/-- Reset in the middle of an ENCODE and after a fatal error. -/
theorem witness_ResetGivesTheResetState :
    ({ fatalState with rst := true } : State).rst = true ∧
    ({ oneState with rst := true, phase := .emitting [⟨true, true⟩] (some 1) ⟨.ok, 0⟩ } : State).rst = true :=
  ⟨rfl, rfl⟩

theorem witness_NopOnlyResponds :
    (presented 0x00010000).rst = false ∧ (presented 0x00010000).phase = .idle ∧
    (presented 0x00010000).cmdQ = 0x00010000 :: [] ∧ opcField 0x00010000 = 0 ∧ rsvdField 0x00010000 ≠ 0 ∧
    opcField 0x00000001 = 0 ∧ opndField 0x00000001 ≠ 0 ∧ opcField 0 = 0 ∧ rsvdField 0 = 0 ∧ opndField 0 = 0 :=
  ⟨rfl, rfl, rfl, by decide, by decide, by decide, by decide, by decide, by decide, by decide⟩

theorem witness_CsrReadsAnswerTheirFormulas :
    (presented 0x70010001).rst = false ∧ (presented 0x70010001).phase = .idle ∧
    (presented 0x70010001).cmdQ = 0x70010001 :: [] ∧ opcField 0x70010001 = 7 ∧ rsvdField 0x70010001 ≠ 0 ∧
    opcField 0x70000005 = 7 ∧ rsvdField 0x70000005 = 0 ∧
    State.reset.tree.lo.toNat ≤ 510 ∧ State.reset.tree.lo.toNat % 2 = 0 ∧ fullTree.lo.toNat ≤ 510 ∧
    fullTree.lo.toNat % 2 = 0 ∧
    5 < (6 : Operand).toNat ∧ 5 < (0xFFFF : Operand).toNat :=
  ⟨rfl, rfl, rfl, by decide, by decide, by decide, by decide, by decide, by decide, by decide, by decide, by decide,
    by decide⟩

theorem witness_NodeReadAnswersTheWeight : 510 < (511 : Operand).toNat ∧ 510 < (0xFFFF : Operand).toNat := by decide

theorem witness_NodeReadAnswersTheStructure : 510 < (511 : Operand).toNat ∧ 510 < (0xFFFF : Operand).toNat := by
  decide

theorem witness_NodeReadsDetermineTheTree :
    oneTree.WellFormed w32 ∧ oneTree.WellFormed w32 ∧ ∀ i : Slot, i.toNat ≤ 510 →
      (oneTree.node i).weight = (oneTree.node i).weight ∧ nodeSWord (oneTree.node i) = nodeSWord (oneTree.node i) :=
  ⟨oneTree_wellFormed, oneTree_wellFormed, fun _ _ => ⟨rfl, rfl⟩⟩

theorem witness_OutOfRangeOperandIsERange :
    oneState.fatal = false ∧ 255 < (256 : Operand).toNat ∧ 510 < (511 : Operand).toNat ∧ 5 < (6 : Operand).toNat :=
  ⟨rfl, by decide, by decide, by decide⟩

theorem witness_FatalRefusesExactlyTheTreeCommands :
    fatalState.fatal = true ∧ (5 : Operand).toNat ≤ 5 ∧ (510 : Operand).toNat ≤ 510 := ⟨rfl, by decide, by decide⟩

theorem witness_NoHeadroomIsEOverflow :
    ({ oneState with tree := oneTree.setWeight root 0xFFFFFFFF } : State).fatal = false ∧
    (({ oneState with tree := oneTree.setWeight root 0xFFFFFFFF } : State).tree.node root).weight.toNat =
      2 ^ ({ oneState with tree := oneTree.setWeight root 0xFFFFFFFF } : State).wBits.bits - 1 ∧
    (255 : Operand).toNat ≤ 255 := ⟨rfl, by decide +kernel, by decide⟩

/-- The stream ends in the raw bits, and before the first bit. -/
theorem witness_TruncatedStreamIsFatal :
    ({ State.reset with binQ := dataBeats [false, false, true] ++ ⟨true, false⟩ :: [] } : State).fatal = false ∧
    State.reset.tree.walkBeats (dataBeats [false, false, true]) (State.reset.tree.enterSlot root 0) =
      (.needs (.raw 1 5 3), []) ∧
    ((∃ i n, TwPos.raw 1 5 3 = .descend i n) ∧ true = false ∨
      (∃ v left n, TwPos.raw 1 5 3 = .raw v left n) ∧ true = true) ∧
    State.reset.atMaxW = false ∧
    oneState.tree.walkBeats (dataBeats []) (oneState.tree.enterSlot root 0) = (.needs (.descend 510 0), []) ∧
    ((∃ i n, TwPos.descend 510 0 = .descend i n) ∧ false = false ∨
      (∃ v left n, TwPos.descend 510 0 = .raw v left n) ∧ false = true) ∧
    oneState.atMaxW = false :=
  ⟨rfl, by decide +kernel, .inr ⟨⟨1, 5, 3, rfl⟩, rfl⟩, by decide +kernel, by decide +kernel, .inl ⟨⟨510, 0, rfl⟩, rfl⟩,
    by decide +kernel⟩

theorem witness_EscapeOfASeenSymbolIsFatal :
    ({ oneState with binQ := dataBeats ([false] ++ raw8 1) ++ [] } : State).fatal = false ∧
    oneState.tree.WellFormed oneState.wBits ∧ oneState.tree.nytp = true ∧ oneState.tree.slotOfSym 1 ≠ noSlot ∧
    oneState.tree.codeword oneState.tree.lo = some [false] ∧ oneState.atMaxW = false :=
  ⟨rfl, oneTree_wellFormed, rfl, by decide +kernel, by decide +kernel, by decide +kernel⟩

/-- The NYT's slot is still the root, and symbol 1 has a leaf below it: an update slides that leaf past its parent. -/
def slidTree : Tree := (Tree.fresh.modify 509 fun _ => ⟨1, .leaf, 1, 511, 510⟩).setSlotOf 1 509

/-- No NYT, and no symbol seen. -/
def lostNyt : Tree := { Tree.fresh with nytp := false }

/-- The root is UNUSED. -/
def noRoot : Tree := Tree.fresh.modify 510 fun _ => Node.empty

/-- UPDATE and ENCODE by IC2, the same ENCODE after waiting, DECODE by IC1 after its walk, MAP and ENCODE by IC1 in the
mapper, WALK and DECODE by IC6. -/
theorem witness_FailedCheckLeavesADraw :
    ({ State.reset with tree := slidTree } : State).fatal = false ∧ (1 : Operand).toNat ≤ 255 ∧
    ({ State.reset with tree := slidTree } : State).atMaxW = false ∧
    slidTree.update w32 ((1 : Operand).setWidth 8) = none ∧ slidTree.mapBits ((1 : Operand).setWidth 8) = some [true] ∧
    State.reset.boutReady = true ∧ State.reset.rst = false ∧
    ({ State.reset with tree := lostNyt } : State).atMaxW = false ∧
    lostNyt.walkBeats (dataBeats (raw8 1)) (lostNyt.enterSlot root 0) = (.found 1 true 8, []) ∧
    lostNyt.update w32 1 = none ∧ lostNyt.mapBits ((255 : Operand).setWidth 8) = none ∧
    ({ State.reset with tree := noRoot } : State).atMaxW = false ∧
    noRoot.walkBeats [] (noRoot.enterSlot root 0) = (.failed .eInternal 0, []) :=
  ⟨rfl, by decide, by decide +kernel, by decide +kernel, by decide +kernel, rfl, rfl, by decide +kernel,
    by decide +kernel, by decide +kernel, by decide +kernel, by decide +kernel, by decide +kernel⟩

/-- IC1, IC2 (the parent is the next slot up), IC3, IC4 (`SLOT_OF` at an UNUSED slot), IC5 (an unused slot, no parent; also
as the slot of a symbol and as `LO`), IC6. -/
theorem witness_DefensiveChecksFail :
    lostNyt.slotOfSym 1 = noSlot ∧ lostNyt.nytp = false ∧
    (slidTree.node 509).weight.toNat < 2 ^ w32.bits - 1 ∧ (509 : Slot).toNat < (slidTree.node 509).parent.toNat ∧
    (slidTree.node 509).parent.toNat ≤ 510 ∧
    (∀ k : Slot, (509 : Slot).toNat < k.toNat → k.toNat ≤ (slidTree.node 509).parent.toNat →
      slidTree.StandsBelow k ((slidTree.node 509).weight.toNat + 1) (decide ((slidTree.node 509).kind = .internal))) ∧
    (slidTree.node 510).kind ≠ .leaf ∧ (slidTree.node 510).kind ≠ .internal ∧
    (slidTree.setSlotOf 2 508).slotOfSym 2 = 508 ∧ ((slidTree.setSlotOf 2 508).node 508).kind ≠ .leaf ∧
    (∀ k ≤ 0, (fun j => ((slidTree.setSlotOf 2 508).node j).parent)^[k] 508 ≠ root) ∧
    ((slidTree.setSlotOf 2 508).node ((fun j => ((slidTree.setSlotOf 2 508).node j).parent)^[0] 508)).parent = noSlot ∧
    ({ slidTree with lo := 508 } : Tree).slotOfSym 3 = noSlot ∧ (noRoot.node root).kind = .unused := by
  refine ⟨by decide +kernel, rfl, by decide +kernel, by decide +kernel, by decide +kernel, ?_, by decide +kernel,
    by decide +kernel, by decide +kernel, by decide +kernel, ?_, by decide +kernel, by decide +kernel, by decide +kernel⟩
  · have e : (slidTree.node 509).parent = 510 := by decide +kernel
    intro k h₁ h₂
    rw [e] at h₂
    obtain rfl : k = 510 := BitVec.eq_of_toNat_eq (Nat.le_antisymm h₂ h₁)
    refine .inl ?_
    decide +kernel
  · intro k hk
    obtain rfl : k = 0 := Nat.le_zero.mp hk
    decide

theorem witness_OnlyInitClearsFatal :
    fatalState.fatal = true ∧ Instr.encode 1 ≠ .init ∧ ∃ t, exec (.encode 1) fatalState = .next t :=
  ⟨rfl, by decide, _, rfl⟩

theorem witness_FirstUpdateBuildsTheThreeNodeTree :
    State.reset.tree = Tree.fresh ∧ State.reset.fatal = false ∧ (0 : Operand).toNat ≤ 255 ∧
    (255 : Operand).toNat ≤ 255 := ⟨rfl, rfl, by decide, by decide⟩

/-- Split at the first symbol and at the last (`LO` = 510 and 2), Absorb at `LO` = 0, and a seen symbol whose run ends above
it. -/
theorem witness_UpdateStartsAsTheRulesSay :
    Tree.fresh.slotOfSym 1 = noSlot ∧ Tree.fresh.nytp = true ∧ 2 ≤ Tree.fresh.lo.toNat ∧ Tree.fresh.lo.toNat ≤ 510 ∧
    ({ Tree.fresh with lo := 2 } : Tree).slotOfSym 1 = noSlot ∧ 2 ≤ ({ Tree.fresh with lo := 2 } : Tree).lo.toNat ∧
    ({ Tree.fresh with lo := 0 } : Tree).slotOfSym 1 = noSlot ∧ ({ Tree.fresh with lo := 0 } : Tree).nytp = true ∧
    (leafPair.setSlotOf 1 508).slotOfSym 1 = 508 ∧ (508 : Slot).toNat ≤ (509 : Slot).toNat ∧
    (509 : Slot).toNat ≤ 510 ∧ (leafPair.node 508).sym = 1 ∧ (leafPair.node 508).child = noSlot ∧
    (leafPair.node 509).child = noSlot ∧
    (∀ k : Slot, (508 : Slot).toNat ≤ k.toNat → k.toNat ≤ (509 : Slot).toNat →
      (leafPair.node k).kind = .leaf ∧ (leafPair.node k).weight = (leafPair.node 508).weight) ∧
    (leafPair.node (509 + 1)).kind ≠ .leaf := by
  refine ⟨by decide +kernel, rfl, by decide, by decide, by decide +kernel, by decide, by decide +kernel, rfl,
    by decide +kernel, by decide, by decide, by decide +kernel, by decide +kernel, by decide +kernel, ?_,
    by decide +kernel⟩
  intro k h₁ h₂
  have h₃ : k.toNat = 508 ∨ k.toNat = 509 := by
    have e₁ : (508 : Slot).toNat = 508 := rfl
    have e₂ : (509 : Slot).toNat = 509 := rfl
    omega
  rcases h₃ with h | h
  · obtain rfl : k = 508 := BitVec.eq_of_toNat_eq h
    decide +kernel
  · obtain rfl : k = 509 := BitVec.eq_of_toNat_eq h
    decide +kernel

/-- The seen symbol whose run ends at the NYT's sibling: symbol 1 come once is deferred. -/
theorem witness_UpdateStartsAsTheRulesSay_deferred :
    oneTree.slotOfSym 1 = 509 ∧ (oneTree.node 509).sym = 1 ∧ (oneTree.node 509).kind = .leaf ∧
    (oneTree.node 509).child = noSlot ∧ (oneTree.node (509 + 1)).kind ≠ .leaf ∧ oneTree.nytp = true ∧
    (509 : Slot).toNat = oneTree.lo.toNat + 1 := by decide +kernel

theorem witness_UpdateIsTheChainAndTheDeferredStep : ∃ t', oneTree.update w32 1 = some t' :=
  Option.isSome_iff_exists.mp (by decide +kernel)

theorem witness_LeaderIsTheTopOfTheRun :
    (508 : Slot).toNat ≤ 510 ∧ leafPair.leader 508 = 509 ∧ (leafPair.leader 508).toNat < 510 ∧
    (510 : Slot).toNat ≤ 510 ∧ leafPair.leader 510 = 510 := by decide +kernel

theorem witness_SwapLeavesExchangesTheSymbols :
    (508 : Slot) ≠ 509 ∧ (leafPair.node 508).kind = .leaf ∧ (leafPair.node 509).kind = .leaf ∧
    (leafPair.node 508).weight = (leafPair.node 509).weight ∧ (leafPair.node 508).child = noSlot ∧
    (leafPair.node 509).child = noSlot := by decide +kernel

theorem witness_RotateShiftsTheContents :
    (508 : Slot).toNat ≤ (509 : Slot).toNat ∧ (509 : Slot).toNat ≤ 510 ∧ (∃ t', leafPair.rotate 508 509 = some t') ∧
    ∃ t', leafPair.rotate 510 510 = some t' :=
  ⟨by decide, by decide, Option.isSome_iff_exists.mp (by decide +kernel), Option.isSome_iff_exists.mp (by decide +kernel)⟩

/-- Slides to the top, over a lower weight and, for an INTERNAL node, over a leaf of the same weight; and one that
stays. -/
theorem witness_SlidePassesExactlyTheLowerKeys :
    (508 : Slot).toNat ≤ 510 ∧ leafPair.slideFrom 508 2 (if false then 1 else 0) 511 508 = some 510 ∧
    leafPair.slideFrom 508 1 (if true then 1 else 0) 511 508 = some 510 ∧
    leafPair.slideFrom 508 1 (if false then 1 else 0) 511 508 = some 508 := by decide +kernel

/-- An INTERNAL node of a leaf's weight, to be passed: in `rivalTree` leaf 508 of weight 1 is below INTERNAL 509 of weight
1. -/
def rivalTree : Tree :=
  ((Tree.fresh.modify 508 fun _ => ⟨1, .leaf, 1, 511, 510⟩).modify 509 fun _ => ⟨1, .internal, 0, 507, 510⟩).modify 510
    fun _ => ⟨2, .internal, 0, 509, 511⟩

/-- A leaf that slides past an INTERNAL node, and an INTERNAL node that stays. -/
theorem witness_SlideAndIncrementMovesTheNode :
    (508 : Slot).toNat ≤ 510 ∧ (rivalTree.node 508).weight.toNat < 2 ^ w32.bits - 1 ∧
    (rivalTree.slideAndIncrement w32 508).map (fun r => ((r.1.node 509).kind, r.2)) = some (.leaf, 510) ∧
    (rivalTree.node 510).weight.toNat < 2 ^ w32.bits - 1 ∧
    (rivalTree.slideAndIncrement w32 510).map (fun r => ((r.1.node 510).weight, r.2)) = some (3, noSlot) := by
  decide +kernel

theorem oneTree_headroom : (oneTree.node root).weight.toNat < 2 ^ w32.bits - 1 := by decide +kernel

theorem witness_UpdateKeepsTheTreeWellFormed :
    oneTree.WellFormed w32 ∧ (oneTree.node root).weight.toNat < 2 ^ w32.bits - 1 :=
  ⟨oneTree_wellFormed, oneTree_headroom⟩

/-- A symbol seen, and one unseen. -/
theorem witness_UpdateCountsOneSymbol :
    oneTree.WellFormed w32 ∧ (oneTree.node root).weight.toNat < 2 ^ w32.bits - 1 ∧
    (∃ t', oneTree.update w32 1 = some t') ∧ oneTree.isNew 1 = false ∧
    (∃ t', oneTree.update w32 2 = some t') ∧ oneTree.isNew 2 = true :=
  ⟨oneTree_wellFormed, oneTree_headroom, Option.isSome_iff_exists.mp (by decide +kernel), by decide +kernel,
    Option.isSome_iff_exists.mp (by decide +kernel), by decide +kernel⟩

theorem witness_UpdateCompletes :
    oneState.tree.WellFormed oneState.wBits ∧ oneState.fatal = false ∧ (255 : Operand).toNat ≤ 255 ∧
    oneState.atMaxW = false := ⟨oneTree_wellFormed, rfl, by decide, by decide +kernel⟩

theorem witness_WeightsCountTheStream : [(1 : Symbol)].length < 2 ^ w9.bits ∧
    (List.replicate 511 (1 : Symbol)).length < 2 ^ w9.bits := by
  rw [List.length_replicate]; decide

theorem witness_LastFlagMarksTheFinalBeat : [true] ≠ [] := by decide

theorem witness_FullAlphabetNeverEscapes :
    fullTree.slotOf.countP (fun i => i != noSlot) = fullTree.seenCount ∧ fullTree.seenCount = 256 := by decide +kernel

/-- The slots in use that are not `ROOT` are 508 and 509; symbol 1 is seen, symbol 2 is not. -/
theorem witness_CodewordsAreTheBranchBits :
    oneTree.WellFormed w32 ∧ oneTree.inUse 508 ∧ oneTree.inUse 509 ∧ (508 : Slot) ≠ root ∧ (509 : Slot) ≠ root ∧
    oneTree.slotOfSym 1 ≠ noSlot ∧ oneTree.slotOfSym 2 = noSlot :=
  ⟨oneTree_wellFormed, by unfold Tree.inUse; decide, by unfold Tree.inUse; decide, by decide, by decide,
    by decide +kernel, by decide +kernel⟩

/-- Symbol 1 is seen, symbol 2 is not. -/
theorem witness_MappedBitsAreBounded :
    oneTree.WellFormed w32 ∧ oneTree.mapBits 1 = some [true] ∧ oneTree.slotOfSym 1 ≠ noSlot ∧
    oneTree.mapBits 2 = some (false :: raw8 2) :=
  ⟨oneTree_wellFormed, by decide +kernel, by decide +kernel, by decide +kernel⟩

theorem witness_MapCompletes :
    oneState.tree.WellFormed oneState.wBits ∧ oneState.fatal = false ∧ (255 : Operand).toNat ≤ 255 ∧
    oneState.boutReady = true ∧ ({ oneState with boutReady := false } : State).boutReady = false :=
  ⟨oneTree_wellFormed, rfl, by decide, rfl, rfl⟩

theorem witness_EncodeCompletes :
    oneState.tree.WellFormed oneState.wBits ∧ oneState.fatal = false ∧ (255 : Operand).toNat ≤ 255 ∧
    oneState.atMaxW = false ∧ oneState.boutReady = true ∧
    ({ oneState with boutReady := false } : State).boutReady = false :=
  ⟨oneTree_wellFormed, rfl, by decide, by decide +kernel, rfl, rfl⟩

theorem witness_TakingBeatsOneByOneEndsTheCommand :
    ({ oneState with phase := .emitting [⟨true, true⟩] (some 1) ⟨.ok, 0⟩ } : State).rst = false ∧
    [(⟨true, true⟩ : OutBeat)] ≠ [] ∧ oneState.boutReady = true ∧ 0 < [(⟨true, true⟩ : OutBeat)].length :=
  ⟨rfl, by decide, rfl, by decide⟩

theorem witness_WalkReadsWhatMapSends :
    oneState.tree.WellFormed oneState.wBits ∧ oneState.fatal = false ∧ oneState.tree.mapBits 1 = some [true] ∧
    ({ oneState with binQ := dataBeats [true] ++ [] } : State).binQ = dataBeats [true] ++ [] :=
  ⟨oneTree_wellFormed, rfl, by decide +kernel, rfl⟩

theorem witness_DecodeFollowsEncode :
    oneState.tree.WellFormed oneState.wBits ∧ oneState.fatal = false ∧ oneState.atMaxW = false ∧
    oneState.boutReady = true ∧ (1 : Operand).toNat ≤ 255 ∧
    ({ oneState with binQ := dataBeats [true] ++ [] } : State).tree = oneState.tree ∧
    ({ oneState with binQ := dataBeats [true] ++ [] } : State).wBits = oneState.wBits ∧
    ({ oneState with binQ := dataBeats [true] ++ [] } : State).fatal = false ∧
    oneState.tree.mapBits ((1 : Operand).setWidth 8) = some [true] :=
  ⟨oneTree_wellFormed, rfl, by decide +kernel, rfl, by decide, rfl, rfl, rfl, by decide +kernel⟩

/-- The decoder is given what ENCODE 1 sends first, its 8 raw bits, and an end-of-stream beat behind them. -/
theorem witness_EncodedStreamsRoundTrip :
    State.reset.tree = Tree.fresh ∧ State.reset.fatal = false ∧ State.reset.boutReady = true ∧
    State.reset.rspReady = true ∧ [(1 : Symbol)].length < 2 ^ State.reset.wBits.bits ∧
    received (exec (.encode 1) State.reset) = some ([⟨.ok, 0x00000608⟩], raw8 1) ∧
    ({ State.reset with binQ := dataBeats (raw8 1) ++ [⟨true, false⟩] } : State).binQ =
      dataBeats (raw8 1) ++ [⟨true, false⟩] :=
  ⟨rfl, rfl, rfl, rfl, by decide, by decide +kernel, rfl⟩

/-- Symbol 1 by its codeword; and a first symbol, by its 8 raw bits. -/
theorem witness_WalkTakesOneTo263Bits :
    oneTree.WellFormed w32 ∧
    oneTree.walkBeats (dataBeats [true]) (oneTree.enterSlot root 0) = (.found 1 false 1, []) ∧
    Tree.fresh.lo = root ∧
    Tree.fresh.walkBeats (dataBeats (raw8 1)) (Tree.fresh.enterSlot root 0) = (.found 1 true 8, []) :=
  ⟨oneTree_wellFormed, by decide +kernel, rfl, by decide +kernel⟩

theorem witness_LateBeatsGiveTheSameResult :
    State.reset.rst = false ∧
    (∃ t, exec .walk { State.reset with binQ := [] } = .next t ∧ t.phase = .walking false (.raw 0 8 0)) ∧
    ∃ t, exec .decode { State.reset with binQ := [] } = .next t ∧ t.phase = .walking true (.raw 0 8 0) :=
  ⟨rfl, ⟨_, rfl, by decide +kernel⟩, ⟨_, rfl, by decide +kernel⟩⟩

theorem busyState_steps : ∃ t, step busyState = .next t := step_next busyState

theorem witness_StepKeepsConsistency : busyState.Consistent ∧ ∃ t, step busyState = .next t :=
  ⟨busyState_consistent, busyState_steps⟩

theorem witness_StepKeepsSoundness : busyState.Sound ∧ ∃ t, step busyState = .next t :=
  ⟨busyState_sound, busyState_steps⟩

theorem witness_HostMovesKeepSoundness : busyState.Sound ∧ busyState.Consistent :=
  ⟨busyState_sound, busyState_consistent⟩

theorem witness_SoundStepsNeverAnswerEInternal : busyState.Sound ∧ ∃ t, step busyState = .next t :=
  ⟨busyState_sound, busyState_steps⟩

theorem witness_StepKeepsParameterPinsAndHistory : ∃ t, step busyState = .next t := busyState_steps

end Sys2Proof.Tests
end

section
/-!
PROOFS. Accepting a command word, the words the decoder rejects, and what every step keeps of the host's side
(O5, O2, O58).
-/

namespace Sys2Proof.Machine

open Sys2Proof.Config

/-! ## Accepting a word (R60) -/

/-- Out of reset and in Idle, a step takes the first word presented and runs it (R60). -/
theorem step_of_idle {s : State} {w : Word} {rest : List Word} (hrst : s.rst = false) (hidle : s.phase = .idle)
    (hq : s.cmdQ = w :: rest) : step s = ({ s with cmdQ := rest } : State).runWord w := by
  simp [step, State.resume, State.acceptCommand, hrst, hidle, hq]

theorem State.runWord_of_decode {w : Word} {i : Instr} (s : State) (h : decode w = .ok i) :
    s.runWord w = exec i s := by
  simp [State.runWord, h]

/-- Settles O5. -/
theorem stepRunsTheDecodedCommand : Obligations.StepRunsTheDecodedCommand := by
  intro s w rest i hrst hidle hq hw
  rw [step_of_idle hrst hidle hq, State.runWord_of_decode _ hw]

/-! ## The words the decoder rejects (R61, R64) -/

theorem toNat_opcField (w : Word) : (opcField w).toNat = w.toNat / 2 ^ 28 := by
  have := w.isLt
  rw [opcField, BitVec.extractLsb'_toNat, Nat.shiftRight_eq_div_pow]
  omega

theorem toNat_rsvdField (w : Word) : (rsvdField w).toNat = w.toNat / 2 ^ 16 % 2 ^ 12 := by
  rw [rsvdField, BitVec.extractLsb'_toNat, Nat.shiftRight_eq_div_pow]

theorem toNat_opndField (w : Word) : (opndField w).toNat = w.toNat % 2 ^ 16 := by
  rw [opndField, BitVec.extractLsb'_toNat, Nat.shiftRight_zero]

/-- A command that takes no operand is rejected exactly for a nonzero `OPND` (R62, R64). -/
theorem withoutOperand_rejects_iff (i : Instr) (opnd : Operand) :
    (∃ e, withoutOperand i opnd = .error e) ↔ opnd ≠ 0 := by
  by_cases h : opnd = 0
  · simp only [withoutOperand, h, if_true, reduceCtorEq, exists_false, ne_eq, not_true_eq_false]
  · simp only [withoutOperand, h, if_false, Except.error.injEq, exists_eq', ne_eq, not_false_eq_true]

/-- R64 on the three fields of a word. -/
theorem decode_rejects_iff (w : Word) : (∃ e, decode w = .error e) ↔
    10 ≤ (opcField w).toNat ∨ rsvdField w ≠ 0 ∨
      (((opcField w).toNat = 0 ∨ (opcField w).toNat = 1 ∨ (opcField w).toNat = 3 ∨ (opcField w).toNat = 6) ∧
        opndField w ≠ 0) := by
  unfold decode
  by_cases hr : rsvdField w = 0
  · simp only [hr, ne_eq, not_true_eq_false, if_false, false_or]
    split <;> simp_all [withoutOperand_rejects_iff]
    omega
  · simp only [hr, ne_eq, not_false_eq_true, if_true, Except.error.injEq, exists_eq', true_or, or_true]

/-- Settles O2: R64 on the fields, and each field as a quotient or remainder of the word. -/
theorem decoderRejectsExactlyTheIllegalWords : Obligations.DecoderRejectsExactlyTheIllegalWords := by
  intro w
  have hrsvd : rsvdField w ≠ 0 ↔ w.toNat / 2 ^ 16 % 2 ^ 12 ≠ 0 := by
    rw [← toNat_rsvdField, BitVec.toNat_ne]; rfl
  have hopnd : opndField w ≠ 0 ↔ w.toNat % 2 ^ 16 ≠ 0 := by
    rw [← toNat_opndField, BitVec.toNat_ne]; rfl
  rw [decode_rejects_iff, hrsvd, hopnd, toNat_opcField, IllegalWord]

/-! ## What the machine keeps of the host's side (R54, R59) -/

/-- From `s` to `t` the parameter and the pins are unchanged, the histories have only grown, and words and beats
presented have only been taken from the front. -/
structure State.Extends (s t : State) : Prop where
  wBits : t.wBits = s.wBits
  rst : t.rst = s.rst
  boutReady : t.boutReady = s.boutReady
  rspReady : t.rspReady = s.rspReady
  boutSent : s.boutSent <+: t.boutSent
  rspSent : s.rspSent <+: t.rspSent
  cmdQ : t.cmdQ <:+ s.cmdQ
  binQ : t.binQ <:+ s.binQ

theorem State.Extends.refl (s : State) : s.Extends s :=
  ⟨rfl, rfl, rfl, rfl, List.prefix_rfl, List.prefix_rfl, List.suffix_rfl, List.suffix_rfl⟩

theorem State.Extends.trans {s t u : State} (h : s.Extends t) (k : t.Extends u) : s.Extends u :=
  ⟨k.wBits.trans h.wBits, k.rst.trans h.rst, k.boutReady.trans h.boutReady, k.rspReady.trans h.rspReady,
    h.boutSent.trans k.boutSent, h.rspSent.trans k.rspSent, k.cmdQ.trans h.cmdQ, k.binQ.trans h.binQ⟩

theorem State.offer_extends (s : State) (r : Response) : s.Extends (s.offer r) := by
  constructor <;> simp
  split <;> simp

theorem State.raise_extends (s : State) (e : Status) (v : Word) : s.Extends (s.raise e v) := by
  refine .trans ?_ (State.offer_extends _ _)
  constructor <;> split <;> simp

theorem State.complete_extends (s : State) (upd : Option Symbol) (r : Response) : s.Extends (s.complete upd r) := by
  rcases s.complete_cases upd r with ⟨_, h⟩ | ⟨_, t, _, _, h⟩ | ⟨_, _, _, h⟩ <;> rw [h]
  · exact s.offer_extends r
  · exact .trans (by constructor <;> simp) (State.offer_extends { s with tree := t } r)
  · exact s.raise_extends _ _

theorem State.emit_extends (s : State) (beats : List OutBeat) (upd : Option Symbol) (r : Response) :
    s.Extends (s.emit beats upd r) := by
  by_cases hb : beats = []
  · subst hb
    exact s.complete_extends upd r
  · rcases s.emit_cases upd r hb with ⟨_, h⟩ | ⟨_, h⟩ <;> rw [h]
    · exact .trans (by constructor <;> simp) (State.complete_extends _ upd r)
    · constructor <;> simp

/-- The walk takes beats from the front (R72). -/
theorem Tree.walkBeats_suffix (t : Tree) (bs : List InBeat) (w : Walk) : (t.walkBeats bs w).2 <:+ bs := by
  induction bs generalizing w with
  | nil => exact List.suffix_rfl
  | cons b bs ih =>
    cases w with
    | needs pos => exact (ih _).trans (List.suffix_cons b bs)
    | found y new n => exact List.suffix_rfl
    | failed e v => exact List.suffix_rfl

theorem State.walkOn_extends (s : State) (upd : Bool) (w : Walk) : s.Extends (s.walkOn upd w) := by
  have hsuf := s.tree.walkBeats_suffix s.binQ w
  rcases s.walkOn_cases upd w with ⟨_, hw, h⟩ | ⟨_, _, _, rest, hw, h⟩ | ⟨_, _, rest, hw, h⟩ <;> rw [h] <;> rw [hw] at hsuf
  · constructor <;> simp
  · exact .trans (by constructor <;> simp [hsuf]) (State.complete_extends _ _ _)
  · exact .trans (by constructor <;> simp [hsuf]) (State.raise_extends _ _ _)

/-! The checks of R148 raise a non-fatal error or go on, so what holds of both holds after them. -/

theorem State.unlessFatal_of {P : State → Prop} {s go : State} (hraise : s.fatal = true → P (s.raise .eFatal 0))
    (hgo : s.fatal = false → P go) : P (s.unlessFatal go) := by
  cases h : s.fatal
  · rw [State.unlessFatal_clear go h]; exact hgo h
  · rw [State.unlessFatal_fatal go h]; exact hraise h

theorem State.withOperand_of {P : State → Prop} {α : Type} {s : State} {x : Option α} {go : α → State}
    (hraise : P (s.raise .eRange 0)) (hgo : ∀ a, P (go a)) : P (s.withOperand x go) := by
  cases x with
  | none => exact hraise
  | some a => exact hgo a

theorem State.withHeadroom_of {P : State → Prop} {s go : State} (hraise : P (s.raise .eOverflow 0))
    (hgo : s.atMaxW = false → P go) : P (s.withHeadroom go) := by
  cases h : s.atMaxW
  · rw [State.withHeadroom_clear go h]; exact hgo h
  · rw [State.withHeadroom_full go h]; exact hraise

theorem State.mapThen_extends (s : State) (y : Symbol) (upd : Option Symbol) : s.Extends (s.mapThen y upd) := by
  unfold State.mapThen
  split
  · exact s.raise_extends _ _
  · exact s.emit_extends _ _ _

/-- What a command leaves of its state, said of the state alone: `exec` always answers a next state. -/
theorem exec_of {P : State → Prop} {i : Instr} {s t : State} (h : exec i s = .next t)
    (hnop : P (s.respondOk 0)) (hinit : P (s.freshSession.respondOk 0))
    (hread : ∀ v, P (s.respondOk v))
    (hraise : ∀ e, e.isFatal = false → P (s.raise e 0))
    (hmap : s.fatal = false → ∀ y, P (s.mapThen y none))
    (hencode : s.fatal = false → s.atMaxW = false → ∀ y, P (s.mapThen y (some y)))
    (hupdate : s.fatal = false → s.atMaxW = false → ∀ y r, r.status = .ok → P (s.complete (some y) r))
    (hwalk : s.fatal = false → P (s.walkOn false (s.tree.enterSlot root 0)))
    (hdecode : s.fatal = false → s.atMaxW = false → P (s.walkOn true (s.tree.enterSlot root 0))) : P t := by
  have hfatal : s.fatal = true → P (s.raise .eFatal 0) := fun _ => hraise _ rfl
  cases i <;> obtain rfl := Host.Outcome.next.inj h
  case nop => exact hnop
  case init => exact hinit
  case encode =>
    exact State.unlessFatal_of hfatal fun hf => State.withOperand_of (hraise _ rfl) fun y =>
      State.withHeadroom_of (hraise _ rfl) fun hm => hencode hf hm y
  case decode => exact State.unlessFatal_of hfatal fun hf => State.withHeadroom_of (hraise _ rfl) fun hm => hdecode hf hm
  case update =>
    exact State.unlessFatal_of hfatal fun hf => State.withOperand_of (hraise _ rfl) fun y =>
      State.withHeadroom_of (hraise _ rfl) fun hm => hupdate hf hm y _ rfl
  case map => exact State.unlessFatal_of hfatal fun hf => State.withOperand_of (hraise _ rfl) fun y => hmap hf y
  case walk => exact State.unlessFatal_of hfatal fun hf => hwalk hf
  case csrRd => exact State.withOperand_of (hraise _ rfl) fun _ => hread _
  case nodeRdW => exact State.withOperand_of (hraise _ rfl) fun _ => hread _
  case nodeRdS => exact State.withOperand_of (hraise _ rfl) fun _ => hread _

theorem exec_extends {i : Instr} {s t : State} (h : exec i s = .next t) : s.Extends t :=
  exec_of h (s.offer_extends _) (.trans (by constructor <;> simp) (State.offer_extends s.freshSession _))
    (fun _ => s.offer_extends _) (fun _ _ => s.raise_extends _ _) (fun _ _ => s.mapThen_extends _ _)
    (fun _ _ _ => s.mapThen_extends _ _) (fun _ _ _ _ _ => s.complete_extends _ _) (fun _ => s.walkOn_extends _ _)
    (fun _ _ => s.walkOn_extends _ _)

/-- What a step can do: the reset edge; nothing, in Idle; accept a word, legal or not; or go on with the command in
flight (R60, R142, R151). -/
theorem step_cases {s t : State} (h : step s = .next t) :
    t = s.resetEdge ∨ t = s ∨
    (s.phase = .idle ∧ ∃ w rest, s.cmdQ = w :: rest ∧
      (t = ({ s with cmdQ := rest } : State).raise .eIllegal 0 ∨ ∃ i, exec i { s with cmdQ := rest } = .next t)) ∨
    (∃ upd pos, s.phase = .walking upd pos ∧ t = s.walkOn upd (.needs pos)) ∨
    (∃ beats upd r, s.phase = .emitting beats upd r ∧ t = s.emit beats upd r) ∨
    (∃ r, s.phase = .responding r ∧ t = s.offer r) := by
  unfold step at h
  split at h
  · exact .inl (Host.Outcome.next.inj h).symm
  unfold State.resume at h
  split at h
  case h_1 hp =>
    unfold State.acceptCommand at h
    split at h
    · exact .inr (.inl (Host.Outcome.next.inj h).symm)
    · rename_i w rest hq
      refine .inr (.inr (.inl ⟨hp, w, rest, hq, ?_⟩))
      unfold State.runWord at h
      split at h
      · exact .inr ⟨_, h⟩
      · exact .inl (Host.Outcome.next.inj h).symm
  case h_2 upd pos hp => exact .inr (.inr (.inr (.inl ⟨upd, pos, hp, (Host.Outcome.next.inj h).symm⟩)))
  case h_3 beats upd r hp =>
    exact .inr (.inr (.inr (.inr (.inl ⟨beats, upd, r, hp, (Host.Outcome.next.inj h).symm⟩))))
  case h_4 r hp => exact .inr (.inr (.inr (.inr (.inr ⟨r, hp, (Host.Outcome.next.inj h).symm⟩))))

/-- A step never acts for the host (R54, R59). -/
theorem step_extends {s t : State} (h : step s = .next t) : s.Extends t := by
  rcases step_cases h with rfl | rfl | ⟨_, w, rest, hq, hrun⟩ | ⟨upd, pos, _, rfl⟩ | ⟨beats, upd, r, _, rfl⟩ | ⟨r, _, rfl⟩
  · constructor <;> simp
  · exact .refl _
  · have htake : s.Extends { s with cmdQ := rest } := by constructor <;> simp [hq]
    rcases hrun with rfl | ⟨i, hi⟩
    · exact htake.trans (State.raise_extends _ _ _)
    · exact htake.trans (exec_extends hi)
  · exact s.walkOn_extends _ _
  · exact s.emit_extends _ _ _
  · exact s.offer_extends _

/-- Settles O58. -/
theorem stepKeepsParameterPinsAndHistory : Obligations.StepKeepsParameterPinsAndHistory := by
  intro s t h
  obtain ⟨hwBits, hrst, hbout, hrsp, ⟨b, hb⟩, ⟨r, hr⟩, ⟨w, hw⟩, ⟨x, hx⟩⟩ := step_extends h
  exact ⟨hwBits, hrst, hbout, hrsp, ⟨b, hb.symm⟩, ⟨r, hr.symm⟩, ⟨w, hw.symm⟩, ⟨x, hx.symm⟩⟩

end Sys2Proof.Machine
end

section
/-!
PROOFS. Every step keeps the state consistent (O53): no operation of the update engine, on any tree, leaves a weight
wider than `W_BITS`, and no command is in flight while `FATAL` = 1.
-/

namespace Sys2Proof.Machine

open Sys2Proof.Config

/-! ## Weights within `W_BITS`, on every tree (R12, R92) -/

theorem toNat_maxW (c : WBits) : (maxW c).toNat = 2 ^ c.bits - 1 := by
  have : 2 ^ c.bits ≤ 2 ^ 32 := Nat.pow_le_pow_right (by omega) (by unfold WBits.bits; omega)
  rw [maxW, BitVec.toNat_ofNat, Nat.mod_eq_of_lt (by omega)]

theorem weightSucc_lt (c : WBits) (w : Word) : (weightSucc c w).toNat < 2 ^ c.bits := by
  have hle : (weightSucc c w).toNat ≤ 2 ^ c.bits - 1 := by
    rw [weightSucc, BitVec.toNat_and, toNat_maxW]
    exact Nat.and_le_right
  have := Nat.two_pow_pos c.bits
  omega

theorem Tree.weightsFit_fresh (c : WBits) : Tree.fresh.WeightsFit c := by
  intro i
  rw [Tree.fresh_node]
  split <;> exact Nat.two_pow_pos _

section
variable {c : WBits} {t t' : Tree}

theorem Tree.WeightsFit.modify (h : t.WeightsFit c) (i : Slot) {f : Node → Node}
    (hf : (f (t.node i)).weight.toNat < 2 ^ c.bits) : (t.modify i f).WeightsFit c := by
  intro j
  rw [Tree.node_modify]
  split
  · rename_i hij
    rw [← hij.1]
    exact hf
  · exact h j

theorem Tree.WeightsFit.setSlotOf (h : t.WeightsFit c) (y : Symbol) (i : Slot) : (t.setSlotOf y i).WeightsFit c := h

theorem Tree.WeightsFit.setParent (h : t.WeightsFit c) (i p : Slot) : (t.setParent i p).WeightsFit c :=
  h.modify i (h i)

theorem Tree.WeightsFit.place (h : t.WeightsFit c) {d : Slot} {n : Node} (hn : n.weight.toNat < 2 ^ c.bits)
    (hp : t.place d n = some t') : t'.WeightsFit c := by
  have hput : (t.putContent d n).WeightsFit c := h.modify d hn
  rcases Tree.place_cases hp with ⟨_, _, _, rfl⟩ | ⟨_, rfl⟩ | ⟨_, rfl⟩
  · exact (hput.setParent _ _).setParent _ _
  · exact hput.setSlotOf _ _
  · exact hput

theorem Tree.WeightsFit.shiftDown (h : t.WeightsFit c) {n : Nat} {k : Slot} (hs : Tree.shiftDown n k t = some t') :
    t'.WeightsFit c := by
  induction n generalizing k t with
  | zero => obtain rfl := Option.some.inj hs; exact h
  | succ n ih =>
    obtain ⟨u, hu, hn⟩ := Option.bind_eq_some_iff.mp hs
    exact ih (h.place (h _) hu) hn

theorem Tree.WeightsFit.rotate (h : t.WeightsFit c) {p q : Slot} (hr : t.rotate p q = some t') : t'.WeightsFit c := by
  unfold Tree.rotate at hr
  split at hr
  · obtain rfl := Option.some.inj hr; exact h
  · obtain ⟨u, hu, hq⟩ := Option.bind_eq_some_iff.mp hr
    exact (h.shiftDown hu).place (h p) hq

theorem Tree.WeightsFit.swapLeaves (h : t.WeightsFit c) {a b : Slot} (hs : t.swapLeaves a b = some t') :
    t'.WeightsFit c := by
  unfold Tree.swapLeaves at hs
  split at hs
  · obtain rfl := Option.some.inj hs; exact h
  · obtain ⟨u, hu, hb⟩ := Option.bind_eq_some_iff.mp hs
    exact (h.place (h b) hu).place (h a) hb

theorem Tree.WeightsFit.slideAndIncrement (h : t.WeightsFit c) {p : Slot} {r : Tree × Slot}
    (hs : t.slideAndIncrement c p = some r) : r.1.WeightsFit c := by
  obtain ⟨_, q, u, _, hu, hr, _⟩ := Tree.slideAndIncrement_cases hs
  rw [hr]
  exact (h.rotate hu).modify q (weightSucc_lt c _)

theorem Tree.WeightsFit.chain (h : t.WeightsFit c) {n : Nat} {q : Slot} (hc : Tree.chain c n q t = some t') :
    t'.WeightsFit c := by
  induction n generalizing q t with
  | zero =>
    unfold Tree.chain at hc
    split at hc
    · obtain rfl := Option.some.inj hc; exact h
    · cases hc
  | succ n ih =>
    unfold Tree.chain at hc
    split at hc
    · obtain rfl := Option.some.inj hc; exact h
    · obtain ⟨r, hr, hn⟩ := Option.bind_eq_some_iff.mp hc
      exact ih (h.slideAndIncrement hr) hn

theorem Tree.WeightsFit.deferredStep (h : t.WeightsFit c) {d : Slot} (hd : Tree.deferredStep c d t = some t') :
    t'.WeightsFit c := by
  unfold Tree.deferredStep at hd
  split at hd
  · obtain rfl := Option.some.inj hd; exact h
  · obtain ⟨r, hr, rfl⟩ := Option.map_eq_some_iff.mp hd
    exact h.slideAndIncrement hr

theorem Tree.WeightsFit.split (h : t.WeightsFit c) {y : Symbol} {u : UpdateStart} (hs : t.split y = some u) :
    u.tree.WeightsFit c := by
  have hzero : (0 : Word).toNat < 2 ^ c.bits := Nat.two_pow_pos _
  unfold Tree.split at hs
  dsimp only at hs
  split at hs
  · cases hs
  · obtain rfl := Option.some.inj hs
    have hold : (t.modify t.lo fun n => { n with kind := .internal, child := t.lo - 1 }).WeightsFit c :=
      h.modify t.lo (h t.lo)
    exact (hold.modify (t.lo - 2) hzero).modify (t.lo - 1) hzero

theorem Tree.WeightsFit.absorb (h : t.WeightsFit c) (y : Symbol) : (t.absorb y).tree.WeightsFit c :=
  have hleaf : (t.modify 0 fun n => { n with kind := .leaf, sym := y }).WeightsFit c := h.modify 0 (h 0)
  hleaf

theorem Tree.WeightsFit.seenStart (h : t.WeightsFit c) {y : Symbol} {u : UpdateStart} (hs : t.seenStart y = some u) :
    u.tree.WeightsFit c := by
  unfold Tree.seenStart at hs
  dsimp only at hs
  split at hs
  · cases hs
  · obtain ⟨t', ht, rfl⟩ := Option.map_eq_some_iff.mp hs
    have := h.swapLeaves ht
    split <;> exact this

theorem Tree.WeightsFit.updateStart (h : t.WeightsFit c) {y : Symbol} {u : UpdateStart}
    (hs : t.updateStart y = some u) : u.tree.WeightsFit c := by
  unfold Tree.updateStart at hs
  split at hs
  · split at hs
    · cases hs
    · split at hs
      · exact h.split hs
      · obtain rfl := Option.some.inj hs
        exact h.absorb y
  · exact h.seenStart hs

theorem Tree.WeightsFit.update (h : t.WeightsFit c) {y : Symbol} (hu : t.update c y = some t') :
    t'.WeightsFit c := by
  obtain ⟨u, t₁, hstart, hchain, hdefer⟩ := Tree.update_cases hu
  exact ((h.updateStart hstart).chain hchain).deferredStep hdefer

end

/-! ## Consistency of what a command leaves (R24, R145 to R147) -/

section
variable {s : State}

/-- With the response offered nothing is in flight but the response. -/
theorem State.offer_consistent (hw : s.tree.WeightsFit s.wBits) (hc : s.CauseMatches) (r : Response) :
    (s.offer r).Consistent where
  fits := by simpa using hw
  cause := by simpa [State.CauseMatches] using hc
  walking := by intro upd pos h; rw [State.offer_phase] at h; split at h <;> cases h
  emitting := by intro beats upd r' h; rw [State.offer_phase] at h; split at h <;> cases h

/-- A fatal error has one of the three causes of R24. -/
theorem State.recordError_causeMatches (hc : s.CauseMatches) (e : Status) : (s.recordError e).CauseMatches := by
  unfold State.CauseMatches at *
  cases h : e.isFatal
  · simpa [h] using hc
  · simp only [State.recordError_fatal, State.recordError_fatalCause, h, if_true]
    cases e <;> simp_all [Status.isFatal, Status.code]

theorem State.raise_consistent (hw : s.tree.WeightsFit s.wBits) (hc : s.CauseMatches) (e : Status) (v : Word) :
    (s.raise e v).Consistent := by
  unfold State.raise
  split
  · exact State.offer_consistent (by simpa using drawTree_weightsFit s.wBits s.draws)
      (State.recordError_causeMatches (s := s.loseTree) hc e) _
  · exact State.offer_consistent (by simpa using hw) (State.recordError_causeMatches hc e) _

theorem State.complete_consistent (hw : s.tree.WeightsFit s.wBits) (hc : s.CauseMatches) (upd : Option Symbol)
    (r : Response) : (s.complete upd r).Consistent := by
  rcases s.complete_cases upd r with ⟨_, h⟩ | ⟨y, t, _, ht, h⟩ | ⟨_, _, _, h⟩ <;> rw [h]
  · exact State.offer_consistent hw hc r
  · exact State.offer_consistent (s := { s with tree := t }) (hw.update ht) hc r
  · exact State.raise_consistent hw hc _ _

theorem State.emit_consistent (hw : s.tree.WeightsFit s.wBits) (hc : s.CauseMatches) (hf : s.fatal = false)
    (beats : List OutBeat) (upd : Option Symbol) (r : Response) : (s.emit beats upd r).Consistent := by
  by_cases hb : beats = []
  · subst hb
    exact State.complete_consistent hw hc upd r
  · rcases s.emit_cases upd r hb with ⟨_, h⟩ | ⟨_, h⟩ <;> rw [h]
    · exact State.complete_consistent (s := { s with boutSent := s.boutSent ++ beats }) hw hc upd r
    · refine ⟨hw, hc, nofun, fun _ _ _ h => ?_⟩
      cases h
      exact ⟨hf, hb⟩

theorem State.mapThen_consistent (hw : s.tree.WeightsFit s.wBits) (hc : s.CauseMatches) (hf : s.fatal = false)
    (y : Symbol) (upd : Option Symbol) : (s.mapThen y upd).Consistent := by
  unfold State.mapThen
  split
  · exact State.raise_consistent hw hc _ _
  · exact State.emit_consistent hw hc hf _ _ _

theorem State.walkOn_consistent (hw : s.tree.WeightsFit s.wBits) (hc : s.CauseMatches) (hf : s.fatal = false)
    (upd : Bool) (w : Walk) : (s.walkOn upd w).Consistent := by
  rcases s.walkOn_cases upd w with ⟨_, _, h⟩ | ⟨_, _, _, rest, _, h⟩ | ⟨_, _, rest, _, h⟩ <;> rw [h]
  · exact ⟨hw, hc, fun _ _ _ => hf, nofun⟩
  · exact State.complete_consistent (s := { s with binQ := rest }) hw hc _ _
  · exact State.raise_consistent (s := { s with binQ := rest }) hw hc _ _

theorem exec_consistent {t : State} (hw : s.tree.WeightsFit s.wBits) (hc : s.CauseMatches) {i : Instr}
    (h : exec i s = .next t) : t.Consistent :=
  exec_of h (State.offer_consistent hw hc _)
    (State.offer_consistent (s := s.freshSession) (Tree.weightsFit_fresh _) rfl _)
    (fun _ => State.offer_consistent hw hc _) (fun _ _ => State.raise_consistent hw hc _ _)
    (fun hf _ => State.mapThen_consistent hw hc hf _ _) (fun hf _ _ => State.mapThen_consistent hw hc hf _ _)
    (fun _ _ _ _ _ => State.complete_consistent hw hc _ _) (fun hf => State.walkOn_consistent hw hc hf _ _)
    (fun hf _ => State.walkOn_consistent hw hc hf _ _)

end

theorem State.resetEdge_consistent (s : State) : s.resetEdge.Consistent :=
  ⟨Tree.weightsFit_fresh _, rfl, nofun, nofun⟩

/-- Settles O53, by the cases of a step. -/
theorem stepKeepsConsistency : Obligations.StepKeepsConsistency := by
  intro s t hs h
  rcases step_cases h with rfl | rfl | ⟨_, w, rest, _, hrun⟩ | ⟨upd, pos, hp, rfl⟩ | ⟨beats, upd, r, hp, rfl⟩ | ⟨r, _, rfl⟩
  · exact s.resetEdge_consistent
  · exact hs
  · rcases hrun with rfl | ⟨i, hi⟩
    · exact State.raise_consistent (s := { s with cmdQ := rest }) hs.fits hs.cause _ _
    · exact exec_consistent (s := { s with cmdQ := rest }) hs.fits hs.cause hi
  · exact State.walkOn_consistent hs.fits hs.cause (hs.walking upd pos hp) _ _
  · exact State.emit_consistent hs.fits hs.cause (hs.emitting beats upd r hp).1 _ _ _
  · exact State.offer_consistent hs.fits hs.cause r

end Sys2Proof.Machine
end

section
/-!
PROOFS. The moves of the update engine as renamings of slots (R89, R90). A move carries contents from slot to slot; where
the tree has its shape, the PARENT of every node and every `SLOT_OF` entry then follow the contents, so that the whole move
is one renaming. `Tree.Moved` says so, and `Tree.Moved.shape` says which renamings keep the shape.
-/

namespace Sys2Proof.Machine

open Sys2Proof.Config

/-! ## Slots as numbers -/

theorem toNat_slot_pred {i : Slot} (h : 0 < i.toNat) : (i - 1).toNat = i.toNat - 1 := by
  have := i.isLt
  rw [BitVec.toNat_sub, show (1 : Slot).toNat = 1 from rfl]
  omega

theorem toNat_slot_succ {i : Slot} (h : i.toNat < 511) : (i + 1).toNat = i.toNat + 1 := by
  rw [BitVec.toNat_add, show (1 : Slot).toNat = 1 from rfl]
  omega

theorem slot_ne_noSlot {i : Slot} (h : i.toNat ≤ 510) : i ≠ noSlot := (slot_le_iff i).mp h

/-- A pair of children: an odd slot and the slot below it (R33). -/
theorem slot_pair_iff {i c : Slot} (hc : c.toNat % 2 = 1) :
    c.toNat / 2 = i.toNat / 2 ↔ i = c ∨ i = c - 1 := by
  have hpred := toNat_slot_pred (i := c) (by omega)
  rw [← BitVec.toNat_inj (x := i), ← BitVec.toNat_inj (x := i), hpred]
  omega

/-! ## The shape of a tree: a well-formed tree but for its weights -/

/-- The clauses of `Tree.WellFormed` that do not compare weights. -/
structure Tree.Shape (t : Tree) : Prop where
  loEven : t.lo.toNat % 2 = 0 ∧ t.lo.toNat ≤ 510
  used : ∀ i : Slot, i.toNat ≤ 510 → ((t.node i).kind = .unused ↔ i.toNat < t.lo.toNat)
  canonical : ∀ i : Slot, i.toNat ≤ 510 → (t.node i).Canonical
  children : ∀ p : Slot, p.toNat ≤ 510 → (t.node p).kind = .internal →
    (t.node p).child.toNat % 2 = 1 ∧ (t.node p).child.toNat < p.toNat ∧ t.lo.toNat < (t.node p).child.toNat ∧
      (t.node (t.node p).child).parent = p ∧ (t.node ((t.node p).child - 1)).parent = p
  rootParent : (t.node root).parent = noSlot
  parents : ∀ i : Slot, t.inUse i → i ≠ root →
    i.toNat < (t.node i).parent.toNat ∧ (t.node i).parent.toNat ≤ 510 ∧
      (t.node (t.node i).parent).kind = .internal ∧
      (t.node (t.node i).parent).child.toNat / 2 = i.toNat / 2
  childrenInOrder : ∀ p q : Slot, p.toNat < q.toNat → q.toNat ≤ 510 → (t.node p).kind = .internal →
    (t.node q).kind = .internal → (t.node p).child.toNat < (t.node q).child.toNat
  nytAtLo : t.nytp = true → (t.node t.lo).kind = .nyt
  nytOnly : ∀ i : Slot, i.toNat ≤ 510 → (t.node i).kind = .nyt → t.nytp = true ∧ i = t.lo
  fullWithoutNyt : t.nytp = false → t.lo = 0
  slotOfLeaf : ∀ i : Slot, i.toNat ≤ 510 → (t.node i).kind = .leaf → t.slotOfSym (t.node i).sym = i
  leafOfSlot : ∀ y : Symbol, t.slotOfSym y = noSlot ∨
    ((t.slotOfSym y).toNat ≤ 510 ∧ (t.node (t.slotOfSym y)).kind = .leaf ∧ (t.node (t.slotOfSym y)).sym = y)
  seenCounts : t.slotOf.countP (fun i => i != noSlot) = t.seenCount

theorem Tree.WellFormed.shape {c : WBits} {t : Tree} (h : t.WellFormed c) : t.Shape :=
  ⟨h.loEven, h.used, h.canonical, h.children, h.rootParent, h.parents, h.childrenInOrder, h.nytAtLo, h.nytOnly,
    h.fullWithoutNyt, h.slotOfLeaf, h.leafOfSlot, h.seenCounts⟩

/-- How many symbols are seen depends on which `SLOT_OF` entries are `NONE` alone. -/
theorem Tree.countP_slotOf_congr {t t' : Tree} (h : ∀ y, t'.slotOfSym y = noSlot ↔ t.slotOfSym y = noSlot) :
    t'.slotOf.countP (fun i => i != noSlot) = t.slotOf.countP (fun i => i != noSlot) := by
  have hmap : t'.slotOf.map (fun i => i != noSlot) = t.slotOf.map (fun i => i != noSlot) := by
    apply Vector.ext
    intro i hi
    have hy := h (BitVec.ofNat 8 i)
    simp only [Tree.slotOfSym, BitVec.toNat_ofNat, Nat.mod_eq_of_lt (show i < 2 ^ 8 from hi)] at hy
    rw [Vector.getElem_map, Vector.getElem_map, Bool.eq_iff_iff, bne_iff_ne, bne_iff_ne]
    exact not_congr hy
  have hcount := congrArg (Vector.countP id) hmap
  rwa [Vector.countP_map, Vector.countP_map] at hcount

namespace Tree.Shape

section
variable {t : Tree} (h : t.Shape)
include h

/-- A node in use is INTERNAL, a LEAF or the NYT (R22). -/
theorem kind_ne_unused {i : Slot} (hi : t.inUse i) : (t.node i).kind ≠ .unused := by
  intro hk
  have := (h.used i hi.2).mp hk
  have := hi.1
  omega

theorem inUse_of_kind {i : Slot} (hi : i.toNat ≤ 510) (hk : (t.node i).kind ≠ .unused) : t.inUse i :=
  ⟨by have := mt (h.used i hi).mpr hk; omega, hi⟩

theorem node_eq_empty {i : Slot} (hi : ¬ t.inUse i) : t.node i = Node.empty := by
  by_cases hle : i.toNat ≤ 510
  · have hk := (h.used i hle).mpr (by unfold Tree.inUse at hi; omega)
    have hc := h.canonical i hle
    rwa [Node.Canonical, hk] at hc
  · have hi : i = noSlot := by_contra fun hn => hle ((slot_le_iff i).mpr hn)
    rw [hi, Tree.node_noSlot]

/-- PARENT names the INTERNAL slot whose pair of children the node belongs to (R33, R36). -/
theorem parent_eq_iff {i k : Slot} (hk : k.toNat ≤ 510) : (t.node i).parent = k ↔
    (t.node k).kind = .internal ∧ (i = (t.node k).child ∨ i = (t.node k).child - 1) := by
  constructor
  · rintro rfl
    by_cases hi : t.inUse i
    · have hroot : i ≠ root := by
        rintro rfl
        rw [h.rootParent] at hk
        exact absurd hk (by decide)
      obtain ⟨_, _, hint, hpair⟩ := h.parents i hi hroot
      exact ⟨hint, (slot_pair_iff (h.children _ hk hint).1).mp hpair⟩
    · rw [h.node_eq_empty hi] at hk
      exact absurd hk (by decide)
  · rintro ⟨hint, rfl | rfl⟩
    · exact (h.children k hk hint).2.2.2.1
    · exact (h.children k hk hint).2.2.2.2

/-- `SLOT_OF` finds the LEAF of a symbol and nothing else (R21, R36). -/
theorem slotOfSym_eq_iff {y : Symbol} {k : Slot} (hk : k.toNat ≤ 510) :
    t.slotOfSym y = k ↔ (t.node k).kind = .leaf ∧ (t.node k).sym = y := by
  constructor
  · rintro rfl
    rcases h.leafOfSlot y with hn | ⟨_, hleaf, hsym⟩
    · rw [hn] at hk
      exact absurd hk (by decide)
    · exact ⟨hleaf, hsym⟩
  · rintro ⟨hleaf, rfl⟩
    exact h.slotOfLeaf k hk hleaf

/-- The child of an INTERNAL slot is a slot in use, above `LO` and below its parent (R33). -/
theorem child_bounds {k : Slot} (hk : k.toNat ≤ 510) (hint : (t.node k).kind = .internal) :
    (t.node k).child.toNat % 2 = 1 ∧ t.lo.toNat < (t.node k).child.toNat ∧ (t.node k).child.toNat < k.toNat ∧
      ((t.node k).child - 1).toNat = (t.node k).child.toNat - 1 := by
  obtain ⟨hodd, hlt, hlo, _⟩ := h.children k hk hint
  exact ⟨hodd, hlo, hlt, toNat_slot_pred (by omega)⟩

end

end Tree.Shape

/-! ## `Place` (R90) -/

/-- `Place(d, n)` whole: slot `d` holds the content, the children of an INTERNAL node and the `SLOT_OF` entry of a LEAF
point to `d`. -/
theorem Tree.place_eq (t : Tree) {d : Slot} {n : Node} (hd : d ≠ noSlot)
    (hchild : n.kind = .internal → n.child ≠ 0 ∧ n.child ≠ noSlot) :
    ∃ t', t.place d n = some t' ∧
      (∀ i, t'.node i = { (if i = d then n else t.node i) with
        parent := if n.kind = .internal ∧ (i = n.child ∨ i = n.child - 1) then d else (t.node i).parent }) ∧
      (∀ y, t'.slotOfSym y = if n.kind = .leaf ∧ n.sym = y then d else t.slotOfSym y) ∧
      t'.lo = t.lo ∧ t'.nytp = t.nytp := by
  have hput : ∀ i, (t.putContent d n).node i =
      { (if i = d then n else t.node i) with parent := (t.node i).parent } := by
    intro i
    rw [Tree.putContent, Tree.node_modify]
    by_cases hi : i = d
    · simp [hi, hd]
    · simp [hi, Ne.symm hi]
  cases hk : n.kind
  case internal =>
    obtain ⟨hc0, hcn⟩ := hchild hk
    have hcp : n.child - 1 ≠ noSlot := by
      intro e
      have := congrArg BitVec.toNat e
      have := n.child.isLt
      rw [toNat_slot_pred (Nat.pos_of_ne_zero fun e0 => hc0 (BitVec.eq_of_toNat_eq e0)), toNat_noSlot] at *
      omega
    refine ⟨_, by simp only [Tree.place, hk]; exact if_neg (not_or.mpr ⟨hc0, hcn⟩), fun i => ?_, fun y => ?_, ?_, ?_⟩
    · simp only [Tree.setParent, Tree.node_modify, hput, hcn, hcp, ne_eq, not_false_eq_true, and_true, true_and,
        @eq_comm _ n.child i, @eq_comm _ (n.child - 1) i]
      by_cases h₁ : i = n.child - 1
      · simp only [h₁, if_true, or_true]
        split <;> rfl
      · simp only [h₁, if_false, or_false]
        split <;> rfl
    · simp [Tree.setParent, Tree.putContent]
    · simp [Tree.setParent, Tree.putContent]
    · simp [Tree.setParent, Tree.putContent]
  case leaf =>
    refine ⟨_, by simp [Tree.place, hk]; rfl, fun i => ?_, fun y => ?_, ?_, ?_⟩
    · simp [hput]
    · simp [Tree.slotOfSym_setSlotOf, Tree.putContent]
    · simp [Tree.putContent]
    · simp [Tree.putContent]
  all_goals
    exact ⟨_, by simp [Tree.place, hk]; rfl, fun i => by simp [hput], fun y => by simp [Tree.putContent],
      by simp [Tree.putContent], by simp [Tree.putContent]⟩

/-! ## Moves as renamings -/

/-- The tree `t` is the tree `u` after moves: slot `i` holds the content that slot `g i` held, and what pointed to slot `j`,
a PARENT or a `SLOT_OF` entry, points to slot `f j`. -/
structure Tree.Moved (u : Tree) (f g : Slot → Slot) (t : Tree) : Prop where
  node : ∀ i, t.node i = { u.node (g i) with parent := f (u.node i).parent }
  slotOf : ∀ y, t.slotOfSym y = f (u.slotOfSym y)
  lo : t.lo = u.lo
  nytp : t.nytp = u.nytp

theorem Tree.Moved.congr {u t : Tree} {f g f' g' : Slot → Slot} (h : u.Moved f g t) (hf : ∀ j, f' j = f j)
    (hg : ∀ i, g' i = g i) : u.Moved f' g' t := by
  rwa [funext hf, funext hg]

theorem Tree.Moved.refl (u : Tree) : u.Moved id id u := ⟨fun _ => rfl, fun _ => rfl, rfl, rfl⟩

/-- Placing the content that slot `k` held into slot `d` redirects `k` to `d` (R90). -/
theorem Tree.Moved.place {u t : Tree} {f g : Slot → Slot} (hu : u.Shape) (h : u.Moved f g t) {k d par : Slot}
    (hk : k.toNat ≤ 510) (hd : d.toNat ≤ 510) :
    ∃ t', t.place d { u.node k with parent := par } = some t' ∧
      u.Moved (Function.update f k d) (Function.update g d k) t' := by
  have hchild : (u.node k).kind = .internal → (u.node k).child ≠ 0 ∧ (u.node k).child ≠ noSlot := by
    intro hint
    obtain ⟨hodd, _, hlt, _⟩ := hu.child_bounds hk hint
    exact ⟨fun e => by simp [e] at hodd, slot_ne_noSlot (by omega)⟩
  obtain ⟨t', ht', hnode, hslot, hlo, hnytp⟩ :=
    t.place_eq (n := { u.node k with parent := par }) (slot_ne_noSlot hd) hchild
  refine ⟨t', ht', fun i => ?_, fun y => ?_, hlo.trans h.lo, hnytp.trans h.nytp⟩
  · rw [hnode i, h.node i]
    simp only [← hu.parent_eq_iff hk, Function.update_apply]
    by_cases hid : i = d <;> by_cases hp : (u.node i).parent = k <;> simp [hid, hp]
  · rw [hslot y, h.slotOf y]
    simp only [← hu.slotOfSym_eq_iff hk, Function.update_apply]

/-- The loop of `Rotate` redirects each of the `n` slots after `k` one slot down (R90). -/
theorem Tree.Moved.shiftDown {u t : Tree} {f g : Slot → Slot} (hu : u.Shape) (h : u.Moved f g t) {n : Nat} {k : Slot}
    (hn : k.toNat + n ≤ 510) (hg : ∀ i : Slot, k.toNat < i.toNat → g i = i) :
    ∃ t', Tree.shiftDown n k t = some t' ∧
      u.Moved (fun j => if k.toNat < j.toNat ∧ j.toNat ≤ k.toNat + n then j - 1 else f j)
        (fun i => if k.toNat ≤ i.toNat ∧ i.toNat < k.toNat + n then i + 1 else g i) t' := by
  induction n generalizing t k f g with
  | zero =>
    exact ⟨t, rfl, h.congr (fun j => if_neg (by omega)) fun i => if_neg (by omega)⟩
  | succ n ih =>
    have hk1 := toNat_slot_succ (i := k) (by omega)
    have hsrc : t.node (k + 1) = { u.node (k + 1) with parent := f (u.node (k + 1)).parent } := by
      rw [h.node, hg _ (by omega)]
    obtain ⟨t₁, ht₁, hm₁⟩ := h.place hu (k := k + 1) (d := k) (par := f (u.node (k + 1)).parent) (by omega) (by omega)
    obtain ⟨t', ht', hm'⟩ := ih (k := k + 1) hm₁ (by omega) fun i hi => by
      rw [Function.update_of_ne (by rintro rfl; omega)]
      exact hg i (by omega)
    refine ⟨t', by rw [Tree.shiftDown, hsrc, ht₁]; exact ht', ?_⟩
    refine hm'.congr (fun j => ?_) fun i => ?_
    · simp only [Function.update_apply, ← BitVec.toNat_inj (y := k + 1), hk1]
      by_cases hj : j.toNat = k.toNat + 1
      · have hjk : j - 1 = k := BitVec.eq_of_toNat_eq (by rw [toNat_slot_pred (by omega)]; omega)
        rw [if_pos (by omega), if_neg (by omega), if_pos hj, hjk]
      · rw [if_neg hj]
        exact if_congr (by omega) rfl rfl
    · simp only [Function.update_apply, ← BitVec.toNat_inj (y := k), hk1]
      by_cases hi : i.toNat = k.toNat
      · obtain rfl := BitVec.eq_of_toNat_eq hi
        rw [if_pos (by omega), if_neg (by omega), if_pos rfl]
      · rw [if_neg hi]
        exact if_congr (by omega) rfl rfl

/-- The renaming of a slide: slot `p` becomes `q`, the slots from above `p` up to `q` go one down (R90). -/
def slideTo (p q i : Slot) : Slot :=
  if i = p then q else if p.toNat < i.toNat ∧ i.toNat ≤ q.toNat then i - 1 else i

/-- Where the content of a slot comes from in a slide. -/
def slideBack (p q i : Slot) : Slot :=
  if i = q then p else if p.toNat ≤ i.toNat ∧ i.toNat < q.toNat then i + 1 else i

theorem toNat_slideTo {p q : Slot} (i : Slot) :
    (slideTo p q i).toNat = if i.toNat = p.toNat then q.toNat
      else if p.toNat < i.toNat ∧ i.toNat ≤ q.toNat then i.toNat - 1 else i.toNat := by
  unfold slideTo
  simp only [← BitVec.toNat_inj]
  split
  · rfl
  · split
    · exact toNat_slot_pred (by omega)
    · rfl

theorem toNat_slideBack {p q : Slot} (i : Slot) :
    (slideBack p q i).toNat = if i.toNat = q.toNat then p.toNat
      else if p.toNat ≤ i.toNat ∧ i.toNat < q.toNat then i.toNat + 1 else i.toNat := by
  unfold slideBack
  simp only [← BitVec.toNat_inj]
  split
  · rfl
  · split
    · have := q.isLt
      exact toNat_slot_succ (by omega)
    · rfl

theorem slideBack_slideTo {p q : Slot} (h : p.toNat ≤ q.toNat) (i : Slot) : slideBack p q (slideTo p q i) = i := by
  apply BitVec.eq_of_toNat_eq
  rw [toNat_slideBack, toNat_slideTo]
  split_ifs <;> omega

theorem slideTo_slideBack {p q : Slot} (h : p.toNat ≤ q.toNat) (i : Slot) : slideTo p q (slideBack p q i) = i := by
  apply BitVec.eq_of_toNat_eq
  rw [toNat_slideTo, toNat_slideBack]
  split_ifs <;> omega

/-- What comes to slot `q` is what was in `p`. -/
theorem slideTo_eq_iff {p q i : Slot} (h : p.toNat ≤ q.toNat) : slideTo p q i = q ↔ i = p := by
  constructor
  · intro e
    rw [← slideBack_slideTo h i, e, slideBack, if_pos rfl]
  · intro e
    rw [slideTo, if_pos e]

/-- A slide moves nothing outside `p..q`. -/
theorem slideTo_of_outside {p q i : Slot} (h : i.toNat < p.toNat ∨ q.toNat < i.toNat) (hpq : p.toNat ≤ q.toNat) :
    slideTo p q i = i := by
  apply BitVec.eq_of_toNat_eq
  rw [toNat_slideTo]
  split_ifs <;> omega

/-- `Rotate(p, q)` is the renaming `slideTo p q` (R90). -/
theorem Tree.Shape.rotate {u : Tree} (hu : u.Shape) {p q : Slot} (hpq : p.toNat ≤ q.toNat) (hq : q.toNat ≤ 510) :
    ∃ t', u.rotate p q = some t' ∧ u.Moved (slideTo p q) (slideBack p q) t' := by
  by_cases e : p = q
  · subst e
    refine ⟨u, by simp [Tree.rotate], (Tree.Moved.refl u).congr (fun j => ?_) fun i => ?_⟩
    · exact BitVec.eq_of_toNat_eq (by rw [toNat_slideTo, id]; split_ifs <;> omega)
    · exact BitVec.eq_of_toNat_eq (by rw [toNat_slideBack, id]; split_ifs <;> omega)
  · obtain ⟨t₁, ht₁, hm₁⟩ := (Tree.Moved.refl u).shiftDown hu (n := q.toNat - p.toNat) (k := p) (by omega) fun _ _ => rfl
    obtain ⟨t', ht', hm'⟩ := hm₁.place hu (k := p) (d := q) (par := (u.node p).parent) (by omega) hq
    refine ⟨t', by rw [Tree.rotate, if_neg e, ht₁]; exact ht', hm'.congr (fun j => ?_) fun i => ?_⟩
    · rw [slideTo, Function.update_apply, Nat.add_sub_cancel' hpq]
      rfl
    · rw [slideBack, Function.update_apply, Nat.add_sub_cancel' hpq]
      rfl

/-- `SwapLeaves(a, b)` is the exchange of the two slots (R89). -/
theorem Tree.Shape.swapLeaves {u : Tree} (hu : u.Shape) {a b : Slot} (ha : a.toNat ≤ 510) (hb : b.toNat ≤ 510) :
    ∃ t', u.swapLeaves a b = some t' ∧ u.Moved (Equiv.swap a b) (Equiv.swap a b) t' := by
  by_cases e : a = b
  · subst e
    exact ⟨u, by simp [Tree.swapLeaves], by simpa using Tree.Moved.refl u⟩
  · obtain ⟨t₁, ht₁, hm₁⟩ := (Tree.Moved.refl u).place hu (k := b) (d := a) (par := (u.node b).parent) hb ha
    obtain ⟨t', ht', hm'⟩ := hm₁.place hu (k := a) (d := b) (par := (u.node a).parent) ha hb
    refine ⟨t', by rw [Tree.swapLeaves, if_neg e]; exact Option.bind_eq_some_iff.mpr ⟨t₁, ht₁, ht'⟩,
      hm'.congr (fun j => ?_) fun i => ?_⟩
    · simp only [Equiv.swap_apply_def, Function.update_apply, id]
    · simp only [Equiv.swap_apply_def, Function.update_apply, id]
      by_cases hi : i = a <;> by_cases hi' : i = b <;> simp [hi, hi', e, Ne.symm e]

/-- A renaming keeps the shape if it keeps the unused slots and the NYT in place, leaves every INTERNAL node above its
children, and keeps the INTERNAL nodes in order. -/
theorem Tree.Moved.shape {u t : Tree} {f g : Slot → Slot} (hu : u.Shape) (h : u.Moved f g t)
    (hgf : ∀ i, g (f i) = i) (hfg : ∀ i, f (g i) = i) (hnone : f noSlot = noSlot)
    (hlow : ∀ i : Slot, i.toNat < u.lo.toNat → f i = i) (hnyt : u.nytp = true → f u.lo = u.lo)
    (hchild : ∀ k : Slot, k.toNat ≤ 510 → (u.node k).kind = .internal → (u.node k).child.toNat < (f k).toNat)
    (hmono : ∀ k j : Slot, k.toNat < j.toNat → j.toNat ≤ 510 → (u.node k).kind = .internal →
      (u.node j).kind = .internal → (f k).toNat < (f j).toNat) : t.Shape := by
  have hinj : ∀ {i j}, f i = f j → i = j := fun {i j} e => by rw [← hgf i, e, hgf]
  have hnode : ∀ i, t.node (f i) = { u.node i with parent := f (u.node (f i)).parent } := fun i => by
    rw [h.node, hgf]
  have hle : ∀ i, (f i).toNat ≤ 510 ↔ i.toNat ≤ 510 := fun i => by
    rw [slot_le_iff, slot_le_iff, not_iff_not]
    exact ⟨fun e => hinj (e.trans hnone.symm), fun e => e ▸ hnone⟩
  have hlt : ∀ i, (f i).toNat < u.lo.toNat ↔ i.toNat < u.lo.toNat := fun i => by
    constructor
    · intro hi
      rwa [hinj (hlow _ hi)] at hi
    · intro hi
      rwa [hlow i hi]
  have hall : ∀ {P : Slot → Prop}, (∀ i, P (f i)) → ∀ j, P j := fun {P} hP j => hfg j ▸ hP (g j)
  have hparent : ∀ j, (t.node j).parent = f (u.node j).parent := fun j => by rw [h.node]
  constructor
  case loEven => rw [h.lo]; exact hu.loEven
  case used =>
    refine hall fun i hi => ?_
    rw [hnode, h.lo, hlt]
    exact hu.used i ((hle i).mp hi)
  case canonical =>
    refine hall fun i hi => ?_
    have hi' := (hle i).mp hi
    have hc := hu.canonical i hi'
    rw [hnode]
    cases hk : (u.node i).kind <;> simp only [Node.Canonical, hk] at hc ⊢
    case unused =>
      rw [hlow i ((hu.used i hi').mp hk), hc]
      simp [Node.empty, hnone]
    all_goals exact hc
  case children =>
    refine hall fun i hi hk => ?_
    have hi' := (hle i).mp hi
    rw [hnode] at hk ⊢
    obtain ⟨hodd, _, hlo, hpar, hpar'⟩ := hu.children i hi' hk
    refine ⟨hodd, hchild i hi' hk, by rw [h.lo]; exact hlo, ?_, ?_⟩
    · rw [hparent]; exact congrArg f hpar
    · rw [hparent]; exact congrArg f hpar'
  case rootParent => rw [hparent, hu.rootParent, hnone]
  case parents =>
    intro j hj hroot
    obtain ⟨_, hple, hint, hpair⟩ := hu.parents j (by rwa [Tree.inUse, h.lo] at hj) hroot
    have := hchild _ hple hint
    have := (hu.children _ hple hint).1
    rw [hparent, hnode]
    exact ⟨by omega, (hle _).mpr hple, hint, hpair⟩
  case childrenInOrder =>
    refine hall fun i => hall fun j hij hj hi hk => ?_
    have hj' := (hle j).mp hj
    rw [hnode] at hi hk ⊢
    rw [hnode]
    have hi' : i.toNat ≤ 510 := (hle i).mp (by omega)
    refine hu.childrenInOrder i j (Nat.lt_of_not_le fun hji => ?_) hj' hi hk
    rcases Nat.lt_or_eq_of_le hji with hlt' | heq
    · have := hmono j i hlt' hi' hk hi
      omega
    · rw [BitVec.eq_of_toNat_eq heq] at hij
      omega
  case nytAtLo =>
    intro hp
    rw [h.nytp] at hp
    rw [h.lo, ← hnyt hp, hnode]
    exact hu.nytAtLo hp
  case nytOnly =>
    refine hall fun i hi hk => ?_
    rw [hnode] at hk
    obtain ⟨hp, rfl⟩ := hu.nytOnly i ((hle i).mp hi) hk
    exact ⟨h.nytp.trans hp, (hnyt hp).trans h.lo.symm⟩
  case fullWithoutNyt => rw [h.nytp, h.lo]; exact hu.fullWithoutNyt
  case slotOfLeaf =>
    refine hall fun i hi hk => ?_
    rw [hnode] at hk ⊢
    rw [h.slotOf]
    exact congrArg f (hu.slotOfLeaf i ((hle i).mp hi) hk)
  case leafOfSlot =>
    intro y
    rw [h.slotOf]
    rcases hu.leafOfSlot y with hn | ⟨hs, hk, hy⟩
    · exact .inl (by rw [hn, hnone])
    · exact .inr ⟨(hle _).mpr hs, by rw [hnode]; exact hk, by rw [hnode]; exact hy⟩
  case seenCounts =>
    have hseen : t.seenCount = u.seenCount := by rw [Tree.seenCount, Tree.seenCount, h.lo, h.nytp]
    rw [hseen, ← hu.seenCounts]
    refine Tree.countP_slotOf_congr fun y => ?_
    rw [h.slotOf]
    exact ⟨fun e => hinj (e.trans hnone.symm), fun e => by rw [e, hnone]⟩

end Sys2Proof.Machine
end

section
/-!
PROOFS. One `SlideAndIncrement` inside an update (R87, R88). Between two of them the tree is well formed but for one increment
that is pending: the INTERNAL node in slot `p` lacks 1 to the sum of its children, or the leaf in slot `p` is about to be
counted (`Tree.Pending`). The slide counts the node in `p`; seen slot by slot, exactly one weight rises by 1, and the parent
of that slot is pending next.
-/

namespace Sys2Proof.Machine

open Sys2Proof.Config

/-! ## The order of keys as an order of numbers (R35, R87) -/

/-- The key (weight, class) of a node as one number. -/
def Node.key (n : Node) : Nat := 2 * n.weight.toNat + if n.kind = .internal then 1 else 0

theorem Node.key_of_internal {n : Node} (h : n.kind = .internal) : n.key = 2 * n.weight.toNat + 1 := by
  simp [Node.key, h]

theorem Node.key_of_not_internal {n : Node} (h : n.kind ≠ .internal) : n.key = 2 * n.weight.toNat := by
  simp [Node.key, h]

theorem Node.key_bounds (n : Node) : 2 * n.weight.toNat ≤ n.key ∧ n.key ≤ 2 * n.weight.toNat + 1 := by
  unfold Node.key; split <;> omega

/-- The engine's key test compares the numbers (R87). -/
theorem Tree.keyBelow_iff_key_lt (t : Tree) (i : Slot) (w : Word) (k : Kind) :
    t.keyBelow i w k.cls = true ↔ (t.node i).key < 2 * w.toNat + if k = .internal then 1 else 0 := by
  have hcls : k.cls = if decide (k = .internal) then 1 else 0 := by cases k <;> rfl
  rw [hcls, Tree.keyBelow_iff_standsBelow, Tree.StandsBelow, Node.key]
  by_cases hk : k = .internal <;> by_cases hi : (t.node i).kind = .internal <;> simp [hk, hi] <;> omega

/-- Keys do not fall from slot to slot in use (R35). -/
def Tree.Ordered (t : Tree) : Prop :=
  ∀ i j : Slot, t.lo.toNat ≤ i.toNat → i.toNat < j.toNat → j.toNat ≤ 510 → (t.node i).key ≤ (t.node j).key

theorem Tree.Ordered.key_le {t : Tree} (h : t.Ordered) {i j : Slot} (hi : t.lo.toNat ≤ i.toNat)
    (hij : i.toNat ≤ j.toNat) (hj : j.toNat ≤ 510) : (t.node i).key ≤ (t.node j).key := by
  rcases Nat.lt_or_eq_of_le hij with hlt | heq
  · exact h i j hi hlt hj
  · rw [BitVec.eq_of_toNat_eq heq]

theorem Tree.Ordered.weight_le {t : Tree} (h : t.Ordered) {i j : Slot} (hi : t.lo.toNat ≤ i.toNat)
    (hij : i.toNat ≤ j.toNat) (hj : j.toNat ≤ 510) : (t.node i).weight.toNat ≤ (t.node j).weight.toNat := by
  have := h.key_le hi hij hj
  have := (t.node i).key_bounds
  have := (t.node j).key_bounds
  omega

/-- In use, a node that is no INTERNAL node is a leaf. -/
theorem Tree.Shape.isLeaf_iff {t : Tree} (h : t.Shape) {i : Slot} (hi : t.inUse i) :
    (t.node i).kind.IsLeaf ↔ (t.node i).kind ≠ .internal := by
  have := h.kind_ne_unused hi
  unfold Kind.IsLeaf
  cases hk : (t.node i).kind <;> simp_all

/-- The two points of R35 are the order of the keys. -/
theorem Tree.Shape.ordered_iff {t : Tree} (h : t.Shape) : t.Ordered ↔
    ∀ i j : Slot, t.inUse i → t.inUse j → i.toNat < j.toNat →
      (t.node i).weight.toNat ≤ (t.node j).weight.toNat ∧
        ((t.node i).weight = (t.node j).weight → (t.node j).kind.IsLeaf → (t.node i).kind.IsLeaf) := by
  have hpoint : ∀ i j : Slot, t.inUse i → t.inUse j → ((t.node i).key ≤ (t.node j).key ↔
      (t.node i).weight.toNat ≤ (t.node j).weight.toNat ∧
        ((t.node i).weight = (t.node j).weight → (t.node j).kind.IsLeaf → (t.node i).kind.IsLeaf)) := by
    intro i j hi hj
    rw [h.isLeaf_iff hi, h.isLeaf_iff hj, Node.key, Node.key, ← BitVec.toNat_inj]
    by_cases hi' : (t.node i).kind = .internal <;> by_cases hj' : (t.node j).kind = .internal <;> simp [hi', hj'] <;> omega
  constructor
  · intro ho i j hi hj hij
    exact (hpoint i j hi hj).mp (ho i j hi.1 hij hj.2)
  · intro ho i j hi hij hj
    exact (hpoint i j ⟨hi, by omega⟩ ⟨by omega, hj⟩).mpr (ho i j ⟨hi, by omega⟩ ⟨by omega, hj⟩ hij)

theorem Tree.WellFormed.keysOrdered {c : WBits} {t : Tree} (h : t.WellFormed c) : t.Ordered :=
  h.shape.ordered_iff.mpr h.ordered

/-- A shape whose keys are in order, whose sums hold and whose leaves are counted is a well-formed tree. -/
theorem Tree.Shape.wellFormed {c : WBits} {t : Tree} (h : t.Shape) (ho : t.Ordered)
    (hroot : (t.node root).weight.toNat < 2 ^ c.bits)
    (hsums : ∀ p : Slot, p.toNat ≤ 510 → (t.node p).kind = .internal →
      (t.node p).weight.toNat =
        (t.node (t.node p).child).weight.toNat + (t.node ((t.node p).child - 1)).weight.toNat)
    (hleaf : ∀ i : Slot, i.toNat ≤ 510 → (t.node i).kind = .leaf → 1 ≤ (t.node i).weight.toNat) :
    t.WellFormed c where
  loEven := h.loEven
  used := h.used
  canonical := h.canonical
  fits := by
    intro i
    by_cases hi : t.inUse i
    · exact lt_of_le_of_lt (ho.weight_le (j := root) hi.1 hi.2 (Nat.le_refl 510)) hroot
    · rw [h.node_eq_empty hi]
      exact Nat.two_pow_pos _
  children := h.children
  rootParent := h.rootParent
  parents := h.parents
  childrenInOrder := h.childrenInOrder
  ordered := h.ordered_iff.mp ho
  sums := hsums
  leafWeight := hleaf
  nytAtLo := h.nytAtLo
  nytOnly := h.nytOnly
  fullWithoutNyt := h.fullWithoutNyt
  slotOfLeaf := h.slotOfLeaf
  leafOfSlot := h.leafOfSlot
  seenCounts := h.seenCounts

/-! ## Writing a weight -/

theorem Tree.node_setWeight (t : Tree) {q : Slot} (hq : q ≠ noSlot) (w : Word) (i : Slot) :
    (t.setWeight q w).node i = if i = q then { t.node i with weight := w } else t.node i := by
  simp only [Tree.setWeight, Tree.node_modify, hq, ne_eq, not_false_eq_true, and_true, @eq_comm _ q i]

/-- The weight of a LEAF or an INTERNAL node is no part of the shape. -/
theorem Tree.Shape.setWeight {t : Tree} (h : t.Shape) {q : Slot} (hq : q.toNat ≤ 510)
    (hk : (t.node q).kind = .leaf ∨ (t.node q).kind = .internal) (w : Word) : (t.setWeight q w).Shape := by
  have hnode := t.node_setWeight (slot_ne_noSlot hq) w
  have hkind : ∀ i, ((t.setWeight q w).node i).kind = (t.node i).kind := fun i => by rw [hnode]; split <;> rfl
  have hsym : ∀ i, ((t.setWeight q w).node i).sym = (t.node i).sym := fun i => by rw [hnode]; split <;> rfl
  have hchild : ∀ i, ((t.setWeight q w).node i).child = (t.node i).child := fun i => by rw [hnode]; split <;> rfl
  have hparent : ∀ i, ((t.setWeight q w).node i).parent = (t.node i).parent := fun i => by rw [hnode]; split <;> rfl
  have hslot : ∀ y, (t.setWeight q w).slotOfSym y = t.slotOfSym y := fun y => by simp [Tree.setWeight]
  have hlo : (t.setWeight q w).lo = t.lo := by simp [Tree.setWeight]
  have hnytp : (t.setWeight q w).nytp = t.nytp := by simp [Tree.setWeight]
  constructor
  case canonical =>
    intro i hi
    have hc := h.canonical i hi
    rw [hnode]
    split
    · rename_i e
      subst e
      rcases hk with hk | hk <;> simpa only [Node.Canonical, hk] using hc
    · exact hc
  case seenCounts =>
    have hseen : (t.setWeight q w).seenCount = t.seenCount := by rw [Tree.seenCount, Tree.seenCount, hlo, hnytp]
    rw [hseen, ← h.seenCounts]
    exact Tree.countP_slotOf_congr fun y => by rw [hslot]
  all_goals simp only [hkind, hsym, hchild, hparent, hslot, hlo, hnytp, Tree.inUse]
  case loEven => exact h.loEven
  case used => exact h.used
  case children => exact h.children
  case rootParent => exact h.rootParent
  case parents => exact h.parents
  case childrenInOrder => exact h.childrenInOrder
  case nytAtLo => exact h.nytAtLo
  case nytOnly => exact h.nytOnly
  case fullWithoutNyt => exact h.fullWithoutNyt
  case slotOfLeaf => exact h.slotOfLeaf
  case leafOfSlot => exact h.leafOfSlot

/-! ## Where a slide lands (R87) -/

/-- The slide from slot `p` lands at `q`: it passes exactly the slots below the key that the node in `p` will have. -/
structure Tree.Landing (t : Tree) (p q : Slot) : Prop where
  le : p.toNat ≤ q.toNat
  le_root : q.toNat ≤ 510
  passed : ∀ k : Slot, p.toNat < k.toNat → k.toNat ≤ q.toNat → (t.node k).key < (t.node p).key + 2
  stops : ∀ k : Slot, k.toNat = q.toNat + 1 → k.toNat ≤ 510 → (t.node p).key + 2 ≤ (t.node k).key

/-- A slide that does not meet the parent of slot `p` lands (R87, check IC2). -/
theorem Tree.slideFrom_lands (t : Tree) {p : Slot} {w : Word} {c : Nat}
    (hparent : ∀ k : Slot, k.toNat ≤ 510 → k = (t.node p).parent → t.keyBelow k w c = false) {fuel : Nat} {q₀ : Slot}
    (hq : q₀.toNat ≤ 510) (hfuel : 510 ≤ fuel + q₀.toNat) :
    ∃ q, t.slideFrom p w c fuel q₀ = some q ∧ q₀.toNat ≤ q.toNat ∧ q.toNat ≤ 510 ∧
      (∀ k : Slot, q₀.toNat < k.toNat → k.toNat ≤ q.toNat → t.keyBelow k w c = true) ∧
      (∀ k : Slot, k.toNat = q.toNat + 1 → k.toNat ≤ 510 → t.keyBelow k w c = false) := by
  induction fuel generalizing q₀ with
  | zero => exact ⟨q₀, rfl, Nat.le_refl _, hq, fun k _ _ => by omega, fun k _ _ => by omega⟩
  | succ fuel ih =>
    by_cases hs : q₀.toNat < root.toNat ∧ t.keyBelow (q₀ + 1) w c = true
    · have hlt : q₀.toNat < 510 := hs.1
      have hsucc := toNat_slot_succ (i := q₀) (by omega)
      have hne : q₀ + 1 ≠ (t.node p).parent := fun e => by
        rw [hparent _ (by omega) e] at hs
        exact Bool.false_ne_true hs.2
      obtain ⟨q, he, hle, hle', hpass, hstop⟩ := ih (q₀ := q₀ + 1) (by omega) (by omega)
      refine ⟨q, by rw [Tree.slideFrom, if_pos hs, if_neg hne, he], by omega, hle', fun k hk hkq => ?_, hstop⟩
      by_cases e : k = q₀ + 1
      · rw [e]; exact hs.2
      · exact hpass k (by rw [← BitVec.toNat_inj] at e; omega) hkq
    · refine ⟨q₀, by rw [Tree.slideFrom, if_neg hs], Nat.le_refl _, hq, fun k _ _ => by omega, fun k hk hk' => ?_⟩
      obtain rfl : k = q₀ + 1 := BitVec.eq_of_toNat_eq (by rw [hk, toNat_slot_succ (by omega)])
      exact Bool.eq_false_of_not_eq_true fun e => hs ⟨by rw [toNat_root]; omega, e⟩

/-! ## The tree inside an update (R88) -/

/-- The tree between two steps of an update: the node in slot `p` is to be incremented, and with `d` not `NONE` the leaf in
`d`, the sibling of the NYT, is deferred to the end (R81, R83, R86). `p` = `NONE` is the end of the chain. -/
structure Tree.Pending (c : WBits) (t : Tree) (p d : Slot) : Prop where
  shape : t.Shape
  ordered : t.Ordered
  /-- The root's weight fits, and has headroom while the chain has not reached its end (R82). -/
  fits : (t.node root).weight.toNat < 2 ^ c.bits
  room : p ≠ noSlot → (t.node root).weight.toNat < 2 ^ c.bits - 1
  /-- The sums of R36, but for the pending slot and the deferred leaf. -/
  sums : ∀ k : Slot, k.toNat ≤ 510 → (t.node k).kind = .internal →
    (t.node k).weight.toNat + (if k = p then 1 else 0) =
      (t.node (t.node k).child).weight.toNat + (t.node ((t.node k).child - 1)).weight.toNat +
        (if (t.node k).child = d then 1 else 0)
  start : p ≠ noSlot → t.inUse p ∧ ((t.node p).kind = .leaf ∨ (t.node p).kind = .internal)
  /-- No INTERNAL node above an INTERNAL slot `p` is as light as it; above a leaf, one as light as it has its children below
  `p`, so that the leaf can pass. -/
  above : ∀ k : Slot, p.toNat < k.toNat → k.toNat ≤ 510 → (t.node k).kind = .internal →
    (t.node k).weight.toNat ≤ (t.node p).weight.toNat →
      (t.node p).kind = .leaf ∧ (t.node k).child.toNat < p.toNat
  leafWeight : ∀ i : Slot, i.toNat ≤ 510 → (t.node i).kind = .leaf → i ≠ p → i ≠ d → 1 ≤ (t.node i).weight.toNat
  deferred : d ≠ noSlot → t.nytp = true ∧ d.toNat = t.lo.toNat + 1 ∧ (t.node d).kind = .leaf ∧ d.toNat < p.toNat ∧
    ∀ i : Slot, d.toNat < i.toNat → i.toNat ≤ 510 → (t.node i).kind = .leaf →
      (t.node d).weight.toNat < (t.node i).weight.toNat

/-- The slot whose weight rises when the node in `p` slides to `q`: the slots an INTERNAL node passes all have its new weight,
those a leaf passes its old one. -/
def Tree.raisedSlot (t : Tree) (p q : Slot) : Slot := if (t.node p).kind = .internal then p else q

/-- The tree `t'` is `t` after the node in slot `p` has slid to `q` and been incremented (R87, R90). -/
structure Tree.Slid (t : Tree) (p q : Slot) (t' : Tree) : Prop extends t.Landing p q where
  node : ∀ i, t'.node (slideTo p q i) = { t.node i with
    weight := if i = p then (t.node p).weight + 1 else (t.node i).weight
    parent := slideTo p q (t.node (slideTo p q i)).parent }
  slotOf : ∀ y, t'.slotOfSym y = slideTo p q (t.slotOfSym y)
  lo : t'.lo = t.lo
  nytp : t'.nytp = t.nytp

namespace Tree.Pending

section
variable {c : WBits} {t : Tree} {p d : Slot} (h : t.Pending c p d) (hp : p ≠ noSlot)
include h hp

theorem inUse : t.inUse p := (h.start hp).1

/-- No weight wraps (R92): none is above the root's. -/
theorem weightSucc_eq : weightSucc c (t.node p).weight = (t.node p).weight + 1 ∧
    ((t.node p).weight + 1).toNat = (t.node p).weight.toNat + 1 := by
  have hlo := (h.inUse hp).1
  have := h.ordered.weight_le (j := root) hlo (h.inUse hp).2 (Nat.le_refl 510)
  exact weightSucc_of_lt (lt_of_le_of_lt this (h.room hp))

omit hp in
/-- The parent of slot `p` does not stand below the node's new key, so check IC2 passes (R87). -/
theorem key_parent {k : Slot} (hk : k.toNat ≤ 510) (hpar : k = (t.node p).parent) :
    (t.node p).key + 2 ≤ (t.node k).key := by
  obtain ⟨hint, hpair⟩ := (h.shape.parent_eq_iff hk).mp hpar.symm
  obtain ⟨hodd, _, hlt, hpred⟩ := h.shape.child_bounds hk hint
  have hple : p.toNat ≤ (t.node k).child.toNat := by
    rcases hpair with e | e
    · rw [e]
    · rw [e]; omega
  have hw : ¬ (t.node k).weight.toNat ≤ (t.node p).weight.toNat := fun hle => by
    have := (h.above k (by omega) hk hint hle).2
    omega
  have := (t.node p).key_bounds
  rw [Node.key_of_internal hint]
  omega

/-- The slide lands (R87). -/
theorem landing : ∃ q, t.slideFrom p (weightSucc c (t.node p).weight) (t.node p).kind.cls 511 p = some q ∧
    t.Landing p q := by
  obtain ⟨hsucc, hnat⟩ := h.weightSucc_eq hp
  have hbelow : ∀ k, t.keyBelow k (weightSucc c (t.node p).weight) (t.node p).kind.cls = true ↔
      (t.node k).key < (t.node p).key + 2 := fun k => by
    rw [Tree.keyBelow_iff_key_lt, hsucc, hnat, Node.key, Node.key]
    omega
  have hnot : ∀ k, t.keyBelow k (weightSucc c (t.node p).weight) (t.node p).kind.cls = false ↔
      (t.node p).key + 2 ≤ (t.node k).key := fun k => by
    rw [← Bool.not_eq_true, hbelow, Nat.not_lt]
  obtain ⟨q, he, hle, hle', hpass, hstop⟩ := t.slideFrom_lands (fuel := 511) (q₀ := p)
    (fun k hk hpar => (hnot k).mpr (h.key_parent hk hpar)) (h.inUse hp).2 (by omega)
  exact ⟨q, he, hle, hle', fun k hk hkq => (hbelow k).mp (hpass k hk hkq), fun k hk hk' => (hnot k).mp (hstop k hk hk')⟩

section
variable {q : Slot} (hl : t.Landing p q)
include hl

/-- A leaf slides past nodes of its own weight alone. -/
theorem weight_of_passed_leaf (hk : (t.node p).kind ≠ .internal) {k : Slot} (hpk : p.toNat ≤ k.toNat)
    (hkq : k.toNat ≤ q.toNat) : (t.node k).weight.toNat = (t.node p).weight.toNat := by
  rcases Nat.lt_or_eq_of_le hpk with hlt | heq
  · have hpass := hl.passed k hlt hkq
    have hord := h.ordered.key_le (h.inUse hp).1 hpk (by have := hl.le_root; omega)
    rw [Node.key_of_not_internal hk] at hpass hord
    have := (t.node k).key_bounds
    omega
  · rw [BitVec.eq_of_toNat_eq heq]

/-- An INTERNAL node slides past leaves of its new weight alone. -/
theorem weight_of_passed_internal (hk : (t.node p).kind = .internal) {k : Slot} (hpk : p.toNat < k.toNat)
    (hkq : k.toNat ≤ q.toNat) :
    (t.node k).kind ≠ .internal ∧ (t.node k).weight.toNat = (t.node p).weight.toNat + 1 := by
  have hk510 : k.toNat ≤ 510 := by have := hl.le_root; omega
  have hpass := hl.passed k hpk hkq
  have hord := h.ordered.key_le (h.inUse hp).1 hpk.le hk510
  rw [Node.key_of_internal hk] at hpass hord
  have hnot : (t.node k).kind ≠ .internal := fun hint => by
    rw [Node.key_of_internal hint] at hpass
    have := (h.above k hpk hk510 hint (by omega)).1
    rw [hk] at this
    cases this
  rw [Node.key_of_not_internal hnot] at hpass hord
  exact ⟨hnot, by omega⟩

/-- The nodes that move have their children below `p`, where nothing moves. -/
theorem child_lt {k : Slot} (hpk : p.toNat ≤ k.toNat) (hkq : k.toNat ≤ q.toNat) (hint : (t.node k).kind = .internal) :
    (t.node k).child.toNat < p.toNat := by
  have hk510 : k.toNat ≤ 510 := by have := hl.le_root; omega
  rcases Nat.lt_or_eq_of_le hpk with hlt | heq
  · by_cases hk : (t.node p).kind = .internal
    · exact absurd hint (h.weight_of_passed_internal hp hl hk hlt hkq).1
    · exact (h.above k hlt hk510 hint (h.weight_of_passed_leaf hp hl hk hpk hkq).le).2
  · rw [BitVec.eq_of_toNat_eq heq]
    exact (h.shape.child_bounds hk510 hint).2.2.1

omit h hp in
theorem raisedSlot_mem : p.toNat ≤ (t.raisedSlot p q).toNat ∧ (t.raisedSlot p q).toNat ≤ q.toNat := by
  have := hl.le
  unfold Tree.raisedSlot
  split <;> omega

/-- The next node to increment: none after the root, else an INTERNAL slot above the slots that move (R87, R88). -/
theorem next_cases :
    (t.raisedSlot p q = root ∧ (t.node (t.raisedSlot p q)).parent = noSlot) ∨
    (t.raisedSlot p q ≠ root ∧ q.toNat < (t.node (t.raisedSlot p q)).parent.toNat ∧
      (t.node (t.raisedSlot p q)).parent.toNat ≤ 510 ∧
      (t.node (t.node (t.raisedSlot p q)).parent).kind = .internal) := by
  obtain ⟨hpm, hmq⟩ := raisedSlot_mem hl
  by_cases hroot : t.raisedSlot p q = root
  · exact .inl ⟨hroot, by rw [hroot]; exact h.shape.rootParent⟩
  · have hm : t.inUse (t.raisedSlot p q) := ⟨by have := (h.inUse hp).1; omega, by have := hl.le_root; omega⟩
    obtain ⟨hlt, hle, hint, hpair⟩ := h.shape.parents _ hm hroot
    refine .inr ⟨hroot, Nat.lt_of_not_le fun hq => ?_, hle, hint⟩
    have := h.child_lt hp hl (by omega) hq hint
    have := (h.shape.child_bounds hle hint).1
    omega

end

/-- `SlideAndIncrement` on the pending slot succeeds, keeps the shape, and returns the parent of the slot whose weight has
risen (R87). -/
theorem slides : ∃ q t', t.slideAndIncrement c p = some (t', (t.node (t.raisedSlot p q)).parent) ∧ t.Slid p q t' ∧
    t'.Shape := by
  obtain ⟨q, hslide, hl⟩ := h.landing hp
  have hpq := hl.le
  have hq := hl.le_root
  have hlo := (h.inUse hp).1
  obtain ⟨u, hrot, hm⟩ := h.shape.rotate hpq hq
  have hqn : q ≠ noSlot := slot_ne_noSlot hq
  have hback : ∀ i, u.node (slideTo p q i) = { t.node i with parent := slideTo p q (t.node (slideTo p q i)).parent } :=
    fun i => by rw [hm.node, slideBack_slideTo hpq]
  have hto : slideTo p q p = q := if_pos rfl
  have hup : (u.node q).kind = (t.node p).kind := by rw [← hto, hback]
  have hushape : u.Shape := by
    refine hm.shape h.shape (slideBack_slideTo hpq) (slideTo_slideBack hpq)
      (slideTo_of_outside (.inr (by rw [toNat_noSlot]; omega)) hpq) (fun i hi => slideTo_of_outside (.inl (by omega)) hpq)
      (fun hny => ?_) (fun k hk hint => ?_) (fun k j hkj hj hk hji => ?_)
    · refine slideTo_of_outside (.inl (Nat.lt_of_le_of_ne hlo fun e => ?_)) hpq
      have hnyt := h.shape.nytAtLo hny
      rw [BitVec.eq_of_toNat_eq e] at hnyt
      rcases (h.start hp).2 with hk | hk <;> rw [hk] at hnyt <;> cases hnyt
    · by_cases hmove : p.toNat ≤ k.toNat ∧ k.toNat ≤ q.toNat
      · have := h.child_lt hp hl hmove.1 hmove.2 hint
        rw [toNat_slideTo]
        split_ifs <;> omega
      · rw [slideTo_of_outside (by omega) hpq]
        exact (h.shape.child_bounds hk hint).2.2.1
    · have hnot : k = p → ¬ j.toNat ≤ q.toNat := by
        rintro rfl hjq
        exact (h.weight_of_passed_internal hp hl hk hkj hjq).1 hji
      rw [← BitVec.toNat_inj] at hnot
      rw [toNat_slideTo, toNat_slideTo]
      split_ifs <;> omega
  refine ⟨q, u.setWeight q ((t.node p).weight + 1), ?_, ⟨hl, fun i => ?_, fun y => ?_, ?_, ?_⟩,
    hushape.setWeight hq (by rw [hup]; exact (h.start hp).2) _⟩
  · have hpar : ((u.setWeight q ((t.node p).weight + 1)).node q).parent = slideTo p q (t.node q).parent := by
      rw [Tree.node_setWeight _ hqn, if_pos rfl, hm.node]
    rw [Tree.slideAndIncrement]
    dsimp only
    rw [if_pos (h.start hp).2, hslide, Option.bind_some, hrot, Option.bind_some, (h.weightSucc_eq hp).1, hpar,
      Tree.raisedSlot]
    split
    · rfl
    · rename_i hk
      have hnext := h.next_cases hp hl
      rw [Tree.raisedSlot, if_neg hk] at hnext
      rcases hnext with ⟨_, e⟩ | ⟨_, hlt, _⟩
      · rw [e, slideTo_of_outside (.inr (by rw [toNat_noSlot]; omega)) hpq]
      · rw [slideTo_of_outside (.inr hlt) hpq]
  · rw [Tree.node_setWeight _ hqn, hback]
    by_cases e : i = p
    · rw [if_pos ((slideTo_eq_iff hpq).mpr e), if_pos e]
    · rw [if_neg (mt (slideTo_eq_iff hpq).mp e), if_neg e]
  · simpa [Tree.setWeight] using hm.slotOf y
  · simpa [Tree.setWeight] using hm.lo
  · simpa [Tree.setWeight] using hm.nytp

end

end Tree.Pending

/-! ## The tree after the slide -/

namespace Tree.Pending

section
variable {c : WBits} {t t' : Tree} {p d q : Slot} (h : t.Pending c p d) (hp : p ≠ noSlot) (hs : t.Slid p q t')
include h hp hs

omit h hp in
/-- A property of all slots after the slide, told by the slots before it. -/
theorem forall_slideTo {P : Slot → Prop} (hP : ∀ i, P (slideTo p q i)) (j : Slot) : P j :=
  slideTo_slideBack hs.le j ▸ hP _

omit h hp in
theorem kind_slid (i : Slot) : (t'.node (slideTo p q i)).kind = (t.node i).kind := by rw [hs.node]

omit h hp in
theorem child_slid (i : Slot) : (t'.node (slideTo p q i)).child = (t.node i).child := by rw [hs.node]

/-- A node keeps its weight, the one in slot `p` gains 1 (R92). -/
theorem weight_slid (i : Slot) : (t'.node (slideTo p q i)).weight.toNat =
    (t.node i).weight.toNat + if i = p then 1 else 0 := by
  rw [hs.node]
  dsimp only
  split
  · rename_i e
    rw [e]
    exact (h.weightSucc_eq hp).2
  · rfl

theorem key_slid (i : Slot) : (t'.node (slideTo p q i)).key = (t.node i).key + if i = p then 2 else 0 := by
  rw [Node.key, Node.key, h.weight_slid hp hs, kind_slid hs]
  split <;> split <;> omega

/-- Seen slot by slot, one weight rises by 1. -/
theorem weight_after (j : Slot) : (t'.node j).weight.toNat =
    (t.node j).weight.toNat + if j = t.raisedSlot p q then 1 else 0 := by
  have hpq := hs.le
  refine forall_slideTo hs (P := fun j => (t'.node j).weight.toNat =
    (t.node j).weight.toNat + if j = t.raisedSlot p q then 1 else 0) (fun i => ?_) j
  have hnat := toNat_slideTo (p := p) (q := q) i
  rw [h.weight_slid hp hs]
  by_cases hmove : p.toNat ≤ i.toNat ∧ i.toNat ≤ q.toNat
  · have hσ : p.toNat ≤ (slideTo p q i).toNat ∧ (slideTo p q i).toNat ≤ q.toNat := by
      rw [hnat]; split_ifs <;> omega
    by_cases hk : (t.node p).kind = .internal
    · have hw : ∀ k : Slot, p.toNat ≤ k.toNat → k.toNat ≤ q.toNat →
          (t.node k).weight.toNat + (if k = p then 1 else 0) = (t.node p).weight.toNat + 1 := fun k hpk hkq => by
        by_cases e : k = p
        · rw [if_pos e, e]
        · rw [if_neg e, (h.weight_of_passed_internal hp hs.toLanding hk
            (Nat.lt_of_le_of_ne hpk fun e' => e (BitVec.eq_of_toNat_eq e'.symm)) hkq).2]
      rw [Tree.raisedSlot, if_pos hk, hw i hmove.1 hmove.2, hw _ hσ.1 hσ.2]
    · rw [Tree.raisedSlot, if_neg hk, h.weight_of_passed_leaf hp hs.toLanding hk hmove.1 hmove.2,
        h.weight_of_passed_leaf hp hs.toLanding hk hσ.1 hσ.2]
      simp only [slideTo_eq_iff hpq]
  · obtain ⟨hpm, hmq⟩ := raisedSlot_mem hs.toLanding
    rw [slideTo_of_outside (by omega) hpq, if_neg (by rintro rfl; omega), if_neg (fun e => by rw [← e] at hpm hmq; omega)]

/-- The slide keeps the keys in order (R35, R87). -/
theorem ordered_after : t'.Ordered := by
  have hpq := hs.le
  have hq := hs.le_root
  have hlo := (h.inUse hp).1
  have hpass := hs.passed
  have hstop : ∀ k : Slot, q.toNat < k.toNat → k.toNat ≤ 510 → (t.node p).key + 2 ≤ (t.node k).key := fun k hk hk' => by
    have hsucc := toNat_slot_succ (i := q) (by omega)
    have := hs.stops (q + 1) hsucc (by omega)
    have := h.ordered.key_le (i := q + 1) (j := k) (by omega) (by omega) hk'
    omega
  have key : ∀ i j : Slot, t'.lo.toNat ≤ (slideTo p q i).toNat → (slideTo p q i).toNat < (slideTo p q j).toNat →
      (slideTo p q j).toNat ≤ 510 → (t'.node (slideTo p q i)).key ≤ (t'.node (slideTo p q j)).key := by
    intro i j hi hij hj
    rw [h.key_slid hp hs, h.key_slid hp hs]
    rw [hs.lo] at hi
    simp only [toNat_slideTo] at hi hij hj
    by_cases hip : i = p
    · subst hip
      have hjq : q.toNat < j.toNat := by split_ifs at hij hj <;> omega
      rw [if_pos rfl, if_neg (by rintro rfl; omega)]
      exact hstop j hjq (by split_ifs at hij hj <;> omega)
    · have hip' : i.toNat ≠ p.toNat := fun e => hip (BitVec.eq_of_toNat_eq e)
      rw [if_neg hip]
      by_cases hjp : j = p
      · subst hjp
        rw [if_pos rfl]
        by_cases hij' : i.toNat < j.toNat
        · have := h.ordered.key_le (i := i) (j := j) (by split_ifs at hi <;> omega) hij'.le (by omega)
          omega
        · have := hpass i (by omega) (by split_ifs at hij <;> omega)
          omega
      · have hjp' : j.toNat ≠ p.toNat := fun e => hjp (BitVec.eq_of_toNat_eq e)
        rw [if_neg hjp]
        exact h.ordered.key_le (by split_ifs at hi <;> omega) (by split_ifs at hij <;> omega)
          (by split_ifs at hj <;> omega)
  exact fun i j => forall_slideTo hs (P := fun i => t'.lo.toNat ≤ i.toNat → i.toNat < j.toNat → j.toNat ≤ 510 →
    (t'.node i).key ≤ (t'.node j).key) (fun i => forall_slideTo hs (P := fun j => t'.lo.toNat ≤ (slideTo p q i).toNat →
      (slideTo p q i).toNat < j.toNat → j.toNat ≤ 510 → (t'.node (slideTo p q i)).key ≤ (t'.node j).key) (key i) j) i

/-- The next node to increment stays in its slot. -/
theorem slideTo_next : slideTo p q (t.node (t.raisedSlot p q)).parent = (t.node (t.raisedSlot p q)).parent := by
  rcases h.next_cases hp hs.toLanding with ⟨_, e⟩ | ⟨_, hlt, _⟩
  · rw [e]
    exact slideTo_of_outside (.inr (by have := hs.le_root; rw [toNat_noSlot]; omega)) hs.le
  · exact slideTo_of_outside (.inr hlt) hs.le

omit h hp in
theorem slideTo_inj {i j : Slot} (e : slideTo p q i = slideTo p q j) : i = j := by
  rw [← slideBack_slideTo hs.le i, e, slideBack_slideTo hs.le]

omit h hp in
theorem slideTo_le_iff (i : Slot) : (slideTo p q i).toNat ≤ 510 ↔ i.toNat ≤ 510 := by
  have := hs.le
  have := hs.le_root
  rw [toNat_slideTo]
  split_ifs <;> omega

/-- After the slide the sums hold but for the next node to increment (R36, R88). -/
theorem sums_after (k : Slot) (hk : k.toNat ≤ 510) (hint : (t'.node k).kind = .internal) :
    (t'.node k).weight.toNat + (if k = (t.node (t.raisedSlot p q)).parent then 1 else 0) =
      (t'.node (t'.node k).child).weight.toNat + (t'.node ((t'.node k).child - 1)).weight.toNat +
        (if (t'.node k).child = d then 1 else 0) := by
  revert hk hint
  refine forall_slideTo hs (P := fun k => k.toNat ≤ 510 → (t'.node k).kind = .internal → (t'.node k).weight.toNat +
    (if k = (t.node (t.raisedSlot p q)).parent then 1 else 0) = (t'.node (t'.node k).child).weight.toNat +
      (t'.node ((t'.node k).child - 1)).weight.toNat + (if (t'.node k).child = d then 1 else 0)) (fun i hi hint => ?_) k
  rw [slideTo_le_iff hs] at hi
  rw [kind_slid hs] at hint
  have hsum := h.sums i hi hint
  obtain ⟨hodd, _, _, hpred⟩ := h.shape.child_bounds hi hint
  have hnext : slideTo p q i = (t.node (t.raisedSlot p q)).parent ↔
      t.raisedSlot p q = (t.node i).child ∨ t.raisedSlot p q = (t.node i).child - 1 := by
    rw [← h.slideTo_next hp hs]
    constructor
    · intro e
      exact ((h.shape.parent_eq_iff hi).mp (slideTo_inj hs e).symm).2
    · intro e
      rw [(h.shape.parent_eq_iff hi).mpr ⟨hint, e⟩]
  have hdistinct : (t.node i).child ≠ (t.node i).child - 1 := fun e => by
    have := congrArg BitVec.toNat e
    omega
  rw [child_slid hs, h.weight_slid hp hs, h.weight_after hp hs, h.weight_after hp hs]
  simp only [hnext, @eq_comm _ (t.node i).child (t.raisedSlot p q), @eq_comm _ ((t.node i).child - 1) (t.raisedSlot p q)]
  by_cases h₁ : t.raisedSlot p q = (t.node i).child
  · have h₂ : t.raisedSlot p q ≠ (t.node i).child - 1 := h₁ ▸ hdistinct
    simp only [h₁, hdistinct, true_or, if_true, if_false]
    omega
  · by_cases h₂ : t.raisedSlot p q = (t.node i).child - 1
    · simp only [h₂, or_true, if_true, if_false, hdistinct.symm]
      omega
    · simp only [h₁, h₂, or_false, if_false]
      omega

end

end Tree.Pending

end Sys2Proof.Machine
end

section
/-!
PROOFS. The chain and the deferred step (R88): from a pending increment the chain climbs to the root, counts one symbol
there, and leaves a well-formed tree but for the deferred leaf, which the deferred step increments in its slot.
-/

namespace Sys2Proof.Machine

open Sys2Proof.Config

namespace Tree.Pending

section
variable {c : WBits} {t t' : Tree} {p d q : Slot} (h : t.Pending c p d) (hp : p ≠ noSlot) (hs : t.Slid p q t')
include h hp hs

/-- The deferred leaf is below everything that moves. -/
theorem deferred_after (hd : d ≠ noSlot) : slideTo p q d = d ∧ (t'.node d).kind = .leaf ∧
    (t'.node d).weight = (t.node d).weight := by
  obtain ⟨_, _, hleaf, hdp, _⟩ := h.deferred hd
  have hfix := slideTo_of_outside (.inl hdp) hs.le
  have hnode := hs.node d
  rw [hfix, if_neg (by rintro rfl; omega)] at hnode
  exact ⟨hfix, by rw [hnode]; exact hleaf, by rw [hnode]⟩

/-- The slot whose weight has risen is one of the pair of children of the next node. -/
theorem raisedSlot_le_child (hnext : (t.node (t.raisedSlot p q)).parent.toNat ≤ 510) :
    p.toNat ≤ (t'.node (t.node (t.raisedSlot p q)).parent).child.toNat := by
  obtain ⟨hint, hpair⟩ := (h.shape.parent_eq_iff hnext).mp rfl
  have hpred := (h.shape.child_bounds hnext hint).2.2.2
  have hpm := (raisedSlot_mem hs.toLanding).1
  have hchild := child_slid hs (t.node (t.raisedSlot p q)).parent
  rw [h.slideTo_next hp hs] at hchild
  rw [hchild]
  generalize (t.node (t.node (t.raisedSlot p q)).parent).child = ch at *
  rcases hpair with e | e <;> rw [e] at hpm <;> omega

/-- Above the next node every INTERNAL node is heavier: its children stand above the next node's, and its sum holds. -/
theorem heavier_above_next (hshape : t'.Shape) {k : Slot} (hnk : (t.node (t.raisedSlot p q)).parent.toNat < k.toNat)
    (hk : k.toNat ≤ 510) (hint : (t'.node k).kind = .internal) :
    (t'.node (t.node (t.raisedSlot p q)).parent).weight.toNat < (t'.node k).weight.toNat := by
  have hcase := h.next_cases hp hs.toLanding
  have hpc := h.raisedSlot_le_child hp hs
  have hsumN := h.sums_after hp hs (t.node (t.raisedSlot p q)).parent
  have hsumK := h.sums_after hp hs k hk hint
  have hkind := kind_slid hs (t.node (t.raisedSlot p q)).parent
  rw [h.slideTo_next hp hs] at hkind
  generalize (t.node (t.raisedSlot p q)).parent = next at *
  rcases hcase with ⟨_, rfl⟩ | ⟨_, _, hnext, hnint⟩
  · rw [toNat_noSlot] at hnk
    omega
  have hnint' : (t'.node next).kind = .internal := hkind.trans hnint
  have hpc := hpc hnext
  have hsumN := hsumN hnext hnint'
  obtain ⟨hcodd, hclo, _, hcpred⟩ := hshape.child_bounds hnext hnint'
  obtain ⟨hkodd, _, hklt, hkpred⟩ := hshape.child_bounds hk hint
  have hord := hshape.childrenInOrder next k hnk hk hnint' hint
  have hnd : (t'.node next).child ≠ d := fun e => by
    by_cases hd : d = noSlot
    · exact slot_ne_noSlot (by omega) (e.trans hd)
    · have := (h.deferred hd).2.2.2.1
      rw [e] at hpc
      omega
  have hkn : k ≠ next := by rintro rfl; omega
  rw [if_pos rfl, if_neg hnd] at hsumN
  rw [if_neg hkn] at hsumK
  have ho := h.ordered_after hp hs
  have h₁ := ho.weight_le (i := (t'.node next).child - 1) (j := (t'.node next).child) (by omega) (by omega) (by omega)
  have h₂ := ho.weight_le (i := (t'.node next).child) (j := (t'.node k).child - 1) (by omega) (by omega) (by omega)
  have h₃ := ho.weight_le (i := (t'.node k).child - 1) (j := (t'.node k).child) (by omega) (by omega) (by omega)
  omega

/-- After the slide the increment of the next node is pending (R87, R88). -/
theorem pending_after (hshape : t'.Shape) : t'.Pending c (t.node (t.raisedSlot p q)).parent d := by
  have hpm := (raisedSlot_mem hs.toLanding).1
  have hpq := hs.le
  have hroot := h.weight_after hp hs root
  have hroom := h.room hp
  have hweight := h.weight_slid hp hs
  have hcase := h.next_cases hp hs.toLanding
  constructor
  case shape => exact hshape
  case ordered => exact h.ordered_after hp hs
  case fits => split at hroot <;> omega
  case room =>
    intro hne
    rw [if_neg fun e => (hcase.resolve_left fun hr => hne hr.2).1 e.symm] at hroot
    omega
  case sums => exact h.sums_after hp hs
  case start =>
    intro hne
    obtain ⟨_, hlt, hle, hint⟩ := hcase.resolve_left fun hr => hne hr.2
    have hkind := kind_slid hs (t.node (t.raisedSlot p q)).parent
    rw [h.slideTo_next hp hs] at hkind
    exact ⟨⟨by have := (h.inUse hp).1; rw [hs.lo]; omega, hle⟩, .inr (hkind.trans hint)⟩
  case above =>
    intro k hnk hk hint hle
    have := h.heavier_above_next hp hs hshape hnk hk hint
    omega
  case leafWeight =>
    refine forall_slideTo hs fun i hi hleaf _ hid => ?_
    rw [slideTo_le_iff hs] at hi
    rw [kind_slid hs] at hleaf
    rw [hweight]
    by_cases hip : i = p
    · rw [if_pos hip]; omega
    · have hid' : i ≠ d := fun e => hid (by
        rw [e]
        exact (h.deferred_after hp hs (e ▸ slot_ne_noSlot hi)).1)
      have := h.leafWeight i hi hleaf hip hid'
      omega
  case deferred =>
    intro hd
    obtain ⟨hnytp, hlo, _, hdp, hlight⟩ := h.deferred hd
    obtain ⟨hfix, hleaf, hw⟩ := h.deferred_after hp hs hd
    refine ⟨hs.nytp.trans hnytp, by rw [hs.lo]; exact hlo, hleaf, ?_, ?_⟩
    · have := (h.inUse hp).2
      rcases hcase with ⟨_, e⟩ | ⟨_, hlt, _⟩
      · rw [e, toNat_noSlot]; omega
      · omega
    · refine forall_slideTo hs fun i hdi hi hil => ?_
      rw [slideTo_le_iff hs] at hi
      rw [kind_slid hs] at hil
      have hdi' : d.toNat < i.toNat := by
        rw [toNat_slideTo] at hdi
        split_ifs at hdi <;> omega
      have := hlight i hdi' hi hil
      rw [hw, hweight]
      omega

end

/-- One step of the chain (R87, R88): it succeeds, goes up, and ends the chain exactly where it counts the root. -/
theorem step {c : WBits} {t : Tree} {p d : Slot} (h : t.Pending c p d) (hp : p ≠ noSlot) :
    ∃ t' next, t.slideAndIncrement c p = some (t', next) ∧ t'.Pending c next d ∧ p.toNat < next.toNat ∧
      (t'.node root).weight.toNat = (t.node root).weight.toNat + if next = noSlot then 1 else 0 := by
  obtain ⟨q, t', he, hs, hshape⟩ := h.slides hp
  have hpq := hs.le
  have hroot := h.weight_after hp hs root
  refine ⟨t', _, he, h.pending_after hp hs hshape, ?_, ?_⟩
  · have := (h.inUse hp).2
    rcases h.next_cases hp hs.toLanding with ⟨_, e⟩ | ⟨_, hlt, _⟩
    · rw [e, toNat_noSlot]; omega
    · omega
  · rcases h.next_cases hp hs.toLanding with ⟨hr, e⟩ | ⟨hr, _, hle, _⟩
    · rw [if_pos hr.symm] at hroot
      rw [if_pos e, hroot]
    · rw [if_neg (Ne.symm hr)] at hroot
      rw [if_neg (slot_ne_noSlot hle), hroot]

/-- The chain ends, and has counted one symbol at the root (R88). -/
theorem chain {c : WBits} {t : Tree} {p d : Slot} (h : t.Pending c p d) {n : Nat} (hn : 511 ≤ n + p.toNat) :
    ∃ t', Tree.chain c n p t = some t' ∧ t'.Pending c noSlot d ∧
      (t'.node root).weight.toNat = (t.node root).weight.toNat + if p = noSlot then 0 else 1 := by
  induction n generalizing t p with
  | zero =>
    obtain rfl : p = noSlot := BitVec.eq_of_toNat_eq (by have := p.isLt; rw [toNat_noSlot]; omega)
    exact ⟨t, if_pos rfl, h, by rw [if_pos rfl]; rfl⟩
  | succ n ih =>
    by_cases hp : p = noSlot
    · subst hp
      exact ⟨t, if_pos rfl, h, by rw [if_pos rfl]; rfl⟩
    · obtain ⟨t₁, next, he, h₁, hlt, hroot⟩ := h.step hp
      obtain ⟨t', hc, h', hroot'⟩ := ih h₁ (by omega)
      refine ⟨t', by rw [Tree.chain, if_neg hp, he]; exact hc, h', ?_⟩
      rw [hroot', hroot, if_neg hp]
      split <;> omega

/-- At the end of a chain without a deferred leaf the tree is well formed. -/
theorem wellFormed {c : WBits} {t : Tree} (h : t.Pending c noSlot noSlot) : t.WellFormed c := by
  refine h.shape.wellFormed h.ordered h.fits (fun k hk hint => ?_) fun i hi hleaf =>
    h.leafWeight i hi hleaf (slot_ne_noSlot hi) (slot_ne_noSlot hi)
  have hsum := h.sums k hk hint
  have hlt := (h.shape.child_bounds hk hint).2.2.1
  rwa [if_neg (slot_ne_noSlot hk), if_neg (slot_ne_noSlot (by omega))] at hsum

section
variable {c : WBits} {t : Tree} {d : Slot} (h : t.Pending c noSlot d) (hd : d ≠ noSlot)
include h hd

/-- The deferred leaf hangs below an INTERNAL slot that has been counted already, so it has headroom. -/
theorem deferred_lt_root : d.toNat < 510 ∧ (t.node d).weight.toNat < (t.node root).weight.toNat := by
  obtain ⟨_, hlo, hleaf, _, _⟩ := h.deferred hd
  have heven := h.shape.loEven
  have hdroot : d ≠ root := fun e => by
    have := congrArg BitVec.toNat e
    rw [toNat_root] at this
    omega
  have hd510 : d.toNat ≤ 510 := (slot_le_iff d).mpr hd
  have hdlt : d.toNat < 510 := Nat.lt_of_le_of_ne hd510 fun e => hdroot (BitVec.eq_of_toNat_eq e)
  obtain ⟨hlt, hle, hint, hpair⟩ := h.shape.parents d ⟨by omega, hd510⟩ hdroot
  have hodd := (h.shape.child_bounds hle hint).1
  have hchild : (t.node (t.node d).parent).child = d := BitVec.eq_of_toNat_eq (by omega)
  have hsum := h.sums _ hle hint
  rw [hchild, if_neg (slot_ne_noSlot hle), if_pos rfl] at hsum
  have := h.ordered.weight_le (j := root) (by omega) hle (Nat.le_refl 510)
  exact ⟨hdlt, by omega⟩

/-- The deferred leaf has its final slot: what stands above it stands above its new key too. -/
theorem deferred_landing : ∀ k : Slot, d.toNat < k.toNat → k.toNat ≤ 510 → (t.node d).key + 2 ≤ (t.node k).key := by
  obtain ⟨hnytp, hlo, hleaf, _, hlight⟩ := h.deferred hd
  obtain ⟨hdlt, _⟩ := h.deferred_lt_root hd
  have heven := h.shape.loEven
  have hkey : (t.node d).key = 2 * (t.node d).weight.toNat := Node.key_of_not_internal (by rw [hleaf]; decide)
  have hbase : ∀ k : Slot, k.toNat = d.toNat + 1 → (t.node d).key + 2 ≤ (t.node k).key := by
    intro k hk
    by_cases hint : (t.node k).kind = .internal
    · obtain ⟨hodd, hclo, hclt, _⟩ := h.shape.child_bounds (by omega) hint
      have hsum := h.sums k (by omega) hint
      have hchild : (t.node k).child = d := BitVec.eq_of_toNat_eq (by omega)
      rw [hchild, if_neg (slot_ne_noSlot (by omega)), if_pos rfl] at hsum
      rw [Node.key_of_internal hint]
      omega
    · have hkl : (t.node k).kind = .leaf := by
        rcases (h.shape.isLeaf_iff ⟨by omega, by omega⟩).mpr hint with hk' | hk'
        · exact hk'
        · have := (h.shape.nytOnly k (by omega) hk').2
          rw [this] at hk
          omega
      have := hlight k (by omega) (by omega) hkl
      rw [Node.key_of_not_internal hint]
      omega
  intro k hdk hk
  have hsucc := toNat_slot_succ (i := d) (by omega)
  have := hbase (d + 1) hsucc
  have := h.ordered.key_le (i := d + 1) (j := k) (by omega) (by omega) hk
  omega

/-- The deferred step increments the deferred leaf in its slot and leaves a well-formed tree (R88). -/
theorem deferredStep_of_ne : ∃ t', Tree.deferredStep c d t = some t' ∧ t'.WellFormed c ∧
    (t'.node root).weight = (t.node root).weight := by
  obtain ⟨_, hlo, hleaf, _, _⟩ := h.deferred hd
  obtain ⟨hdlt, hwd⟩ := h.deferred_lt_root hd
  have hfits := h.fits
  have habove := h.deferred_landing hd
  have hnotint : (t.node d).kind ≠ .internal := by rw [hleaf]; decide
  obtain ⟨hsucc, hnat⟩ := weightSucc_of_lt (c := c) (w := (t.node d).weight) (by omega)
  have hslide : t.slideFrom d (weightSucc c (t.node d).weight) (t.node d).kind.cls 511 d = some d := by
    rw [Tree.slideFrom, if_neg]
    rintro ⟨_, hbelow⟩
    have := habove (d + 1) (by rw [toNat_slot_succ (by omega)]; omega) (by rw [toNat_slot_succ (by omega)]; omega)
    rw [Tree.keyBelow_iff_key_lt, hsucc, hnat, if_neg hnotint] at hbelow
    rw [Node.key_of_not_internal hnotint] at this
    omega
  have hnode := t.node_setWeight hd ((t.node d).weight + 1)
  have hshape := h.shape.setWeight hdlt.le (.inl hleaf) ((t.node d).weight + 1)
  have hlo' : (t.setWeight d ((t.node d).weight + 1)).lo = t.lo := by simp [Tree.setWeight]
  have hkind : ∀ i, ((t.setWeight d ((t.node d).weight + 1)).node i).kind = (t.node i).kind := fun i => by
    rw [hnode]; split <;> rfl
  have hchild : ∀ i, ((t.setWeight d ((t.node d).weight + 1)).node i).child = (t.node i).child := fun i => by
    rw [hnode]; split <;> rfl
  have hweight : ∀ i, ((t.setWeight d ((t.node d).weight + 1)).node i).weight.toNat =
      (t.node i).weight.toNat + if i = d then 1 else 0 := fun i => by
    rw [hnode]
    split
    · rename_i e
      rw [e]
      exact hnat
    · rfl
  have hrootne : root ≠ d := by rintro rfl; exact absurd hdlt (by decide)
  have hrootw : ((t.setWeight d ((t.node d).weight + 1)).node root).weight = (t.node root).weight := by
    rw [hnode, if_neg hrootne]
  refine ⟨t.setWeight d ((t.node d).weight + 1), ?_, hshape.wellFormed ?_ (by rw [hrootw]; exact hfits) ?_ ?_, hrootw⟩
  · rw [Tree.deferredStep, if_neg hd, Tree.slideAndIncrement]
    dsimp only
    rw [if_pos (.inl hleaf), hslide, hsucc]
    simp [Tree.rotate]
  · intro i j hi hij hj
    rw [hlo'] at hi
    have hle := h.ordered i j hi hij hj
    have hkey : ∀ k, ((t.setWeight d ((t.node d).weight + 1)).node k).key = (t.node k).key + if k = d then 2 else 0 :=
      fun k => by
        rw [Node.key, Node.key, hweight, hkind]
        split <;> split <;> omega
    rw [hkey, hkey]
    by_cases e : i = d
    · subst e
      have := habove j hij hj
      rw [if_pos rfl]
      omega
    · rw [if_neg e]
      omega
  · intro k hk hint
    rw [hkind] at hint
    obtain ⟨hodd, _, hclt, hpred⟩ := h.shape.child_bounds hk hint
    have hsum := h.sums k hk hint
    have hkd : k ≠ d := fun e => hnotint (e ▸ hint)
    have heven := h.shape.loEven
    have hpd : (t.node k).child - 1 ≠ d := fun e => by
      have := congrArg BitVec.toNat e
      omega
    rw [if_neg (slot_ne_noSlot hk)] at hsum
    rw [hchild, hweight, hweight, hweight, if_neg hkd, if_neg hpd]
    omega
  · intro i hi hil
    rw [hkind] at hil
    rw [hweight]
    by_cases e : i = d
    · rw [if_pos e]; omega
    · have := h.leafWeight i hi hil (slot_ne_noSlot hi) e
      omega

end

/-- From the start of an update to its end (R81, R88): the update succeeds, leaves a well-formed tree, and counts one symbol
at the root. -/
theorem finish {c : WBits} {t : Tree} {p d : Slot} (h : t.Pending c p d) (hp : p ≠ noSlot) :
    ∃ t', (Tree.chain c 512 p t).bind (Tree.deferredStep c d) = some t' ∧ t'.WellFormed c ∧
      (t'.node root).weight.toNat = (t.node root).weight.toNat + 1 := by
  obtain ⟨t₁, hchain, h₁, hroot⟩ := h.chain (n := 512) (by omega)
  rw [if_neg hp] at hroot
  rw [hchain, Option.bind_some]
  by_cases hd : d = noSlot
  · subst hd
    exact ⟨t₁, if_pos rfl, h₁.wellFormed, hroot⟩
  · obtain ⟨t', hdefer, hwf, hsame⟩ := h₁.deferredStep_of_ne hd
    exact ⟨t', hdefer, hwf, by rw [hsame, hroot]⟩

end Tree.Pending

end Sys2Proof.Machine
end

section
/-!
PROOFS. The start of an update (R81, R83 to R86) leaves a pending increment, whichever way the symbol takes: `Split`,
`Absorb`, or the leader swap. With the chain and the deferred step, an update of a well-formed tree with headroom succeeds
and leaves a well-formed tree.
-/

namespace Sys2Proof.Machine

open Sys2Proof.Config

/-! ## Weights of a well-formed tree -/

/-- In a well-formed tree the NYT alone has weight 0 (R36). -/
theorem Tree.WellFormed.weight_pos {c : WBits} {t : Tree} (h : t.WellFormed c) {i : Slot} (hi : t.inUse i)
    (hnyt : ¬ (t.nytp = true ∧ i = t.lo)) : 1 ≤ (t.node i).weight.toNat := by
  induction hn : i.toNat using Nat.strong_induction_on generalizing i with
  | _ n ih =>
    have hused := h.shape.kind_ne_unused hi
    cases hk : (t.node i).kind
    case unused => exact absurd hk hused
    case leaf => exact h.leafWeight i hi.2 hk
    case nyt => exact absurd (h.nytOnly i hi.2 hk) hnyt
    case internal =>
      obtain ⟨_, hlo, hlt, _⟩ := h.shape.child_bounds hi.2 hk
      have := hi.2
      have := ih _ (by omega) (i := (t.node i).child) ⟨hlo.le, by omega⟩ (fun e => by rw [e.2] at hlo; omega) rfl
      rw [h.sums i hi.2 hk]
      omega

/-- The NYT has the canonical content of R20. -/
theorem Tree.Shape.nyt_canonical {t : Tree} (h : t.Shape) (hnytp : t.nytp = true) :
    (t.node t.lo).kind = .nyt ∧ (t.node t.lo).weight = 0 ∧ (t.node t.lo).sym = 0 ∧ (t.node t.lo).child = noSlot := by
  have hk := h.nytAtLo hnytp
  have hc := h.canonical t.lo h.loEven.2
  rw [Node.Canonical, hk] at hc
  exact ⟨hk, hc⟩

/-- A first slot for an unseen symbol is one more symbol seen (R25). -/
theorem Tree.countP_setSlotOf {t : Tree} {y : Symbol} {i : Slot} (hy : t.slotOfSym y = noSlot) (hi : i ≠ noSlot) :
    (t.setSlotOf y i).slotOf.countP (fun i => i != noSlot) = t.slotOf.countP (fun i => i != noSlot) + 1 := by
  rw [Tree.setSlotOf, Vector.countP_set, show t.slotOf[y.toNat] = noSlot from hy]
  simp [hi]

/-! ## `Split` (R83) -/

/-- The tree `t'` is `t` after `Split(y)`: the NYT has become an INTERNAL node with the new leaf and the new NYT below it. -/
structure Tree.IsSplit (t : Tree) (y : Symbol) (t' : Tree) : Prop where
  node : ∀ i : Slot, t'.node i =
    if i = t.lo then { t.node i with kind := .internal, child := t.lo - 1 }
    else if i = t.lo - 1 then ⟨0, .leaf, y, noSlot, t.lo⟩
    else if i = t.lo - 2 then ⟨0, .nyt, 0, noSlot, t.lo⟩ else t.node i
  slotOf : t'.slotOf = (t.setSlotOf y (t.lo - 1)).slotOf
  lo : t'.lo = t.lo - 2
  nytp : t'.nytp = t.nytp

theorem toNat_slot_pred_two {i : Slot} (h : 2 ≤ i.toNat) : (i - 2).toNat = i.toNat - 2 := by
  have := i.isLt
  rw [BitVec.toNat_sub, show (2 : Slot).toNat = 2 from rfl]
  omega

theorem Tree.split_isSplit (t : Tree) (y : Symbol) (hlo : 2 ≤ t.lo.toNat) (hlo' : t.lo.toNat ≤ 510) :
    ∃ t', t.split y = some ⟨t', t.lo, t.lo - 1⟩ ∧ t.IsSplit y t' := by
  have hpred := toNat_slot_pred (i := t.lo) (by omega)
  have hpred2 := toNat_slot_pred_two hlo
  have hguard : ¬ (t.lo.toNat < 2 ∨ t.lo = noSlot) := not_or.mpr ⟨by omega, slot_ne_noSlot hlo'⟩
  refine ⟨_, by rw [Tree.split]; exact if_neg hguard, fun i => ?_, ?_, rfl, ?_⟩
  · have h₀ : t.lo ≠ noSlot := slot_ne_noSlot hlo'
    have h₁ : t.lo - 1 ≠ noSlot := slot_ne_noSlot (by omega)
    have h₂ : t.lo - 2 ≠ noSlot := slot_ne_noSlot (by omega)
    rw [Tree.node_withLo, Tree.node_setSlotOf]
    simp only [Tree.node_modify, h₀, h₁, h₂, ne_eq, not_false_eq_true, and_true, @eq_comm _ (t.lo - 1) i,
      @eq_comm _ (t.lo - 2) i, @eq_comm _ t.lo i]
    by_cases e : i = t.lo
    · have e₁ : i ≠ t.lo - 1 := by rintro rfl; rw [← BitVec.toNat_inj] at e; omega
      have e₂ : i ≠ t.lo - 2 := by rintro rfl; rw [← BitVec.toNat_inj] at e; omega
      rw [if_neg e₁, if_neg e₂, if_pos e, if_pos e]
    · simp only [e, if_false]
  · simp [Tree.setSlotOf]
  · simp [Tree.setSlotOf]

/-- The five places a slot can have relative to the split. -/
theorem split_slot_cases {t : Tree} (hlo : 2 ≤ t.lo.toNat) (i : Slot) : i.toNat < t.lo.toNat - 2 ∨ i = t.lo - 2 ∨
    i = t.lo - 1 ∨ i = t.lo ∨ t.lo.toNat < i.toNat := by
  simp only [← BitVec.toNat_inj, toNat_slot_pred (i := t.lo) (by omega), toNat_slot_pred_two hlo]
  omega

namespace Tree.IsSplit

section
variable {t t' : Tree} {y : Symbol} (h : t.Shape) (hs : t.IsSplit y t') (hlo : 2 ≤ t.lo.toNat)
include hs

theorem slotOfSym (z : Symbol) : t'.slotOfSym z = if y = z then t.lo - 1 else t.slotOfSym z := by
  rw [← Tree.slotOfSym_setSlotOf, Tree.slotOfSym, Tree.slotOfSym, hs.slotOf]

theorem node_lo : t'.node t.lo = { t.node t.lo with kind := .internal, child := t.lo - 1 } := by
  rw [hs.node, if_pos rfl]

include hlo

theorem node_leaf : t'.node (t.lo - 1) = ⟨0, .leaf, y, noSlot, t.lo⟩ := by
  have hpred := toNat_slot_pred (i := t.lo) (by omega)
  rw [hs.node, if_neg (fun e => by have := congrArg BitVec.toNat e; omega), if_pos rfl]

theorem node_nyt : t'.node (t.lo - 2) = ⟨0, .nyt, 0, noSlot, t.lo⟩ := by
  have hpred := toNat_slot_pred (i := t.lo) (by omega)
  have hpred2 := toNat_slot_pred_two hlo
  rw [hs.node, if_neg (fun e => by have := congrArg BitVec.toNat e; omega),
    if_neg (fun e => by have := congrArg BitVec.toNat e; omega), if_pos rfl]

theorem node_of_outside {i : Slot} (hi : i.toNat < t.lo.toNat - 2 ∨ t.lo.toNat < i.toNat) : t'.node i = t.node i := by
  have hpred := toNat_slot_pred (i := t.lo) (by omega)
  have hpred2 := toNat_slot_pred_two hlo
  rw [hs.node, if_neg (by rintro rfl; omega), if_neg (by rintro rfl; omega), if_neg (by rintro rfl; omega)]

/-- The old slots keep weight, SYM and PARENT; only the old NYT changes its KIND and CHILD. -/
theorem kept_of_ge {i : Slot} (hi : t.lo.toNat ≤ i.toNat) :
    (t'.node i).weight = (t.node i).weight ∧ (t'.node i).parent = (t.node i).parent := by
  rcases Nat.lt_or_eq_of_le hi with hlt | heq
  · rw [hs.node_of_outside hlo (.inr hlt)]; exact ⟨rfl, rfl⟩
  · obtain rfl := BitVec.eq_of_toNat_eq heq
    rw [hs.node_lo]; exact ⟨rfl, rfl⟩

include h

theorem internal_cases {i : Slot} (hi : i.toNat ≤ 510) (hk : (t'.node i).kind = .internal) :
    i = t.lo ∨ (t.lo.toNat < i.toNat ∧ (t.node i).kind = .internal ∧ t'.node i = t.node i) := by
  rcases split_slot_cases hlo i with hlt | rfl | rfl | rfl | hgt
  · rw [hs.node_of_outside hlo (.inl hlt), (h.used i hi).mpr (by omega)] at hk
    cases hk
  · rw [hs.node_nyt hlo] at hk; cases hk
  · rw [hs.node_leaf hlo] at hk; cases hk
  · exact .inl rfl
  · have e := hs.node_of_outside hlo (.inr hgt)
    exact .inr ⟨hgt, e ▸ hk, e⟩

theorem leaf_cases {i : Slot} (hi : i.toNat ≤ 510) (hk : (t'.node i).kind = .leaf) :
    i = t.lo - 1 ∨ (t.lo.toNat < i.toNat ∧ (t.node i).kind = .leaf ∧ t'.node i = t.node i) := by
  rcases split_slot_cases hlo i with hlt | rfl | rfl | rfl | hgt
  · rw [hs.node_of_outside hlo (.inl hlt), (h.used i hi).mpr (by omega)] at hk
    cases hk
  · rw [hs.node_nyt hlo] at hk; cases hk
  · exact .inl rfl
  · rw [hs.node_lo] at hk; cases hk
  · have e := hs.node_of_outside hlo (.inr hgt)
    exact .inr ⟨hgt, e ▸ hk, e⟩

theorem shape (hnytp : t.nytp = true) (hy : t.slotOfSym y = noSlot) : t'.Shape := by
  have heven := h.loEven
  have hpred := toNat_slot_pred (i := t.lo) (by omega)
  have hpred2 := toNat_slot_pred_two hlo
  have hlo' : t'.lo.toNat = t.lo.toNat - 2 := by rw [hs.lo, hpred2]
  obtain ⟨hnk, hnw, hns, hnc⟩ := h.nyt_canonical hnytp
  constructor
  case loEven => omega
  case used =>
    intro i hi
    rw [hlo']
    rcases split_slot_cases hlo i with hlt | rfl | rfl | rfl | hgt
    · rw [hs.node_of_outside hlo (.inl hlt), h.used i hi]; omega
    · rw [hs.node_nyt hlo, hpred2]; simp
    · rw [hs.node_leaf hlo, hpred]; simp; omega
    · rw [hs.node_lo]; simp
    · rw [hs.node_of_outside hlo (.inr hgt), h.used i hi]; omega
  case canonical =>
    intro i hi
    rcases split_slot_cases hlo i with hlt | rfl | rfl | rfl | hgt
    · rw [hs.node_of_outside hlo (.inl hlt)]; exact h.canonical i hi
    · rw [hs.node_nyt hlo]; exact ⟨rfl, rfl, rfl⟩
    · rw [hs.node_leaf hlo]; rfl
    · rw [hs.node_lo]; exact hns
    · rw [hs.node_of_outside hlo (.inr hgt)]; exact h.canonical i hi
  case children =>
    intro p hp hk
    rcases internal_cases h hs hlo hp hk with rfl | ⟨hgt, hk', e⟩
    · have hl := hs.node_leaf hlo
      have hn := hs.node_nyt hlo
      have hsub : t.lo - 1 - 1 = t.lo - 2 := BitVec.eq_of_toNat_eq (by rw [toNat_slot_pred (by omega), hpred, hpred2]; omega)
      rw [hs.node_lo]
      dsimp only
      rw [hsub, hl, hn, hpred, hlo']
      exact ⟨by omega, by omega, by omega, rfl, rfl⟩
    · obtain ⟨hodd, hlt, hlo₁, hpar, hpar'⟩ := h.children p hp hk'
      have hcpred := toNat_slot_pred (i := (t.node p).child) (by omega)
      rw [e, (kept_of_ge hs hlo hlo₁.le).2, (kept_of_ge hs hlo (i := (t.node p).child - 1) (by omega)).2]
      exact ⟨hodd, hlt, by omega, hpar, hpar'⟩
  case rootParent => rw [(kept_of_ge hs hlo (i := root) heven.2).2]; exact h.rootParent
  case parents =>
    intro i hi hroot
    rw [Tree.inUse, hlo'] at hi
    rcases split_slot_cases hlo i with hlt | rfl | rfl | rfl | hgt
    · omega
    · rw [hs.node_nyt hlo]
      dsimp only
      rw [hs.node_lo]
      exact ⟨by omega, heven.2, rfl, by dsimp only; omega⟩
    · rw [hs.node_leaf hlo]
      dsimp only
      rw [hs.node_lo]
      exact ⟨by omega, heven.2, rfl, rfl⟩
    · obtain ⟨hlt, hle, hint, hpair⟩ := h.parents t.lo ⟨Nat.le_refl _, heven.2⟩ hroot
      rw [(kept_of_ge hs hlo (Nat.le_refl _)).2, hs.node_of_outside hlo (.inr hlt)]
      exact ⟨hlt, hle, hint, hpair⟩
    · obtain ⟨hlt, hle, hint, hpair⟩ := h.parents i ⟨hgt.le, hi.2⟩ hroot
      rw [hs.node_of_outside hlo (.inr hgt), hs.node_of_outside hlo (.inr <| hgt.trans hlt)]
      exact ⟨hlt, hle, hint, hpair⟩
  case childrenInOrder =>
    intro p q hpq hq hp hqk
    have hp510 : p.toNat ≤ 510 := by omega
    rcases internal_cases h hs hlo hq hqk with rfl | ⟨_, hqk', eq⟩ <;>
      rcases internal_cases h hs hlo hp510 hp with rfl | ⟨_, hpk', ep⟩
    · omega
    · omega
    · have := (h.child_bounds hq hqk').2.1
      rw [hs.node_lo, eq]
      dsimp only
      omega
    · rw [ep, eq]
      exact h.childrenInOrder p q hpq hq hpk' hqk'
  case nytAtLo => intro _; rw [hs.lo, hs.node_nyt hlo]
  case nytOnly =>
    intro i hi hk
    rcases split_slot_cases hlo i with hlt | rfl | rfl | rfl | hgt
    · rw [hs.node_of_outside hlo (.inl hlt), (h.used i hi).mpr (by omega)] at hk; cases hk
    · exact ⟨hs.nytp.trans hnytp, hs.lo.symm⟩
    · rw [hs.node_leaf hlo] at hk; cases hk
    · rw [hs.node_lo] at hk; cases hk
    · rw [hs.node_of_outside hlo (.inr hgt)] at hk
      rw [(h.nytOnly i hi hk).2] at hgt
      omega
  case fullWithoutNyt => intro e; rw [hs.nytp, hnytp] at e; cases e
  case slotOfLeaf =>
    intro i hi hk
    rw [hs.slotOfSym]
    rcases leaf_cases h hs hlo hi hk with rfl | ⟨_, hk', e⟩
    · rw [hs.node_leaf hlo, if_pos rfl]
    · have hslot := h.slotOfLeaf i hi hk'
      rw [e, if_neg (fun ey => slot_ne_noSlot hi (by rw [← hslot, ← ey, hy])), hslot]
  case leafOfSlot =>
    intro z
    rw [hs.slotOfSym]
    by_cases hz : y = z
    · rw [if_pos hz, hs.node_leaf hlo]
      exact .inr ⟨by omega, rfl, hz⟩
    · rw [if_neg hz]
      rcases h.leafOfSlot z with e | ⟨hle, hk, hsym⟩
      · exact .inl e
      · have hne : t.lo ≠ t.slotOfSym z := fun e => by rw [← e, hnk] at hk; cases hk
        have huse := h.inUse_of_kind hle (by rw [hk]; decide)
        rw [hs.node_of_outside hlo (.inr <| Nat.lt_of_le_of_ne huse.1 fun e => hne (BitVec.eq_of_toNat_eq e))]
        exact .inr ⟨hle, hk, hsym⟩
  case seenCounts =>
    rw [hs.slotOf, Tree.countP_setSlotOf hy (slot_ne_noSlot (by omega)), h.seenCounts, Tree.seenCount, Tree.seenCount,
      hlo', hs.nytp]
    omega

end

end Tree.IsSplit

/-- After `Split` the INTERNAL node that was the NYT is pending and the new leaf deferred (R83). -/
theorem Tree.IsSplit.pending {c : WBits} {t t' : Tree} {y : Symbol} (h : t.WellFormed c) (hs : t.IsSplit y t')
    (hnytp : t.nytp = true) (hlo : 2 ≤ t.lo.toNat) (hy : t.slotOfSym y = noSlot)
    (hroom : (t.node root).weight.toNat < 2 ^ c.bits - 1) :
    t'.Pending c t.lo (t.lo - 1) ∧ (t'.node root).weight = (t.node root).weight := by
  have hsh := h.shape
  have heven := h.loEven
  have hpred := toNat_slot_pred (i := t.lo) (by omega)
  have hpred2 := toNat_slot_pred_two hlo
  have hlo' : t'.lo.toNat = t.lo.toNat - 2 := by rw [hs.lo, hpred2]
  obtain ⟨hnk, hnw, _, _⟩ := hsh.nyt_canonical hnytp
  have hlw : (t'.node t.lo).weight.toNat = 0 := by rw [hs.node_lo]; exact congrArg BitVec.toNat hnw
  have hroot := (hs.kept_of_ge hlo (i := root) heven.2).1
  have hpos : ∀ i : Slot, t.lo.toNat < i.toNat → i.toNat ≤ 510 → 1 ≤ (t.node i).weight.toNat := fun i hi hi' =>
    h.weight_pos ⟨hi.le, hi'⟩ fun e => by rw [e.2] at hi; omega
  refine ⟨?_, hroot⟩
  constructor
  case shape => exact hs.shape hsh hlo hnytp hy
  case ordered =>
    have hlow : ∀ i : Slot, t'.lo.toNat ≤ i.toNat → i.toNat ≤ t.lo.toNat →
        (t'.node i).key = if i.toNat = t.lo.toNat then 1 else 0 := fun i hi hi' => by
      rcases split_slot_cases hlo i with hlt | rfl | rfl | rfl | hgt
      · omega
      · rw [hs.node_nyt hlo, if_neg (by omega)]; rfl
      · rw [hs.node_leaf hlo, if_neg (by omega)]; rfl
      · rw [Node.key_of_internal (by rw [hs.node_lo]), hlw, if_pos rfl]
      · omega
    intro i j hi hij hj
    by_cases hj' : t.lo.toNat < j.toNat
    · rw [hs.node_of_outside hlo (.inr hj')]
      by_cases hi' : t.lo.toNat < i.toNat
      · rw [hs.node_of_outside hlo (.inr hi')]
        exact h.keysOrdered i j hi'.le hij hj
      · have := hlow i hi (by omega)
        have := hpos j hj' hj
        have := (t.node j).key_bounds
        split at * <;> omega
    · rw [hlow i hi (by omega), hlow j (by omega) (by omega)]
      split <;> split <;> omega
  case fits => rw [hroot]; exact h.fits root
  case room => intro _; rw [hroot]; exact hroom
  case sums =>
    intro k hk hint
    rcases hs.internal_cases hsh hlo hk hint with rfl | ⟨hgt, hint', e⟩
    · have hl := hs.node_leaf hlo
      have hn := hs.node_nyt hlo
      have hsub : t.lo - 1 - 1 = t.lo - 2 := BitVec.eq_of_toNat_eq (by rw [toNat_slot_pred (by omega), hpred, hpred2]; omega)
      rw [hlw, show (t'.node t.lo).child = t.lo - 1 by rw [hs.node_lo], hsub, hl, hn]
      simp
    · obtain ⟨_, hclo, _, hcpred⟩ := hsh.child_bounds hk hint'
      have hk' : k ≠ t.lo := by rintro rfl; omega
      have hc' : (t.node k).child ≠ t.lo - 1 := fun e => by rw [e] at hclo; omega
      rw [e, (hs.kept_of_ge hlo hclo.le).1,
        (hs.kept_of_ge hlo (i := (t.node k).child - 1) (by omega)).1, if_neg hk', if_neg hc']
      exact h.sums k hk hint'
  case start =>
    intro _
    exact ⟨⟨by omega, heven.2⟩, .inr (by rw [hs.node_lo])⟩
  case above =>
    intro k hgt hk hint hle
    have := hpos k hgt hk
    rw [hs.node_of_outside hlo (.inr hgt), hlw] at hle
    omega
  case leafWeight =>
    intro i hi hk hne hned
    rcases hs.leaf_cases hsh hlo hi hk with e | ⟨hgt, _, e⟩
    · exact absurd e hned
    · rw [e]
      exact hpos i hgt hi
  case deferred =>
    intro _
    have hl := hs.node_leaf hlo
    refine ⟨hs.nytp.trans hnytp, by omega, by rw [hl], by omega, fun i hdi hi hk => ?_⟩
    rcases hs.leaf_cases hsh hlo hi hk with rfl | ⟨hgt, _, e⟩
    · omega
    · rw [e, hl]
      exact hpos i hgt hi

/-! ## `Absorb` (R84) -/

/-- The tree `t'` is `t` after `Absorb(y)`: the NYT in slot 0 has become the leaf of `y`. -/
structure Tree.IsAbsorb (t : Tree) (y : Symbol) (t' : Tree) : Prop where
  node : ∀ i : Slot, t'.node i = if i = 0 then { t.node i with kind := .leaf, sym := y } else t.node i
  slotOf : t'.slotOf = (t.setSlotOf y 0).slotOf
  lo : t'.lo = t.lo
  nytp : t'.nytp = false

theorem Tree.absorb_isAbsorb (t : Tree) (y : Symbol) : t.IsAbsorb y (t.absorb y).tree where
  node := by
    intro i
    have hz : (0 : Slot) ≠ noSlot := by decide
    rw [Tree.absorb, Tree.node_withNytp, Tree.node_setSlotOf, Tree.node_modify]
    simp only [hz, ne_eq, not_false_eq_true, and_true, @eq_comm _ (0 : Slot) i]
  slotOf := by simp [Tree.absorb, Tree.setSlotOf]
  lo := by simp [Tree.absorb]
  nytp := rfl

namespace Tree.IsAbsorb

section
variable {t t' : Tree} {y : Symbol} (h : t.Shape) (hs : t.IsAbsorb y t') (hnytp : t.nytp = true)
  (hlo : t.lo = 0) (hy : t.slotOfSym y = noSlot)
include hs

theorem node_zero : t'.node 0 = { t.node 0 with kind := .leaf, sym := y } := by rw [hs.node, if_pos rfl]

theorem node_of_ne {i : Slot} (hi : i ≠ 0) : t'.node i = t.node i := by rw [hs.node, if_neg hi]

theorem kept (i : Slot) : (t'.node i).weight = (t.node i).weight ∧ (t'.node i).child = (t.node i).child ∧
    (t'.node i).parent = (t.node i).parent := by
  rw [hs.node]
  split <;> exact ⟨rfl, rfl, rfl⟩

theorem slotOfSym (z : Symbol) : t'.slotOfSym z = if y = z then 0 else t.slotOfSym z := by
  rw [← Tree.slotOfSym_setSlotOf, Tree.slotOfSym, Tree.slotOfSym, hs.slotOf]

include h hnytp hlo

theorem internal_iff (i : Slot) : (t'.node i).kind = .internal ↔ (t.node i).kind = .internal := by
  by_cases hi : i = 0
  · have hk := h.nytAtLo hnytp
    rw [hlo] at hk
    rw [hi, hs.node_zero, hk]
    simp
  · rw [hs.node_of_ne hi]

include hy

theorem shape : t'.Shape := by
  obtain ⟨hnk, _, _, hnc⟩ := h.nyt_canonical hnytp
  rw [hlo] at hnk hnc
  have hint := internal_iff h hs hnytp hlo
  constructor
  case loEven => rw [hs.lo]; exact h.loEven
  case used =>
    intro i hi
    rw [hs.lo, ← h.used i hi]
    by_cases hz : i = 0
    · rw [hz, hs.node_zero, hnk]; simp
    · rw [hs.node_of_ne hz]
  case canonical =>
    intro i hi
    by_cases hz : i = 0
    · rw [hz, hs.node_zero]; exact hnc
    · rw [hs.node_of_ne hz]; exact h.canonical i hi
  case children =>
    intro p hp hk
    rw [(hs.kept p).2.1, (hs.kept _).2.2, (hs.kept _).2.2, hs.lo]
    exact h.children p hp ((hint p).mp hk)
  case rootParent => rw [(hs.kept _).2.2]; exact h.rootParent
  case parents =>
    intro i hi hroot
    rw [Tree.inUse, hs.lo] at hi
    rw [(hs.kept i).2.2, (hs.kept _).2.1, hint]
    exact h.parents i hi hroot
  case childrenInOrder =>
    intro p q hpq hq hp hqk
    rw [(hs.kept p).2.1, (hs.kept q).2.1]
    exact h.childrenInOrder p q hpq hq ((hint p).mp hp) ((hint q).mp hqk)
  case nytAtLo => intro e; rw [hs.nytp] at e; cases e
  case nytOnly =>
    intro i hi hk
    by_cases hz : i = 0
    · rw [hz, hs.node_zero] at hk; cases hk
    · rw [hs.node_of_ne hz] at hk
      exact absurd ((h.nytOnly i hi hk).2.trans hlo) hz
  case fullWithoutNyt => intro _; rw [hs.lo, hlo]
  case slotOfLeaf =>
    intro i hi hk
    rw [hs.slotOfSym]
    by_cases hz : i = 0
    · rw [hz, hs.node_zero, if_pos rfl]
    · rw [hs.node_of_ne hz] at hk ⊢
      have hslot := h.slotOfLeaf i hi hk
      rw [if_neg (fun ey => slot_ne_noSlot hi (by rw [← hslot, ← ey, hy])), hslot]
  case leafOfSlot =>
    intro z
    rw [hs.slotOfSym]
    by_cases hz : y = z
    · rw [if_pos hz, hs.node_zero]
      exact .inr ⟨by decide, rfl, hz⟩
    · rw [if_neg hz]
      rcases h.leafOfSlot z with e | ⟨hle, hk, hsym⟩
      · exact .inl e
      · have hne : t.slotOfSym z ≠ 0 := fun e => by rw [e, hnk] at hk; cases hk
        rw [hs.node_of_ne hne]
        exact .inr ⟨hle, hk, hsym⟩
  case seenCounts =>
    rw [hs.slotOf, Tree.countP_setSlotOf hy (by decide), h.seenCounts, Tree.seenCount, Tree.seenCount, hs.lo, hs.nytp,
      hnytp]
    rfl

end

end Tree.IsAbsorb

/-- After `Absorb` the leaf in slot 0 is pending and nothing is deferred (R84). -/
theorem Tree.IsAbsorb.pending {c : WBits} {t t' : Tree} {y : Symbol} (h : t.WellFormed c) (hs : t.IsAbsorb y t')
    (hnytp : t.nytp = true) (hlo : t.lo = 0) (hy : t.slotOfSym y = noSlot)
    (hroom : (t.node root).weight.toNat < 2 ^ c.bits - 1) : t'.Pending c 0 noSlot := by
  have hsh := h.shape
  obtain ⟨hnk, hnw, _, _⟩ := hsh.nyt_canonical hnytp
  rw [hlo] at hnk hnw
  have hint := hs.internal_iff hsh hnytp hlo
  have hweight := fun i => (hs.kept i).1
  constructor
  case shape => exact hs.shape hsh hnytp hlo hy
  case ordered =>
    intro i j hi hij hj
    rw [hs.lo] at hi
    simp only [Node.key, hweight, hint]
    exact h.keysOrdered i j hi hij hj
  case fits => rw [hweight]; exact h.fits root
  case room => intro _; rw [hweight]; exact hroom
  case sums =>
    intro k hk hkint
    have hkint' := (hint k).mp hkint
    have hclt := (hsh.child_bounds hk hkint').2.2.1
    have hk0 : k ≠ 0 := by rintro rfl; rw [hnk] at hkint'; cases hkint'
    rw [(hs.kept k).2.1, hweight, hweight, hweight, if_neg hk0, if_neg (slot_ne_noSlot (by omega))]
    exact h.sums k hk hkint'
  case start =>
    intro _
    exact ⟨⟨by rw [hs.lo, hlo], by decide⟩, .inl (by rw [hs.node_zero])⟩
  case above =>
    intro k hgt hk _ hle
    have := h.weight_pos (i := k) ⟨by rw [hlo]; exact hgt.le, hk⟩ fun e => by rw [e.2, hlo] at hgt; omega
    rw [hweight, hweight, hnw, show (0 : Word).toNat = 0 from rfl] at hle
    omega
  case leafWeight =>
    intro i hi hk hne _
    rw [hs.node_of_ne hne] at hk ⊢
    exact h.leafWeight i hi hk
  case deferred => intro e; exact absurd rfl e

end Sys2Proof.Machine
end

section
/-!
PROOFS. A symbol seen before (R81, R85, R86, R89), and the whole update: on a well-formed tree with headroom it succeeds and
leaves a well-formed tree.
-/

namespace Sys2Proof.Machine

open Sys2Proof.Config

/-! ## The leader and the leader swap (R89) -/

/-- The climb to the leader ends at the top of the run of slots with the KIND and the weight of slot `q` (R37, R89). -/
theorem Tree.leaderFrom_top (t : Tree) (q : Slot) {fuel : Nat} {l : Slot} (hl : l.toNat ≤ 510)
    (hfuel : 510 ≤ fuel + l.toNat) :
    l.toNat ≤ (t.leaderFrom q fuel l).toNat ∧ (t.leaderFrom q fuel l).toNat ≤ 510 ∧
    (∀ k : Slot, l.toNat < k.toNat → k.toNat ≤ (t.leaderFrom q fuel l).toNat →
      (t.node k).kind = (t.node q).kind ∧ (t.node k).weight = (t.node q).weight) ∧
    (∀ k : Slot, k.toNat = (t.leaderFrom q fuel l).toNat + 1 → k.toNat ≤ 510 →
      ¬ ((t.node k).kind = (t.node q).kind ∧ (t.node k).weight = (t.node q).weight)) := by
  induction fuel generalizing l with
  | zero => exact ⟨Nat.le_refl _, hl, fun k h h' => absurd h' (Nat.not_le.mpr h), fun k h h' => by
      rw [Tree.leaderFrom] at h; omega⟩
  | succ fuel ih =>
    by_cases hs : l.toNat < root.toNat ∧ (t.node (l + 1)).kind = (t.node q).kind
        ∧ (t.node (l + 1)).weight = (t.node q).weight
    · have hlt : l.toNat < 510 := hs.1
      have hsucc := toNat_slot_succ (i := l) (by omega)
      obtain ⟨hle, hle', hrun, hstop⟩ := ih (l := l + 1) (by omega) (by omega)
      rw [Tree.leaderFrom, if_pos hs]
      refine ⟨by omega, hle', fun k hk hk' => ?_, hstop⟩
      by_cases e : k = l + 1
      · rw [e]; exact hs.2
      · exact hrun k (by rw [← BitVec.toNat_inj] at e; omega) hk'
    · rw [Tree.leaderFrom, if_neg hs]
      refine ⟨Nat.le_refl _, hl, fun k h h' => absurd h' (Nat.not_le.mpr h), fun k hk hk' hsame => ?_⟩
      obtain rfl : k = l + 1 := BitVec.eq_of_toNat_eq (by rw [hk, toNat_slot_succ (by omega)])
      exact hs ⟨by rw [toNat_root]; omega, hsame⟩

/-- Exchanging two leaves of equal weight leaves a well-formed tree in which every slot has its KIND, weight and PARENT
(R89). -/
theorem Tree.WellFormed.swapLeaves {c : WBits} {t : Tree} (h : t.WellFormed c) {a b : Slot} (ha : a.toNat ≤ 510)
    (hb : b.toNat ≤ 510) (hka : (t.node a).kind = .leaf) (hkb : (t.node b).kind = .leaf)
    (hw : (t.node b).weight = (t.node a).weight) :
    ∃ t', t.swapLeaves a b = some t' ∧ t'.WellFormed c ∧ t'.lo = t.lo ∧ t'.nytp = t.nytp ∧
      ∀ i, (t'.node i).kind = (t.node i).kind ∧ (t'.node i).weight = (t.node i).weight ∧
        (t'.node i).parent = (t.node i).parent := by
  have hsh := h.shape
  obtain ⟨t', he, hm⟩ := hsh.swapLeaves ha hb
  have hfix : ∀ i, (t.node i).kind ≠ .leaf → Equiv.swap a b i = i := fun i hi =>
    Equiv.swap_apply_of_ne_of_ne (by rintro rfl; exact hi hka) (by rintro rfl; exact hi hkb)
  have hcases : ∀ i, (t.node (Equiv.swap a b i)).kind = (t.node i).kind ∧
      (t.node (Equiv.swap a b i)).weight = (t.node i).weight := by
    intro i
    rw [Equiv.swap_apply_def]
    split
    · rename_i e
      rw [e, hka, hkb, hw]
      exact ⟨rfl, rfl⟩
    · split
      · rename_i e
        rw [e, hka, hkb, hw]
        exact ⟨rfl, rfl⟩
      · exact ⟨rfl, rfl⟩
  have hkind : ∀ i, (t'.node i).kind = (t.node i).kind := fun i => by rw [hm.node]; exact (hcases i).1
  have hweight : ∀ i, (t'.node i).weight = (t.node i).weight := fun i => by rw [hm.node]; exact (hcases i).2
  have hparent : ∀ i, (t'.node i).parent = (t.node i).parent := fun i => by
    rw [hm.node]
    refine hfix _ fun hleaf => ?_
    by_cases hp : (t.node i).parent.toNat ≤ 510
    · rw [((hsh.parent_eq_iff hp).mp rfl).1] at hleaf
      cases hleaf
    · rw [by_contra fun hn => hp ((slot_le_iff _).mpr hn), Tree.node_noSlot] at hleaf
      cases hleaf
  have hinternal : ∀ i, (t.node i).kind = .internal → Equiv.swap a b i = i := fun i hi => hfix i (by rw [hi]; decide)
  have hchild : ∀ i, (t.node i).kind = .internal → (t'.node i).child = (t.node i).child := fun i hi => by
    rw [hm.node, hinternal i hi]
  have hshape : t'.Shape := by
    refine hm.shape hsh (Equiv.swap_apply_self a b) (Equiv.swap_apply_self a b) (hfix _ (by simp [Node.empty]))
      (fun i hi => hfix i ?_) (fun hn => hfix _ ?_) (fun k hk hint => ?_) (fun k j hkj _ hk hj => ?_)
    · rw [(hsh.used i (by have := hsh.loEven; omega)).mpr hi]; decide
    · rw [hsh.nytAtLo hn]; decide
    · rw [hinternal k hint]; exact (hsh.child_bounds hk hint).2.2.1
    · rw [hinternal k hk, hinternal j hj]; exact hkj
  refine ⟨t', he, hshape.wellFormed ?_ ?_ ?_ ?_, hm.lo, hm.nytp, fun i => ⟨hkind i, hweight i, hparent i⟩⟩
  · intro i j hi hij hj
    rw [hm.lo] at hi
    simp only [Node.key, hkind, hweight]
    exact h.keysOrdered i j hi hij hj
  · rw [hweight]; exact h.fits root
  · intro p hp hint
    rw [hkind] at hint
    rw [hchild p hint, hweight, hweight, hweight]
    exact h.sums p hp hint
  · intro i hi hleaf
    rw [hkind] at hleaf
    rw [hweight]
    exact h.leafWeight i hi hleaf

/-! ## The two starts of a seen symbol -/

section
variable {c : WBits} {t : Tree} (h : t.WellFormed c) (hroom : (t.node root).weight.toNat < 2 ^ c.bits - 1) {l : Slot}
  (hl : l.toNat ≤ 510) (hleaf : (t.node l).kind = .leaf)
include h hroom hl hleaf

/-- A leaf that is not the sibling of the NYT is pending at once (R85). -/
theorem Tree.WellFormed.pending_leaf (hnot : ¬ (t.nytp = true ∧ l.toNat = t.lo.toNat + 1)) :
    t.Pending c l noSlot := by
  have hsh := h.shape
  have huse := hsh.inUse_of_kind hl (by rw [hleaf]; decide)
  constructor
  case shape => exact hsh
  case ordered => exact h.keysOrdered
  case fits => exact h.fits root
  case room => exact fun _ => hroom
  case sums =>
    intro k hk hint
    have hlt := (hsh.child_bounds hk hint).2.2.1
    rw [if_neg (by rintro rfl; rw [hint] at hleaf; cases hleaf), if_neg (slot_ne_noSlot (by omega))]
    exact h.sums k hk hint
  case start => exact fun _ => ⟨huse, .inl hleaf⟩
  case above =>
    intro k _ hk hint hle
    obtain ⟨hodd, hclo, hclt, hcpred⟩ := hsh.child_bounds hk hint
    refine ⟨hleaf, Nat.lt_of_not_le fun hlc => ?_⟩
    have hsum := h.sums k hk hint
    have hchild := h.keysOrdered.weight_le huse.1 hlc (by omega)
    have hsib := h.weight_pos (i := (t.node k).child - 1) ⟨by omega, by omega⟩ fun ⟨hn, e⟩ => by
      have hne : l ≠ t.lo := fun el => by rw [el, hsh.nytAtLo hn] at hleaf; cases hleaf
      have hne' : l.toNat ≠ t.lo.toNat := fun el => hne (BitVec.eq_of_toNat_eq el)
      have := congrArg BitVec.toNat e
      have := huse.1
      exact hnot ⟨hn, by omega⟩
    omega
  case leafWeight => exact fun i hi hk _ _ => h.leafWeight i hi hk
  case deferred => exact fun e => absurd rfl e

/-- Where the leaf is the sibling of the NYT and the leader of its run, its parent is pending and the leaf itself deferred
(R86). -/
theorem Tree.WellFormed.pending_parent (hnytp : t.nytp = true) (hsib : l.toNat = t.lo.toNat + 1)
    (htop : ∀ k : Slot, k.toNat = l.toNat + 1 → k.toNat ≤ 510 →
      ¬ ((t.node k).kind = .leaf ∧ (t.node k).weight = (t.node l).weight)) :
    t.Pending c (t.node l).parent l ∧ (t.node l).parent ≠ noSlot := by
  have hsh := h.shape
  have heven := hsh.loEven
  obtain ⟨_, hnw, _, _⟩ := hsh.nyt_canonical hnytp
  have hnw0 : (t.node t.lo).weight.toNat = 0 := congrArg BitVec.toNat hnw
  have hlw := h.leafWeight l hl hleaf
  have hroot : l ≠ root := fun e => by
    have := congrArg BitVec.toNat e
    rw [toNat_root] at this
    omega
  obtain ⟨hlt, hple, hint, hpair⟩ := hsh.parents l ⟨by omega, hl⟩ hroot
  have hodd := (hsh.child_bounds hple hint).1
  have hchild : (t.node (t.node l).parent).child = l := BitVec.eq_of_toNat_eq (by omega)
  have hsibling : l - 1 = t.lo := BitVec.eq_of_toNat_eq (by rw [toNat_slot_pred (by omega)]; omega)
  have hpw := h.sums _ hple hint
  rw [hchild, hsibling] at hpw
  refine ⟨?_, slot_ne_noSlot hple⟩
  constructor
  case shape => exact hsh
  case ordered => exact h.keysOrdered
  case fits => exact h.fits root
  case room => exact fun _ => hroom
  case sums =>
    intro k hk hkint
    have hiff : k = (t.node l).parent ↔ (t.node k).child = l := by
      constructor
      · rintro rfl; exact hchild
      · intro e
        exact ((hsh.parent_eq_iff hk).mpr ⟨hkint, .inl e.symm⟩).symm
    rw [h.sums k hk hkint]
    simp only [hiff]
  case start => exact fun _ => ⟨⟨by omega, hple⟩, .inr hint⟩
  case above =>
    intro k hpk hk hkint hle
    obtain ⟨hkodd, _, hklt, hkpred⟩ := hsh.child_bounds hk hkint
    have hord := hsh.childrenInOrder _ k hpk hk hint hkint
    rw [hchild] at hord
    have hsum := h.sums k hk hkint
    have h₁ := h.keysOrdered.weight_le (i := l) (j := (t.node k).child) (by omega) hord.le (by omega)
    have h₂ := h.keysOrdered.weight_le (i := l) (j := (t.node k).child - 1) (by omega) (by omega) (by omega)
    omega
  case leafWeight => exact fun i hi hk _ _ => h.leafWeight i hi hk
  case deferred =>
    intro _
    refine ⟨hnytp, hsib, hleaf, hlt, fun i hli hi hk => Nat.lt_of_not_le fun hle => ?_⟩
    have hnext := toNat_slot_succ (i := l) (by omega)
    have hlkey : (t.node l).key = 2 * (t.node l).weight.toNat := Node.key_of_not_internal (by rw [hleaf]; decide)
    have hikey : (t.node i).key = 2 * (t.node i).weight.toNat := Node.key_of_not_internal (by rw [hk]; decide)
    have h₁ := h.keysOrdered.key_le (i := l) (j := l + 1) (by omega) (by omega) (by omega)
    have h₂ := h.keysOrdered.key_le (i := l + 1) (j := i) (by omega) (by omega) hi
    have hbounds := (t.node (l + 1)).key_bounds
    have hnot : (t.node (l + 1)).kind ≠ .internal := fun e => by
      rw [Node.key_of_internal e] at h₁ h₂
      omega
    refine htop (l + 1) hnext (by omega) ⟨?_, BitVec.eq_of_toNat_eq (by omega)⟩
    rcases (hsh.isLeaf_iff ⟨by omega, by omega⟩).mpr hnot with e | e
    · exact e
    · have := (hsh.nytOnly _ (by omega) e).2
      rw [this] at hnext
      omega

end

/-- A seen symbol starts an update (R81, R85, R86, R89). -/
theorem Tree.WellFormed.seenStart_pending {c : WBits} {t : Tree} (h : t.WellFormed c)
    (hroom : (t.node root).weight.toNat < 2 ^ c.bits - 1) {y : Symbol} (hy : t.slotOfSym y ≠ noSlot) :
    ∃ u, t.seenStart y = some u ∧ u.tree.Pending c u.first u.defer ∧ u.first ≠ noSlot ∧
      (u.tree.node root).weight = (t.node root).weight := by
  obtain ⟨hq, hleaf, hsym⟩ := (h.leafOfSlot y).resolve_left hy
  obtain ⟨hql, hl, hrun, htop⟩ := t.leaderFrom_top (t.slotOfSym y) (fuel := 511) hq (by omega)
  rw [← Tree.leader] at hql hl hrun htop
  have hlead : (t.node (t.leader (t.slotOfSym y))).kind = .leaf ∧
      (t.node (t.leader (t.slotOfSym y))).weight = (t.node (t.slotOfSym y)).weight := by
    rcases Nat.lt_or_eq_of_le hql with hlt | heq
    · rw [← hleaf]; exact hrun _ hlt (Nat.le_refl _)
    · rw [← BitVec.eq_of_toNat_eq heq]; exact ⟨hleaf, rfl⟩
  obtain ⟨t', hswap, hwf, hlo, hnytp, hsame⟩ := h.swapLeaves hq hl hleaf hlead.1 hlead.2
  have hroot := (hsame root).2.1
  have hstart : t.seenStart y = (t.swapLeaves (t.slotOfSym y) (t.leader (t.slotOfSym y))).map fun t' =>
      if t'.nytp = true ∧ (t.leader (t.slotOfSym y)).toNat = t'.lo.toNat + 1 then
        { tree := t', first := (t'.node (t.leader (t.slotOfSym y))).parent, defer := t.leader (t.slotOfSym y) }
      else { tree := t', first := t.leader (t.slotOfSym y), defer := noSlot } := by
    rw [Tree.seenStart]
    exact if_neg (not_or.mpr ⟨not_not.mpr hleaf, not_not.mpr hsym⟩)
  rw [hstart, hswap, Option.map_some]
  generalize t.leader (t.slotOfSym y) = l at *
  have hl' : (t'.node l).kind = .leaf := (hsame l).1.trans hlead.1
  refine ⟨_, rfl, ?_⟩
  split
  · rename_i hsib
    obtain ⟨hp, hne⟩ := hwf.pending_parent (by rw [hroot]; exact hroom) hl hl' hsib.1 hsib.2 fun k hk hk' => by
      rw [(hsame k).1, (hsame k).2.1, (hsame l).2.1, hlead.2, ← hleaf]
      exact htop k hk hk'
    exact ⟨hp, hne, hroot⟩
  · rename_i hsib
    exact ⟨hwf.pending_leaf (by rw [hroot]; exact hroom) hl hl' hsib, slot_ne_noSlot hl, hroot⟩

/-! ## The whole update -/

/-- On a well-formed tree a symbol without a slot finds the NYT still there (R23, R84). -/
theorem Tree.Shape.nytp_of_unseen {t : Tree} (h : t.Shape) {y : Symbol} (hy : t.slotOfSym y = noSlot) :
    t.nytp = true := by
  by_contra hn
  rw [Bool.not_eq_true] at hn
  have hseen := h.seenCounts
  rw [Tree.seenCount, h.fullWithoutNyt hn, hn] at hseen
  have hall := Vector.countP_eq_size.mp hseen (t.slotOfSym y) (Vector.getElem_mem _)
  rw [hy] at hall
  exact absurd hall (by decide)

/-- Every start of an update leaves a pending increment (R81). -/
theorem Tree.WellFormed.updateStart_pending {c : WBits} {t : Tree} (h : t.WellFormed c)
    (hroom : (t.node root).weight.toNat < 2 ^ c.bits - 1) (y : Symbol) :
    ∃ u, t.updateStart y = some u ∧ u.tree.Pending c u.first u.defer ∧ u.first ≠ noSlot ∧
      (u.tree.node root).weight = (t.node root).weight := by
  unfold Tree.updateStart
  by_cases hy : t.slotOfSym y = noSlot
  · have hnytp := h.shape.nytp_of_unseen hy
    rw [if_pos hy, if_neg (by rw [hnytp]; decide)]
    by_cases hlo : 0 < t.lo.toNat
    · have heven := h.loEven
      obtain ⟨t', he, hs⟩ := t.split_isSplit y (by omega) heven.2
      obtain ⟨hp, hroot⟩ := hs.pending h hnytp (by omega) hy hroom
      exact ⟨_, by rw [if_pos hlo, he], hp, slot_ne_noSlot heven.2, hroot⟩
    · have hz : t.lo = 0 := BitVec.eq_of_toNat_eq (Nat.eq_zero_of_not_pos hlo)
      have hs := t.absorb_isAbsorb y
      exact ⟨_, by rw [if_neg hlo], hs.pending h hnytp hz hy hroom,
        show (0 : Slot) ≠ noSlot by decide, (hs.kept root).1⟩
  · rw [if_neg hy]
    exact h.seenStart_pending hroom hy

/-- An update of a well-formed tree with headroom succeeds, leaves a well-formed tree, and adds 1 to `TOTAL` (R35, R36, R88,
R91). -/
theorem Tree.WellFormed.update {c : WBits} {t : Tree} (h : t.WellFormed c)
    (hroom : (t.node root).weight.toNat < 2 ^ c.bits - 1) (y : Symbol) :
    ∃ t', t.update c y = some t' ∧ t'.WellFormed c ∧
      (t'.node root).weight.toNat = (t.node root).weight.toNat + 1 := by
  obtain ⟨u, hstart, hp, hne, hroot⟩ := h.updateStart_pending hroom y
  obtain ⟨t', he, hwf, htotal⟩ := hp.finish hne
  exact ⟨t', by rw [Tree.update, hstart, Option.bind_some, he], hwf, by rw [htotal, hroot]⟩

end Sys2Proof.Machine
end

section
/-!
PROOFS. Every move of the host keeps the state sound and consistent (O56). One move does more than write a pin or a queue:
taking the last beat of ENCODE applies the symbol to the tree.
-/

namespace Sys2Proof.Machine

open Sys2Proof.Config

/-- With headroom as R82 tests it, the root's weight is below `MAXW`. -/
theorem State.atMaxW_eq_false_iff {s : State} (h : s.tree.WellFormed s.wBits) :
    s.atMaxW = false ↔ (s.tree.node root).weight.toNat < 2 ^ s.wBits.bits - 1 := by
  have hfits := h.fits root
  have hmax := toNat_maxW s.wBits
  rw [State.atMaxW, beq_eq_false_iff_ne, ne_eq, ← BitVec.toNat_inj]
  omega

section
variable {s : State}

/-- With the response offered the state is sound if the tree is and no E_INTERNAL is offered. -/
theorem State.offer_sound (ht : s.tree.WellFormed s.wBits) (hc : s.CauseMatches) (h6 : s.fatalCause ≠ 6) {r : Response}
    (hr : r.status ≠ .eInternal) : (s.offer r).Sound where
  tree := by simpa using ht
  cause := by simpa [State.CauseMatches] using hc
  notInternal := by simpa using h6
  phase := by
    rw [State.PhaseSound, State.offer_phase]
    cases s.rspReady
    · exact hr
    · trivial

/-- With headroom where there is an update, a tree command ends well (R91, R94, R104, R114). -/
theorem State.complete_sound (ht : s.tree.WellFormed s.wBits) (hc : s.CauseMatches) (h6 : s.fatalCause ≠ 6)
    {upd : Option Symbol} (hm : upd.isSome = true → s.atMaxW = false) {r : Response} (hr : r.status ≠ .eInternal) :
    (s.complete upd r).Sound := by
  rcases s.complete_cases upd r with ⟨_, h⟩ | ⟨y, t, rfl, he, h⟩ | ⟨y, rfl, he, _⟩
  · rw [h]
    exact State.offer_sound ht hc h6 hr
  · obtain ⟨t', he', ht', _⟩ := ht.update ((State.atMaxW_eq_false_iff ht).mp (hm rfl)) y
    obtain rfl := Option.some.inj (he.symm.trans he')
    rw [h]
    exact State.offer_sound (s := { s with tree := t }) ht' hc h6 hr
  · obtain ⟨t', he', _⟩ := ht.update ((State.atMaxW_eq_false_iff ht).mp (hm rfl)) y
    rw [he] at he'
    cases he'

/-- What taking a beat can do: nothing, the end of the command after its last beat, or one beat fewer to take (R60, R71). -/
theorem State.acceptBeat_cases (s : State) : s.acceptBeat = s ∨
    (∃ b upd r, s.phase = .emitting [b] upd r ∧
      s.acceptBeat = { s with boutSent := s.boutSent ++ [b] }.complete upd r) ∨
    (∃ b b' bs upd r, s.phase = .emitting (b :: b' :: bs) upd r ∧
      s.acceptBeat = { s with boutSent := s.boutSent ++ [b], phase := .emitting (b' :: bs) upd r }) := by
  unfold State.acceptBeat
  split
  · exact .inl rfl
  · split
    case h_1 => exact .inl rfl
    case h_2 => exact .inl rfl
    case h_3 => exact .inl rfl
    case h_4 b upd r hp => exact .inr (.inl ⟨b, upd, r, hp, rfl⟩)
    case h_5 b b' bs upd r hp => exact .inr (.inr ⟨b, b', bs, upd, r, hp, rfl⟩)
    case h_6 => exact .inl rfl

theorem State.acceptBeat_sound (h : s.Sound) : s.acceptBeat.Sound := by
  have hphase := h.phase
  rcases s.acceptBeat_cases with e | ⟨b, upd, r, hp, e⟩ | ⟨b, b', bs, upd, r, hp, e⟩ <;> rw [e]
  · exact h
  · rw [State.PhaseSound, hp] at hphase
    obtain ⟨_, _, hok, hm⟩ := hphase
    exact State.complete_sound (s := { s with boutSent := s.boutSent ++ [b] }) h.tree h.cause h.notInternal hm
      (by rw [hok]; decide)
  · rw [State.PhaseSound, hp] at hphase
    obtain ⟨hf, _, hok, hm⟩ := hphase
    exact ⟨h.tree, h.cause, h.notInternal, hf, by simp, hok, hm⟩

theorem State.acceptBeat_consistent (h : s.Consistent) : s.acceptBeat.Consistent := by
  rcases s.acceptBeat_cases with e | ⟨b, upd, r, _, e⟩ | ⟨b, b', bs, upd, r, hp, e⟩ <;> rw [e]
  · exact h
  · exact State.complete_consistent (s := { s with boutSent := s.boutSent ++ [b] }) h.fits h.cause upd r
  · refine ⟨h.fits, h.cause, nofun, fun beats upd' r' hp' => ?_⟩
    cases hp'
    exact ⟨(h.emitting _ upd r hp).1, by simp⟩

/-- What taking the response can do: nothing, or the unit is Idle (R60). -/
theorem State.acceptResponse_cases (s : State) : s.acceptResponse = s ∨
    ∃ r, s.acceptResponse = { s with phase := .idle, rspSent := s.rspSent ++ [r] } := by
  unfold State.acceptResponse
  split
  · exact .inl rfl
  · exact .inr ⟨_, rfl⟩

end

/-- Settles O56, by the moves of the host. -/
theorem hostMovesKeepSoundness : Obligations.HostMovesKeepSoundness := by
  intro s m
  constructor
  · intro h
    cases m
    case acceptBeat => exact State.acceptBeat_sound h
    case acceptResponse =>
      rcases s.acceptResponse_cases with e | ⟨r, e⟩ <;> rw [hostMove, e]
      · exact h
      · exact ⟨h.tree, h.cause, h.notInternal, trivial⟩
    all_goals exact ⟨h.tree, h.cause, h.notInternal, h.phase⟩
  · intro h
    cases m
    case acceptBeat => exact State.acceptBeat_consistent h
    case acceptResponse =>
      rcases s.acceptResponse_cases with e | ⟨r, e⟩ <;> rw [hostMove, e]
      · exact h
      · exact ⟨h.fits, h.cause, nofun, nofun⟩
    all_goals exact ⟨h.fits, h.cause, h.walking, h.emitting⟩

end Sys2Proof.Machine
end

section
/-!
PROOFS. The mapper and the walker are inverse (R100, R101, R110): on a well-formed tree every symbol has its bits, and the
walk over the bits of a symbol finds that symbol and takes nothing more.
-/

namespace Sys2Proof.Machine

open Sys2Proof.Config

/-! ## Beats -/

theorem toBeats_cons_cons (b b' : Bool) (bs : List Bool) :
    toBeats (b :: b' :: bs) = ⟨b, false⟩ :: toBeats (b' :: bs) := rfl

/-- The beats carry the bits (R71). -/
theorem map_bit_toBeats (b : List Bool) : (toBeats b).map OutBeat.bit = b := by
  induction b with
  | nil => rfl
  | cons x xs ih =>
    cases xs with
    | nil => rfl
    | cons y ys => rw [toBeats_cons_cons, List.map_cons, ih]

theorem dataBeats_append (a b : List Bool) : dataBeats (a ++ b) = dataBeats a ++ dataBeats b := List.map_append

/-! ## The walk, beat by beat (R110) -/

theorem Tree.walkBeats_found (t : Tree) (bs : List InBeat) (y : Symbol) (new : Bool) (n : Nat) :
    t.walkBeats bs (.found y new n) = (.found y new n, bs) := by
  cases bs <;> rfl

/-- A data beat takes its bit (R72). -/
theorem Tree.walkBeats_data (t : Tree) (x : Bool) (bs : List Bool) (rest : List InBeat) (pos : TwPos) :
    t.walkBeats (dataBeats (x :: bs) ++ rest) (.needs pos) = t.walkBeats (dataBeats bs ++ rest) (t.takeBit pos x) := rfl

/-! ## Codewords (R34, R100) -/

/-- A slot is reached from its parent by its branch bit (R34). -/
theorem Tree.Shape.child_of_branchBit {t : Tree} (h : t.Shape) {i : Slot} (hp : (t.node i).parent.toNat ≤ 510) :
    (t.node (t.node i).parent).child - 1 + (BitVec.ofBool (branchBit i)).setWidth 9 = i := by
  obtain ⟨hint, hpair⟩ := (h.parent_eq_iff hp).mp rfl
  obtain ⟨hodd, _, hlt, hpred⟩ := h.child_bounds hp hint
  generalize (t.node (t.node i).parent).child = ch at *
  have hbit : branchBit i = decide (i.toNat % 2 = 1) := by
    rw [branchBit, BitVec.getLsbD, Nat.testBit_zero]
  rw [hbit]
  rcases hpair with rfl | rfl
  · have hsub : i - 1 + 1 = i := sub_add_cancel i 1
    rw [decide_eq_true hodd]
    exact hsub
  · have heven : ¬ (ch - 1).toNat % 2 = 1 := by omega
    rw [decide_eq_false heven]
    exact add_zero (ch - 1)

/-- The walk arrives at an INTERNAL slot and waits for a branch bit (R110). -/
theorem Tree.Shape.enterSlot_internal {t : Tree} (h : t.Shape) {i : Slot} (hi : i.toNat ≤ 510)
    (hk : (t.node i).kind = .internal) (n : Nat) : t.enterSlot i n = .needs (.descend i n) := by
  have hlt := (h.child_bounds hi hk).2.2.1
  simp only [Tree.enterSlot, hk]
  exact if_neg (slot_ne_noSlot (by omega))

/-- Every slot in use has a codeword: its parents go up to the root (R100). -/
theorem Tree.Shape.exists_codewordFrom {t : Tree} (h : t.Shape) {fuel : Nat} {i : Slot} (hi : t.inUse i)
    (hfuel : 510 ≤ fuel + i.toNat) : ∃ b, t.codewordFrom fuel i = some b := by
  induction fuel generalizing i with
  | zero =>
    have hroot : i = root := BitVec.eq_of_toNat_eq (by have := hi.2; rw [toNat_root]; omega)
    exact ⟨[], if_pos hroot⟩
  | succ fuel ih =>
    by_cases hroot : i = root
    · exact ⟨[], if_pos hroot⟩
    · obtain ⟨hlt, hle, _, _⟩ := h.parents i hi hroot
      have := hi.1
      obtain ⟨b, hb⟩ := ih (i := (t.node i).parent) ⟨by omega, hle⟩ (by omega)
      exact ⟨_, by rw [Tree.codewordFrom, if_neg hroot, if_neg (slot_ne_noSlot hle), hb]; rfl⟩

/-- The codeword of a slot leads the walk from the root to that slot (R100, R110). -/
theorem Tree.Shape.walk_codewordFrom {t : Tree} (h : t.Shape) {fuel : Nat} {i : Slot} {b : List Bool} (hi : t.inUse i)
    (hb : t.codewordFrom fuel i = some b) (rest : List InBeat) (n : Nat) :
    t.walkBeats (dataBeats b ++ rest) (t.enterSlot root n) = t.walkBeats rest (t.enterSlot i (n + b.length)) := by
  have hempty : ∀ {i : Slot} {b : List Bool} (rest : List InBeat), i = root → some [] = some b →
      t.walkBeats (dataBeats b ++ rest) (t.enterSlot root n) = t.walkBeats rest (t.enterSlot i (n + b.length)) := by
    rintro i b rest rfl hb
    obtain rfl := Option.some.inj hb
    rfl
  induction fuel generalizing i b rest with
  | zero =>
    unfold Tree.codewordFrom at hb
    split at hb
    · exact hempty rest ‹_› hb
    · cases hb
  | succ fuel ih =>
    unfold Tree.codewordFrom at hb
    split at hb
    · exact hempty rest ‹_› hb
    · rename_i hroot
      obtain ⟨hlt, hle, hint, _⟩ := h.parents i hi hroot
      rw [if_neg (slot_ne_noSlot hle)] at hb
      obtain ⟨b', hb', rfl⟩ := Option.map_eq_some_iff.mp hb
      have := hi.1
      have hup : ∀ rest, t.walkBeats (dataBeats b' ++ rest) (t.enterSlot root n) =
          t.walkBeats rest (t.enterSlot (t.node i).parent (n + b'.length)) :=
        ih ⟨by omega, hle⟩ hb'
      rw [dataBeats_append, List.append_assoc, hup, h.enterSlot_internal hle hint, Tree.walkBeats_data, Tree.takeBit,
        h.child_of_branchBit hle, List.length_append]
      rfl

/-! ## Raw bits (R48, R110) -/

/-- The raw bits of an escape are read most significant first; the last decides between a new symbol and E_STREAM (R110,
R112). -/
theorem Tree.walk_raw (t : Tree) (bs : List Bool) (rest : List InBeat) (v : Symbol) (n : Nat) (hbs : bs ≠ []) :
    t.walkBeats (dataBeats bs ++ rest) (.needs (.raw v bs.length n)) = t.walkBeats rest
      (if t.slotOfSym (bs.foldl shiftIn v) ≠ noSlot then
        .failed .eStream (resultWord (n + bs.length) true (bs.foldl shiftIn v))
      else .found (bs.foldl shiftIn v) true (n + bs.length)) := by
  induction bs generalizing v n with
  | nil => exact absurd rfl hbs
  | cons x xs ih =>
    rw [Tree.walkBeats_data, Tree.takeBit]
    cases xs with
    | nil => rfl
    | cons y ys =>
      have hlen : ¬ (x :: y :: ys).length ≤ 1 := by simp
      have hcount : n + (x :: y :: ys).length = n + 1 + (y :: ys).length := by simp only [List.length_cons]; omega
      rw [if_neg hlen, hcount]
      exact ih (shiftIn v x) (n + 1) (List.cons_ne_nil y ys)

/-- Reading the 8 bits of a symbol gives the symbol (R48). -/
theorem foldl_shiftIn_raw8 : ∀ y : Symbol, (raw8 y).foldl shiftIn 0 = y := by decide

/-! ## Mapping and walking back (R101, R110) -/

/-- On a well-formed tree every symbol maps to bits, and the walk over them finds it and takes no more (R101, R110). -/
theorem Tree.Shape.walk_mapBits {t : Tree} (h : t.Shape) (y : Symbol) : ∃ b, t.mapBits y = some b ∧
    ∀ rest, t.walkBeats (dataBeats b ++ rest) (t.enterSlot root 0) = (.found y (t.isNew y) b.length, rest) := by
  by_cases hy : t.slotOfSym y = noSlot
  · have hnytp := h.nytp_of_unseen hy
    have hlo : t.inUse t.lo := ⟨Nat.le_refl _, h.loEven.2⟩
    obtain ⟨b, hb⟩ := h.exists_codewordFrom (fuel := 511) hlo (by omega)
    refine ⟨b ++ raw8 y, ?_, fun rest => ?_⟩
    · simp [Tree.mapBits, hy, hnytp, Tree.codeword, hb]
    · have henter : t.enterSlot t.lo (0 + b.length) = .needs (.raw 0 (raw8 y).length b.length) := by
        simp only [Tree.enterSlot, h.nytAtLo hnytp, Nat.zero_add]
        rfl
      rw [dataBeats_append, List.append_assoc, h.walk_codewordFrom hlo hb, henter,
        t.walk_raw _ _ _ _ (by simp [raw8]), foldl_shiftIn_raw8, if_neg (not_not.mpr hy), Tree.walkBeats_found,
        List.length_append, Tree.isNew, hy]
      rfl
  · obtain ⟨hle, hleaf, hsym⟩ := (h.leafOfSlot y).resolve_left hy
    have huse := h.inUse_of_kind hle (by rw [hleaf]; decide)
    obtain ⟨b, hb⟩ := h.exists_codewordFrom (fuel := 511) huse (by omega)
    refine ⟨b, ?_, fun rest => ?_⟩
    · simp [Tree.mapBits, hy, hleaf, hsym, Tree.codeword, hb]
    · rw [h.walk_codewordFrom huse hb]
      simp only [Tree.enterSlot, hleaf, hsym, Tree.walkBeats_found, Nat.zero_add, Tree.isNew, beq_eq_false_iff_ne.mpr hy]

end Sys2Proof.Machine
end

section
/-!
PROOFS. The round trip (O50): on equal well-formed trees ENCODE and DECODE run in lockstep, and a stream within the headroom
is a lockstep of its symbols, from the fresh tree on.
-/

namespace Sys2Proof.Machine

open Sys2Proof.Config

/-! ## The fresh tree (R43) -/

theorem Tree.fresh_kind (i : Slot) : (Tree.fresh.node i).kind = if i = root then .nyt else .unused := by
  rw [Tree.fresh_node]
  split <;> rfl

theorem Tree.fresh_weight (i : Slot) : (Tree.fresh.node i).weight = 0 := by
  rw [Tree.fresh_node]
  split <;> rfl

/-- The tree of a new session is well formed, for every `W_BITS` (R43). -/
theorem Tree.fresh_wellFormed (c : WBits) : Tree.fresh.WellFormed c := by
  have hkind := Tree.fresh_kind
  have hnot : ∀ i, (Tree.fresh.node i).kind ≠ .internal ∧ (Tree.fresh.node i).kind ≠ .leaf := fun i => by
    rw [hkind]
    split <;> decide
  have hroot : ∀ i : Slot, Tree.fresh.inUse i → i = root := fun i hi =>
    BitVec.eq_of_toNat_eq (Nat.le_antisymm hi.2 hi.1)
  constructor
  case loEven => decide
  case used =>
    intro i hi
    rw [hkind, Tree.fresh_lo, toNat_root]
    split
    · rename_i e
      rw [e]
      decide
    · rename_i e
      have : i.toNat ≠ 510 := fun e' => e (BitVec.eq_of_toNat_eq e')
      simp only [true_iff]
      omega
  case canonical =>
    intro i _
    rw [Tree.fresh_node]
    split
    · exact ⟨rfl, rfl, rfl⟩
    · rfl
  case fits => exact Tree.weightsFit_fresh c
  case children => exact fun p _ hk => absurd hk (hnot p).1
  case rootParent => rw [Tree.fresh_node, if_pos rfl]; rfl
  case parents => exact fun i hi hne => absurd (hroot i hi) hne
  case childrenInOrder => exact fun p _ _ _ hk => absurd hk (hnot p).1
  case ordered =>
    intro i j hi hj hij
    rw [hroot i hi, hroot j hj] at hij
    exact absurd hij (Nat.lt_irrefl _)
  case sums => exact fun p _ hk => absurd hk (hnot p).1
  case leafWeight => exact fun i _ hk => absurd hk (hnot i).2
  case nytAtLo => intro _; rw [hkind, Tree.fresh_lo, if_pos rfl]
  case nytOnly =>
    intro i _ hk
    refine ⟨rfl, by_contra fun e => ?_⟩
    rw [hkind, if_neg (show ¬ i = root from e)] at hk
    cases hk
  case fullWithoutNyt => exact fun e => by cases e
  case slotOfLeaf => exact fun i _ hk => absurd hk (hnot i).2
  case leafOfSlot => exact fun y => .inl (Tree.fresh_slotOfSym y)
  case seenCounts =>
    rw [Tree.seenCount, Tree.fresh_lo, Tree.fresh_nytp]
    refine Vector.countP_eq_zero.mpr fun i hi => ?_
    rw [Vector.eq_of_mem_replicate hi]
    decide

/-! ## ENCODE and DECODE with the host's pins held -/

/-- The symbol stands above bit 10 of the RESULT word (R68). -/
theorem resultWord_shiftRight (n : Nat) (new : Bool) (y : Symbol) :
    resultWord n new y >>> (10 : Nat) = y.setWidth 32 := by
  apply BitVec.eq_of_getLsbD_eq
  intro i hi
  unfold resultWord
  rw [BitVec.getLsbD_ushiftRight, BitVec.getLsbD_setWidth, BitVec.getLsbD_append, BitVec.getLsbD_append,
    BitVec.getLsbD_append, if_neg (by omega), if_neg (by omega), show 10 + i - 9 - 1 = i by omega]
  by_cases h : i < 8
  · simp [h, hi]
  · simp [h, BitVec.getLsbD_of_ge y i (by omega)]

/-- A symbol is an operand in its range (R62). -/
theorem symOperand_setWidth (y : Symbol) : symOperand (y.setWidth 16) = some y := by
  have hy := y.isLt
  have hnat : (y.setWidth 16).toNat = y.toNat := by rw [BitVec.toNat_setWidth, Nat.mod_eq_of_lt (by omega)]
  rw [symOperand_of_le (by omega)]
  exact congrArg some (BitVec.eq_of_toNat_eq (by rw [BitVec.toNat_setWidth, hnat, Nat.mod_eq_of_lt hy]))

/-- With `bout_ready` held high all beats of a command transfer at once (R60, R71). -/
theorem State.emit_ready {s : State} (h : s.boutReady = true) (beats : List OutBeat) (upd : Option Symbol)
    (r : Response) : s.emit beats upd r = { s with boutSent := s.boutSent ++ beats }.complete upd r := by
  cases beats with
  | nil => simp [State.emit]
  | cons b bs => simp [State.emit, h]

/-- With `rsp_ready` held high a command whose update succeeds ends in Idle, its response transferred (R60). -/
theorem State.complete_ready {s : State} {y : Symbol} {t : Tree} (h : s.tree.update s.wBits y = some t)
    (hrsp : s.rspReady = true) (r : Response) :
    s.complete (some y) r = { s with tree := t, phase := .idle, rspSent := s.rspSent ++ [r] } := by
  simp [State.complete, h, State.offer, hrsp]

/-- ENCODE on a tree that maps and updates: the bits, the update, RESULT (R104). -/
theorem exec_encode_ready {e : State} {y : Symbol} {b : List Bool} {t : Tree} (hf : e.fatal = false)
    (hm : e.atMaxW = false) (hbout : e.boutReady = true) (hrsp : e.rspReady = true) (hb : e.tree.mapBits y = some b)
    (hu : e.tree.update e.wBits y = some t) :
    exec (.encode (y.setWidth 16)) e = .next { e with
      tree := t, boutSent := e.boutSent ++ toBeats b, phase := .idle
      rspSent := e.rspSent ++ [⟨.ok, resultWord b.length (e.tree.isNew y) y⟩] } := by
  change Host.Outcome.next _ = _
  rw [State.unlessFatal_clear _ hf, symOperand_setWidth, State.withOperand_some, State.withHeadroom_clear _ hm,
    State.mapThen, hb]
  dsimp only
  rw [State.emit_ready hbout]
  exact congrArg _ (State.complete_ready (s := { e with boutSent := e.boutSent ++ toBeats b }) hu hrsp _)

/-- DECODE on beats over which the walk finds a symbol that updates: the beats taken, the update, RESULT (R114). -/
theorem exec_decode_found {d : State} {y : Symbol} {new : Bool} {n : Nat} {rest : List InBeat} {t : Tree}
    (hf : d.fatal = false) (hm : d.atMaxW = false) (hrsp : d.rspReady = true)
    (hw : d.tree.walkBeats d.binQ (d.tree.enterSlot root 0) = (.found y new n, rest))
    (hu : d.tree.update d.wBits y = some t) :
    exec .decode d = .next { d with
      tree := t, binQ := rest, phase := .idle, rspSent := d.rspSent ++ [⟨.ok, resultWord n new y⟩] } := by
  change Host.Outcome.next _ = _
  rw [State.unlessFatal_clear _ hf, State.withHeadroom_clear _ hm, State.walkOn, hw]
  dsimp only
  rw [if_pos rfl]
  exact congrArg _ (State.complete_ready (s := { d with binQ := rest }) hu hrsp _)

/-- One symbol in lockstep (R115): ENCODE and DECODE on equal well-formed trees with headroom answer alike and leave equal
well-formed trees. -/
theorem encode_decode_lockstep {e : State} (hwf : e.tree.WellFormed e.wBits) (hf : e.fatal = false)
    (hbout : e.boutReady = true) (hrsp : e.rspReady = true)
    (hroom : (e.tree.node root).weight.toNat < 2 ^ e.wBits.bits - 1) (y : Symbol) :
    ∃ (b : List Bool) (t : Tree) (v : Word), t.WellFormed e.wBits ∧ (t.node root).weight.toNat = (e.tree.node root).weight.toNat + 1 ∧
      v >>> (10 : Nat) = y.setWidth 32 ∧
      exec (.encode (y.setWidth 16)) e = .next { e with
        tree := t, boutSent := e.boutSent ++ toBeats b, phase := .idle, rspSent := e.rspSent ++ [⟨.ok, v⟩] } ∧
      ∀ (d : State) (rest : List InBeat), d.tree = e.tree → d.wBits = e.wBits → d.fatal = false →
        d.rspReady = true → d.binQ = dataBeats b ++ rest →
          exec .decode d = .next { d with
            tree := t, binQ := rest, phase := .idle, rspSent := d.rspSent ++ [⟨.ok, v⟩] } := by
  obtain ⟨t, hu, hwf', hroot⟩ := hwf.update hroom y
  obtain ⟨b, hb, hwalk⟩ := hwf.shape.walk_mapBits y
  have hm := (State.atMaxW_eq_false_iff hwf).mpr hroom
  refine ⟨b, t, _, hwf', hroot, resultWord_shiftRight _ _ y, exec_encode_ready hf hm hbout hrsp hb hu, ?_⟩
  intro d rest htree hwBits hdf hdrsp hq
  refine exec_decode_found hdf ?_ hdrsp (by rw [hq, htree]; exact hwalk rest) (by rw [htree, hwBits]; exact hu)
  rw [State.atMaxW, htree, hwBits]
  exact hm

/-! ## Streams -/

theorem execAll_cons {i : Instr} {is : List Instr} {s t : State} (h : exec i s = .next t) :
    execAll (i :: is) s = execAll is t := by
  rw [execAll, h]

/-- A stream within the headroom goes through from any well-formed tree, by induction on the stream (R115). -/
theorem stream_roundTrip (ys : List Symbol) : ∀ e₀ : State, e₀.tree.WellFormed e₀.wBits → e₀.fatal = false →
    e₀.boutReady = true → e₀.rspReady = true → (e₀.tree.node root).weight.toNat + ys.length < 2 ^ e₀.wBits.bits →
      ∃ e beats rs, execAll (ys.map fun y => .encode (y.setWidth 16)) e₀ = .next e ∧
        e.boutSent = e₀.boutSent ++ beats ∧ e.rspSent = e₀.rspSent ++ rs ∧
        (rs.map fun r => r.status) = List.replicate ys.length .ok ∧
        (rs.map fun r : Response => r.value >>> (10 : Nat)) = (ys.map fun y : Symbol => y.setWidth 32) ∧
        ∀ (d₀ : State) (rest : List InBeat), d₀.tree = e₀.tree → d₀.wBits = e₀.wBits → d₀.fatal = false →
          d₀.rspReady = true → d₀.binQ = dataBeats (beats.map OutBeat.bit) ++ rest →
            ∃ d, execAll (List.replicate ys.length .decode) d₀ = .next d ∧
              d.rspSent = d₀.rspSent ++ rs ∧ d.tree = e.tree ∧ d.binQ = rest := by
  induction ys with
  | nil =>
    intro e₀ _ _ _ _ _
    exact ⟨e₀, [], [], rfl, (List.append_nil _).symm, (List.append_nil _).symm, rfl, rfl,
      fun d₀ rest htree _ _ _ hq => ⟨d₀, rfl, (List.append_nil _).symm, htree, hq⟩⟩
  | cons y ys ih =>
    intro e₀ hwf hf hbout hrsp hlen
    rw [List.length_cons] at hlen
    obtain ⟨b, t, v, hwf₁, hroot, hv, henc, hdec⟩ := encode_decode_lockstep hwf hf hbout hrsp (by omega) y
    obtain ⟨e, beats, rs, hrun, hsent, hrsps, hok, hsyms, hdecs⟩ := ih
      { e₀ with tree := t, boutSent := e₀.boutSent ++ toBeats b, phase := .idle, rspSent := e₀.rspSent ++ [⟨.ok, v⟩] }
      hwf₁ hf hbout hrsp (by dsimp only; omega)
    refine ⟨e, toBeats b ++ beats, ⟨.ok, v⟩ :: rs, ?_, ?_, ?_, ?_, ?_, ?_⟩
    · rw [List.map_cons, execAll_cons henc, hrun]
    · rw [hsent, List.append_assoc]
    · rw [hrsps, List.append_assoc]
      rfl
    · rw [List.map_cons, hok, List.length_cons, List.replicate_succ]
    · rw [List.map_cons, hsyms, List.map_cons, hv]
    · intro d₀ rest htree hwBits hdf hdrsp hq
      rw [List.map_append, map_bit_toBeats, dataBeats_append, List.append_assoc] at hq
      obtain ⟨d, hdrun, hdrsps, hdtree, hdq⟩ := hdecs { d₀ with
        tree := t, binQ := dataBeats (beats.map OutBeat.bit) ++ rest, phase := .idle
        rspSent := d₀.rspSent ++ [⟨.ok, v⟩] } rest rfl hwBits hdf hdrsp rfl
      refine ⟨d, ?_, ?_, hdtree, hdq⟩
      · rw [List.length_cons, List.replicate_succ, execAll_cons (hdec d₀ _ htree hwBits hdf hdrsp hq), hdrun]
      · rw [hdrsps, List.append_assoc]
        rfl

/-- Settles O50: a session begins with the fresh tree, which is well formed and has weight 0 at its root. -/
theorem encodedStreamsRoundTrip : Obligations.EncodedStreamsRoundTrip := by
  intro e₀ d₀ ys rest htree hf hbout hrsp hdtree hdf hdrsp hwBits hlen
  obtain ⟨e, beats, rs, hrun, hsent, hrsps, hok, hsyms, hdec⟩ := stream_roundTrip ys e₀
    (by rw [htree]; exact Tree.fresh_wellFormed _) hf hbout hrsp
    (by rw [htree, Tree.fresh_weight]; simpa using hlen)
  exact ⟨e, beats, rs, hrun, hsent, hrsps, hok, hsyms, hdec d₀ rest (hdtree.trans htree.symm) hwBits hdf hdrsp⟩

end Sys2Proof.Machine
end

section
/-!
PROOFS. An update keeps the tree well formed and counts one symbol (O36, O37). A symbol's weight is the weight of the slot
`SLOT_OF` gives it, a slide carries both along, and so the weights of the symbols rise exactly where an increment finds a
leaf. An update increments one leaf, in the first slot of its chain or in the deferred step.
-/

namespace Sys2Proof.Machine

open Sys2Proof.Config

/-! ## The weight of a symbol (R21, R92) -/

/-- `NONE` reads as a node of weight 0, so an unseen symbol is no case of its own. -/
theorem Tree.symbolWeight_eq (t : Tree) (y : Symbol) : t.symbolWeight y = (t.node (t.slotOfSym y)).weight.toNat := by
  unfold Tree.symbolWeight
  split
  · rename_i hy
    rw [hy]
    rfl
  · rfl

/-- A renaming of slots moves the leaf of a symbol and leaves its weight. -/
theorem Tree.Moved.symbolWeight {u t : Tree} {f g : Slot → Slot} (h : u.Moved f g t) (hgf : ∀ i, g (f i) = i)
    (y : Symbol) : t.symbolWeight y = u.symbolWeight y := by
  rw [Tree.symbolWeight_eq, Tree.symbolWeight_eq, h.slotOf, h.node, hgf]

theorem Tree.Shape.kind_slotOfSym {t : Tree} (h : t.Shape) {y : Symbol} (hy : t.slotOfSym y ≠ noSlot) :
    (t.node (t.slotOfSym y)).kind = .leaf :=
  ((h.leafOfSlot y).resolve_left hy).2.1

/-- No symbol has its leaf below `LO` (R22). -/
theorem Tree.Shape.lo_le_slotOfSym {t : Tree} (h : t.Shape) (y : Symbol) : t.lo.toNat ≤ (t.slotOfSym y).toNat := by
  rcases h.leafOfSlot y with hy | ⟨hle, hleaf, _⟩
  · have := h.loEven
    rw [hy, toNat_noSlot]
    omega
  · exact (h.inUse_of_kind hle (by rw [hleaf]; decide)).1

/-- Two symbols never share a leaf (R21). -/
theorem Tree.Shape.slotOfSym_inj {t : Tree} (h : t.Shape) {y z : Symbol} (hy : t.slotOfSym y ≠ noSlot)
    (e : t.slotOfSym z = t.slotOfSym y) : z = y := by
  have hsym := ((h.leafOfSlot y).resolve_left hy).2.2
  have hsym' := ((h.leafOfSlot z).resolve_left (e ▸ hy)).2.2
  rw [← hsym, ← hsym', e]

/-! ## What the steps of an update count (R87, R88) -/

/-- A slide goes up, and no further than the root (R87). -/
theorem Tree.slideFrom_bounds {t : Tree} {p : Slot} {w : Word} {k fuel : Nat} {q₀ q : Slot}
    (h : t.slideFrom p w k fuel q₀ = some q) (hq : q₀.toNat ≤ 510) : q₀.toNat ≤ q.toNat ∧ q.toNat ≤ 510 := by
  induction fuel generalizing q₀ with
  | zero =>
    obtain rfl := Option.some.inj h
    exact ⟨Nat.le_refl _, hq⟩
  | succ fuel ih =>
    unfold Tree.slideFrom at h
    split at h
    · rename_i hs
      have hlt : q₀.toNat < 510 := hs.1
      have hsucc := toNat_slot_succ (i := q₀) (by omega)
      split at h
      · cases h
      · have := ih h (by omega)
        omega
    · obtain rfl := Option.some.inj h
      exact ⟨Nat.le_refl _, hq⟩

/-- `SlideAndIncrement` writes the weight of the symbol whose leaf is in slot `p`, if there is one, and no other's (R87). -/
theorem Tree.Shape.symbolWeight_slideAndIncrement {c : WBits} {t : Tree} (h : t.Shape) {p : Slot} (hp : p.toNat ≤ 510)
    {r : Tree × Slot} (hr : t.slideAndIncrement c p = some r) (z : Symbol) :
    r.1.symbolWeight z =
      if t.slotOfSym z = p then (weightSucc c (t.node p).weight).toNat else t.symbolWeight z := by
  obtain ⟨_, q, u, hslide, hrot, htree, _⟩ := Tree.slideAndIncrement_cases hr
  obtain ⟨hpq, hq⟩ := Tree.slideFrom_bounds hslide hp
  obtain ⟨u', hrot', hm⟩ := h.rotate hpq hq
  obtain rfl := Option.some.inj (hrot.symm.trans hrot')
  have hslot : r.1.slotOfSym z = slideTo p q (t.slotOfSym z) := by
    rw [htree, Tree.setWeight, Tree.slotOfSym_modify, hm.slotOf]
  rw [Tree.symbolWeight_eq, hslot, htree, Tree.node_setWeight _ (slot_ne_noSlot hq)]
  simp only [slideTo_eq_iff hpq]
  split
  · rfl
  · rw [hm.node, slideBack_slideTo hpq, Tree.symbolWeight_eq]

namespace Tree.Pending

/-- The next node to increment is an INTERNAL node (R87). -/
theorem kind_next {c : WBits} {t t' : Tree} {p d q : Slot} (h : t.Pending c p d) (hp : p ≠ noSlot) (hs : t.Slid p q t')
    (hne : (t.node (t.raisedSlot p q)).parent ≠ noSlot) :
    (t'.node (t.node (t.raisedSlot p q)).parent).kind = .internal := by
  obtain ⟨_, _, _, hint⟩ := (h.next_cases hp hs.toLanding).resolve_left fun hr => hne hr.2
  rw [← h.slideTo_next hp hs, kind_slid hs]
  exact hint

/-- A chain counts the symbol whose leaf is in its first slot, if there is one, and leaves the deferred leaf where it is
(R88). -/
theorem symbolWeight_chain {c : WBits} {t t' : Tree} {p d : Slot} (h : t.Pending c p d) {n : Nat}
    (hc : Tree.chain c n p t = some t') (z : Symbol) :
    t'.symbolWeight z = t.symbolWeight z + (if p ≠ noSlot ∧ t.slotOfSym z = p then 1 else 0) ∧
      (d ≠ noSlot → (t'.slotOfSym z = d ↔ t.slotOfSym z = d)) := by
  induction n generalizing t p with
  | zero =>
    unfold Tree.chain at hc
    split at hc
    · rename_i hp
      obtain rfl := Option.some.inj hc
      exact ⟨by simp [hp], fun _ => Iff.rfl⟩
    · cases hc
  | succ n ih =>
    unfold Tree.chain at hc
    split at hc
    · rename_i hp
      obtain rfl := Option.some.inj hc
      exact ⟨by simp [hp], fun _ => Iff.rfl⟩
    · rename_i hp
      obtain ⟨q, t₁, he, hs, hshape⟩ := h.slides hp
      rw [he, Option.bind_some] at hc
      obtain ⟨hweight, hdefer⟩ := ih (h.pending_after hp hs hshape) hc
      have hnext : ¬ ((t.node (t.raisedSlot p q)).parent ≠ noSlot ∧
          t₁.slotOfSym z = (t.node (t.raisedSlot p q)).parent) := fun ⟨hne, e⟩ => by
        have hint := h.kind_next hp hs hne
        rw [← e, hshape.kind_slotOfSym (e ▸ hne)] at hint
        cases hint
      obtain ⟨hsucc, hnat⟩ := h.weightSucc_eq hp
      have hstep := h.shape.symbolWeight_slideAndIncrement (h.inUse hp).2 he z
      rw [hsucc, hnat] at hstep
      refine ⟨?_, fun hd => (hdefer hd).trans ?_⟩
      · rw [hweight, if_neg hnext, hstep]
        by_cases e : t.slotOfSym z = p
        · rw [if_pos e, if_pos ⟨hp, e⟩, Tree.symbolWeight_eq, e]
        · rw [if_neg e, if_neg fun hand => e hand.2]
      · rw [hs.slotOf]
        have hfix := (h.deferred_after hp hs hd).1
        exact ⟨fun e => slideTo_inj hs (e.trans hfix.symm), fun e => by rw [e, hfix]⟩

/-- The deferred step counts the symbol of the deferred leaf (R88). -/
theorem symbolWeight_deferredStep {c : WBits} {t t' : Tree} {d : Slot} (h : t.Pending c noSlot d)
    (hd : Tree.deferredStep c d t = some t') (z : Symbol) :
    t'.symbolWeight z = t.symbolWeight z + if d ≠ noSlot ∧ t.slotOfSym z = d then 1 else 0 := by
  unfold Tree.deferredStep at hd
  split at hd
  · rename_i hnone
    obtain rfl := Option.some.inj hd
    simp [hnone]
  · rename_i hne
    obtain ⟨r, hr, rfl⟩ := Option.map_eq_some_iff.mp hd
    obtain ⟨hlt, hroom⟩ := h.deferred_lt_root hne
    have hfits := h.fits
    obtain ⟨hsucc, hnat⟩ := weightSucc_of_lt (c := c) (w := (t.node d).weight) (by omega)
    rw [h.shape.symbolWeight_slideAndIncrement hlt.le hr z, hsucc, hnat]
    by_cases e : t.slotOfSym z = d
    · rw [if_pos e, if_pos ⟨hne, e⟩, Tree.symbolWeight_eq, e]
    · rw [if_neg e, if_neg fun hand => e hand.2]
      rfl

end Tree.Pending

/-! ## What the start of an update leaves to count (R81, R83 to R86) -/

/-- The start `u` of an update of `y`, from the tree `t`: no symbol's weight has changed, `y` is now among the symbols seen,
and its leaf is in the first slot of the chain, with nothing deferred, or is deferred, with an INTERNAL node first. -/
structure UpdateStart.Targets (u : UpdateStart) (t : Tree) (y : Symbol) : Prop where
  weight : ∀ z, u.tree.symbolWeight z = t.symbolWeight z
  seen : u.tree.seenCount = t.seenCount + if t.isNew y then 1 else 0
  target : (u.tree.slotOfSym y = u.first ∧ u.first ≠ noSlot ∧ u.defer = noSlot) ∨
    (u.tree.slotOfSym y = u.defer ∧ u.defer ≠ noSlot ∧ (u.tree.node u.first).kind = .internal)

/-- The chain and the deferred step together count `y` once and no other symbol. -/
theorem UpdateStart.Targets.counted {u : UpdateStart} {t : Tree} {y : Symbol} (hu : u.Targets t y) (h : u.tree.Shape)
    (z : Symbol) :
    (if u.first ≠ noSlot ∧ u.tree.slotOfSym z = u.first then 1 else 0) +
      (if u.defer ≠ noSlot ∧ u.tree.slotOfSym z = u.defer then 1 else 0) = if z = y then 1 else 0 := by
  have hat : u.tree.slotOfSym y ≠ noSlot → (u.tree.slotOfSym z = u.tree.slotOfSym y ↔ z = y) := fun hy =>
    ⟨h.slotOfSym_inj hy, fun e => by rw [e]⟩
  rcases hu.target with ⟨hfirst, hne, hdefer⟩ | ⟨hdefer, hne, hint⟩
  · rw [hfirst] at hat
    simp only [hdefer, hne, hat hne, ne_eq, not_true_eq_false, not_false_eq_true, true_and, false_and, if_false,
      Nat.add_zero]
  · rw [hdefer] at hat
    have hnot : ¬ (u.first ≠ noSlot ∧ u.tree.slotOfSym z = u.first) := fun ⟨hn, e⟩ => by
      rw [← e, h.kind_slotOfSym (e ▸ hn)] at hint
      cases hint
    simp only [hnot, hne, hat hne, ne_eq, not_false_eq_true, true_and, if_false, Nat.zero_add]

/-- `Split` defers the new leaf, of weight 0, and the chain starts at the new INTERNAL node (R83). -/
theorem Tree.IsSplit.targets {t t' : Tree} {y : Symbol} (h : t.Shape) (hs : t.IsSplit y t') (hlo : 2 ≤ t.lo.toNat)
    (hnytp : t.nytp = true) (hy : t.slotOfSym y = noSlot) :
    UpdateStart.Targets ⟨t', t.lo, t.lo - 1⟩ t y where
  weight z := by
    rw [Tree.symbolWeight_eq, Tree.symbolWeight_eq, hs.slotOfSym]
    split
    · rename_i e
      rw [hs.node_leaf hlo, ← e, hy]
      rfl
    · rw [(hs.kept_of_ge hlo (h.lo_le_slotOfSym z)).1]
  seen := by
    have hlo' := h.loEven.2
    have hnew : t.isNew y = true := by rw [Tree.isNew, hy]; rfl
    rw [Tree.seenCount, Tree.seenCount, hs.lo, hs.nytp, hnytp, hnew, toNat_slot_pred_two hlo]
    simp only [if_true]
    omega
  target := by
    have hpred := toNat_slot_pred (i := t.lo) (by omega)
    have hlo' := h.loEven.2
    have hne : t.lo - 1 ≠ noSlot := slot_ne_noSlot (by omega)
    exact .inr ⟨by rw [hs.slotOfSym, if_pos rfl], hne, by rw [hs.node_lo]⟩

/-- `Absorb` makes the NYT, of weight 0, the leaf where the chain starts (R84). -/
theorem Tree.IsAbsorb.targets {t t' : Tree} {y : Symbol} (h : t.Shape) (hs : t.IsAbsorb y t') (hnytp : t.nytp = true)
    (hlo : t.lo = 0) (hy : t.slotOfSym y = noSlot) : UpdateStart.Targets ⟨t', 0, noSlot⟩ t y where
  weight z := by
    rw [Tree.symbolWeight_eq, Tree.symbolWeight_eq, hs.slotOfSym, (hs.kept _).1]
    split
    · rename_i e
      have hnyt := (h.nyt_canonical hnytp).2.1
      rw [hlo] at hnyt
      rw [hnyt, ← e, hy]
      rfl
    · rfl
  seen := by
    have hnew : t.isNew y = true := by rw [Tree.isNew, hy]; rfl
    rw [Tree.seenCount, Tree.seenCount, hs.lo, hs.nytp, hnytp, hnew]
    rfl
  target := .inl ⟨by rw [hs.slotOfSym, if_pos rfl], show (0 : Slot) ≠ noSlot by decide, rfl⟩

/-- The leader swap brings the leaf of a seen symbol to the leader's slot, where it is counted first or deferred (R85, R86,
R89). -/
theorem Tree.Shape.seenStart_targets {t : Tree} (h : t.Shape) {y : Symbol} (hy : t.slotOfSym y ≠ noSlot)
    {u : UpdateStart} (hu : t.seenStart y = some u) (hshape : u.tree.Shape) : u.Targets t y := by
  obtain ⟨hq, hleaf, _⟩ := (h.leafOfSlot y).resolve_left hy
  obtain ⟨_, hl, _⟩ := t.leaderFrom_top (t.slotOfSym y) (fuel := 511) hq (by omega)
  rw [← Tree.leader] at hl
  obtain ⟨t', hswap, hm⟩ := h.swapLeaves hq hl
  unfold Tree.seenStart at hu
  dsimp only at hu
  generalize t.leader (t.slotOfSym y) = l at *
  have hold : t.isNew y = false := beq_eq_false_iff_ne.mpr hy
  have hweight := hm.symbolWeight (Equiv.swap_apply_self (t.slotOfSym y) l)
  have hseen : t'.seenCount = t.seenCount + if t.isNew y then 1 else 0 := by
    rw [Tree.seenCount, Tree.seenCount, hm.lo, hm.nytp, hold]
    rfl
  have hslot : t'.slotOfSym y = l := by rw [hm.slotOf, Equiv.swap_apply_left]
  split at hu
  · cases hu
  · rw [hswap, Option.map_some] at hu
    obtain rfl := Option.some.inj hu
    split
    · rename_i hsib
      rw [if_pos hsib] at hshape
      have hshape : t'.Shape := hshape
      have heven := hshape.loEven
      have hroot : l ≠ root := fun e => by
        have := congrArg BitVec.toNat e
        rw [toNat_root] at this
        omega
      have hparent := hshape.parents l ⟨by omega, hl⟩ hroot
      exact ⟨hweight, hseen, .inr ⟨hslot, slot_ne_noSlot hl, hparent.2.2.1⟩⟩
    · exact ⟨hweight, hseen, .inl ⟨hslot, slot_ne_noSlot hl, rfl⟩⟩

/-- Whichever way the symbol takes, its leaf alone is left to count (R81). -/
theorem Tree.Shape.updateStart_targets {t : Tree} (h : t.Shape) {y : Symbol} {u : UpdateStart}
    (hu : t.updateStart y = some u) (hshape : u.tree.Shape) : u.Targets t y := by
  unfold Tree.updateStart at hu
  by_cases hy : t.slotOfSym y = noSlot
  · have hnytp := h.nytp_of_unseen hy
    rw [if_pos hy, if_neg (by rw [hnytp]; decide)] at hu
    have heven := h.loEven
    split at hu
    · obtain ⟨t', he, hs⟩ := t.split_isSplit y (by omega) heven.2
      obtain rfl := Option.some.inj (he.symm.trans hu)
      exact hs.targets h (by omega) hnytp hy
    · obtain rfl := Option.some.inj hu
      exact (t.absorb_isAbsorb y).targets h hnytp (BitVec.eq_of_toNat_eq (Nat.eq_zero_of_not_pos ‹_›)) hy
  · rw [if_neg hy] at hu
    exact h.seenStart_targets hy hu hshape

/-! ## The whole update -/

/-- An update of a well-formed tree with headroom adds 1 to the weight of its symbol and to no other's, and the symbol is
then seen (R25, R88, R92). -/
theorem Tree.WellFormed.update_counts {c : WBits} {t t' : Tree} {y : Symbol} (h : t.WellFormed c)
    (hroom : (t.node root).weight.toNat < 2 ^ c.bits - 1) (hu : t.update c y = some t') :
    (∀ z, t'.symbolWeight z = t.symbolWeight z + if z = y then 1 else 0) ∧
      t'.seenCount = t.seenCount + if t.isNew y then 1 else 0 := by
  obtain ⟨u, t₁, hstart, hchain, hdefer⟩ := Tree.update_cases hu
  obtain ⟨u', hstart', hp, hne, _⟩ := h.updateStart_pending hroom y
  obtain rfl := Option.some.inj (hstart.symm.trans hstart')
  have htargets := h.shape.updateStart_targets hstart hp.shape
  constructor
  · intro z
    obtain ⟨t₁', hchain', hp₁, _⟩ := hp.chain (n := 512) (by omega)
    obtain rfl := Option.some.inj (hchain.symm.trans hchain')
    obtain ⟨hweight, hslot⟩ := hp.symbolWeight_chain hchain z
    rw [hp₁.symbolWeight_deferredStep hdefer z, hweight, htargets.weight, Nat.add_assoc, ← htargets.counted hp.shape z]
    simp only [and_congr_right hslot]
  · obtain ⟨hlo₁, hnytp₁⟩ := Tree.chain_frame hchain
    obtain ⟨hlo, hnytp⟩ := Tree.deferredStep_frame hdefer
    rw [← htargets.seen, Tree.seenCount, Tree.seenCount, hlo, hnytp, hlo₁, hnytp₁]

/-- Settles O36. -/
theorem updateKeepsTheTreeWellFormed : Obligations.UpdateKeepsTheTreeWellFormed := by
  intro c t y h hroom
  obtain ⟨t', hu, hwf, _⟩ := h.update hroom y
  exact ⟨t', hu, hwf⟩

/-- Settles O37; a symbol that has been counted has a weight, so it is seen. -/
theorem updateCountsOneSymbol : Obligations.UpdateCountsOneSymbol := by
  intro c t t' y h hroom hu
  obtain ⟨t'', hu', _, htotal⟩ := h.update hroom y
  obtain rfl := Option.some.inj (hu.symm.trans hu')
  obtain ⟨hweight, hseen⟩ := h.update_counts hroom hu
  refine ⟨htotal, fun hnone => ?_, hweight, hseen⟩
  have hy := hweight y
  rw [if_pos rfl, Tree.symbolWeight, if_pos hnone] at hy
  omega

end Sys2Proof.Machine
end

section
/-!
PROOFS. Every step keeps the state sound, from the reset state on (O55, O54). On a well-formed tree the walk never fails with
E_INTERNAL and waits only at sound positions; every symbol has its bits; an update with headroom succeeds.
-/

namespace Sys2Proof.Machine

open Sys2Proof.Config

/-! ## The walk on a well-formed tree (R110 to R112) -/

/-- The walk waits at a sound position, has found a symbol, or has failed on the stream and not on the tree. -/
def Tree.WalkSound (t : Tree) : Walk → Prop
  | .needs pos => t.PosSound pos
  | .found _ _ _ => True
  | .failed e _ => e ≠ .eInternal

section
variable {t : Tree} (h : t.Shape)
include h

/-- Check IC6 passes at every slot in use (R110). -/
theorem Tree.Shape.enterSlot_sound {i : Slot} (hi : t.inUse i) (n : Nat) : t.WalkSound (t.enterSlot i n) := by
  cases hk : (t.node i).kind
  case unused => exact absurd hk (h.kind_ne_unused hi)
  case internal =>
    rw [h.enterSlot_internal hi.2 hk]
    exact ⟨hi.2, hk⟩
  case leaf =>
    simp only [Tree.enterSlot, hk]
    trivial
  case nyt =>
    simp only [Tree.enterSlot, hk]
    exact ⟨(h.nytOnly i hi.2 hk).1, by decide, by decide⟩

/-- A branch bit leads from an INTERNAL slot to a slot in use (R33, R34). -/
theorem Tree.Shape.inUse_branch {i : Slot} (hi : i.toNat ≤ 510) (hk : (t.node i).kind = .internal) (x : Bool) :
    t.inUse ((t.node i).child - 1 + (BitVec.ofBool x).setWidth 9) := by
  obtain ⟨hodd, hlo, hlt, hpred⟩ := h.child_bounds hi hk
  have heven := h.loEven
  cases x
  · have hleft : (t.node i).child - 1 + (BitVec.ofBool false).setWidth 9 = (t.node i).child - 1 := add_zero _
    rw [hleft]
    exact ⟨by omega, by omega⟩
  · have hright : (t.node i).child - 1 + (BitVec.ofBool true).setWidth 9 = (t.node i).child := sub_add_cancel _ 1
    rw [hright]
    exact ⟨hlo.le, by omega⟩

theorem Tree.Shape.takeBit_sound {pos : TwPos} (hpos : t.PosSound pos) (x : Bool) : t.WalkSound (t.takeBit pos x) := by
  cases pos with
  | descend i n => exact h.enterSlot_sound (h.inUse_branch hpos.1 hpos.2 x) _
  | raw v left n =>
    obtain ⟨hnytp, hpos, hleft⟩ := hpos
    unfold Tree.takeBit
    dsimp only
    split
    · split
      · exact fun e => by cases e
      · trivial
    · exact ⟨hnytp, by omega, by omega⟩

/-- The walk stays sound over the beats presented (R110). -/
theorem Tree.Shape.walkBeats_sound {bs : List InBeat} {w : Walk} (hw : t.WalkSound w) :
    t.WalkSound (t.walkBeats bs w).1 := by
  induction bs generalizing w with
  | nil => exact hw
  | cons b bs ih =>
    cases w with
    | needs pos =>
      refine ih (w := t.takeBeat pos b) ?_
      unfold Tree.takeBeat
      split
      · exact fun e => by cases e
      · exact h.takeBit_sound hw _
    | found y new n => exact hw
    | failed e v => exact hw

end

/-! ## The ends of a command in a sound state (R145 to R148) -/

section
variable {s : State} (ht : s.tree.WellFormed s.wBits) (hc : s.CauseMatches) (h6 : s.fatalCause ≠ 6)
include ht hc h6

/-- Every error but E_INTERNAL leaves the state sound (R145, R146). -/
theorem State.raise_sound {e : Status} (he : e ≠ .eInternal) (v : Word) : (s.raise e v).Sound := by
  cases hf : e.isFatal
  · rw [State.raise_of_not_fatal _ _ hf]
    exact State.offer_sound ht hc h6 he
  · have hstream : e = .eTruncated ∨ e = .eStream := by cases e <;> simp_all [Status.isFatal]
    rw [State.raise_of_stream_error _ _ hstream]
    refine State.offer_sound (s := { s with fatal := true, fatalCause := e.code }) ht ?_ ?_ he
    · rcases hstream with rfl | rfl <;> simp [State.CauseMatches, Status.code]
    · rcases hstream with rfl | rfl <;> simp [Status.code]

theorem State.emit_sound (hf : s.fatal = false) (beats : List OutBeat) {upd : Option Symbol}
    (hm : upd.isSome = true → s.atMaxW = false) {r : Response} (hr : r.status = .ok) : (s.emit beats upd r).Sound := by
  have hr' : r.status ≠ .eInternal := by rw [hr]; decide
  by_cases hb : beats = []
  · subst hb
    exact State.complete_sound ht hc h6 hm hr'
  · rcases s.emit_cases upd r hb with ⟨_, h⟩ | ⟨_, h⟩ <;> rw [h]
    · exact State.complete_sound (s := { s with boutSent := s.boutSent ++ beats }) ht hc h6 hm hr'
    · exact ⟨ht, hc, h6, hf, hb, hr, hm⟩

theorem State.mapThen_sound (hf : s.fatal = false) (y : Symbol) {upd : Option Symbol}
    (hm : upd.isSome = true → s.atMaxW = false) : (s.mapThen y upd).Sound := by
  obtain ⟨b, hb, _⟩ := ht.shape.walk_mapBits y
  simp only [State.mapThen, hb]
  exact State.emit_sound ht hc h6 hf _ hm rfl

theorem State.walkOn_sound (hf : s.fatal = false) {upd : Bool} (hm : upd = true → s.atMaxW = false) {w : Walk}
    (hw : s.tree.WalkSound w) : (s.walkOn upd w).Sound := by
  have hsound := ht.shape.walkBeats_sound (bs := s.binQ) hw
  rcases s.walkOn_cases upd w with ⟨pos, hwalk, h⟩ | ⟨y, new, n, rest, _, h⟩ | ⟨e, v, rest, hwalk, h⟩ <;> rw [h]
  · rw [hwalk] at hsound
    exact ⟨ht, hc, h6, hf, hsound, hm⟩
  · refine State.complete_sound (s := { s with binQ := rest }) ht hc h6 (fun hupd => hm ?_) nofun
    cases upd
    · cases hupd
    · rfl
  · rw [hwalk] at hsound
    exact State.raise_sound (s := { s with binQ := rest }) ht hc h6 hsound v

theorem exec_sound {i : Instr} {t : State} (h : exec i s = .next t) : t.Sound := by
  have henter := ht.shape.enterSlot_sound (i := root) ⟨ht.loEven.2, by decide⟩ 0
  refine exec_of h ?nop ?init (fun v => ?read) (fun e he => ?raise) (fun hf y => ?map) (fun hf hm y => ?encode)
    (fun hf hm y r hr => ?update) (fun hf => ?walk) (fun hf hm => ?decode)
  case nop => exact State.offer_sound ht hc h6 (by decide)
  case init =>
    have hcause : s.freshSession.fatalCause ≠ 6 := by rw [State.freshSession_fatalCause]; decide
    exact State.offer_sound (s := s.freshSession) (Tree.fresh_wellFormed _) rfl hcause (by decide)
  case read => exact State.offer_sound ht hc h6 nofun
  case raise => exact State.raise_sound ht hc h6 (by rintro rfl; cases he) 0
  case map => exact State.mapThen_sound ht hc h6 hf y (by simp)
  case encode => exact State.mapThen_sound ht hc h6 hf y fun _ => hm
  case update => exact State.complete_sound ht hc h6 (fun _ => hm) (by rw [hr]; decide)
  case walk => exact State.walkOn_sound ht hc h6 hf (by simp) henter
  case decode => exact State.walkOn_sound ht hc h6 hf (fun _ => hm) henter

end

/-! ## Reset and steps -/

theorem State.resetEdge_sound (s : State) : s.resetEdge.Sound :=
  ⟨Tree.fresh_wellFormed _, rfl, by rw [State.resetEdge_fatalCause]; decide, trivial⟩

/-- Settles O54. -/
theorem resetStateIsSound : Obligations.ResetStateIsSound := fun c =>
  ⟨⟨Tree.weightsFit_fresh c, rfl, nofun, nofun⟩,
    ⟨Tree.fresh_wellFormed c, rfl, by rw [State.resetWith_fatalCause]; decide, trivial⟩⟩

/-- Settles O55, by the cases of a step. -/
theorem stepKeepsSoundness : Obligations.StepKeepsSoundness := by
  rintro s t ⟨ht, hc, h6, hphase⟩ h
  have hsame : s.Sound := ⟨ht, hc, h6, hphase⟩
  unfold State.PhaseSound at hphase
  rcases step_cases h with rfl | rfl | ⟨_, w, rest, _, hrun⟩ | ⟨upd, pos, hp, rfl⟩ | ⟨beats, upd, r, hp, rfl⟩ | ⟨r, hp, rfl⟩
  · exact s.resetEdge_sound
  · exact hsame
  · rcases hrun with rfl | ⟨i, hi⟩
    · exact State.raise_sound (s := { s with cmdQ := rest }) ht hc h6 (by decide) 0
    · exact exec_sound (s := { s with cmdQ := rest }) ht hc h6 hi
  · rw [hp] at hphase
    obtain ⟨hf, hpos, hm⟩ := hphase
    exact State.walkOn_sound ht hc h6 hf hm hpos
  · rw [hp] at hphase
    obtain ⟨hf, _, hok, hm⟩ := hphase
    exact State.emit_sound ht hc h6 hf beats hm hok
  · rw [hp] at hphase
    exact State.offer_sound ht hc h6 hphase

end Sys2Proof.Machine
end

section
/-!
PROOFS. Reset, INIT and the reads (O11, O12, O14, O15, O17, O18): the packed words as shifted fields, and that the reads of
all slots tell the whole of a well-formed tree.
-/

namespace Sys2Proof.Machine

open Sys2Proof.Config

/-! ## Reset and INIT (R43, R130, R151) -/

/-- The fresh tree has the values of R43. -/
theorem Tree.fresh_hasResetValues : Tree.fresh.HasResetValues := by
  refine ⟨fun i _ => ⟨Tree.fresh_weight i, ?_, ?_, ?_, Tree.fresh_kind i⟩, Tree.fresh_slotOfSym, rfl, rfl⟩ <;>
    rw [Tree.fresh_node] <;> split <;> rfl

/-- Settles O12. -/
theorem resetStateHasTheResetValues : Obligations.ResetStateHasTheResetValues := fun _ =>
  ⟨Tree.fresh_hasResetValues, rfl, rfl, rfl, rfl⟩

/-- Settles O11: the reset edge, and every output is gated by `rst`. -/
theorem resetGivesTheResetState : Obligations.ResetGivesTheResetState := by
  intro s hrst
  refine ⟨⟨Tree.fresh, Tree.fresh_hasResetValues, ?_, rfl⟩, ?_, ?_, ?_, ?_⟩
  · rw [step, if_pos hrst]
    rfl
  · rw [State.cmdReady, hrst]
    rfl
  · rw [State.rspOffered, if_pos hrst]
  · rw [State.beatOffered, if_pos hrst]
  · rw [State.binReady, hrst]
    rfl

/-- Settles O14. -/
theorem initBeginsAFreshSession : Obligations.InitBeginsAFreshSession := fun _ =>
  ⟨Tree.fresh, Tree.fresh_hasResetValues, rfl⟩

/-! ## Packed words as shifted fields (R27, R28, R61, R69) -/

/-- The word of CSR_RD (R61, R63). -/
theorem encode_csrRd (n : Operand) : encode (.csrRd n) = 0x70000000 ||| n.setWidth 32 :=
  (BitVec.setWidth_eq _).symm.trans
    (BitVec.setWidth_append_eq_shiftLeft_setWidth_or (b := (0x7 : BitVec 4) ++ (0 : BitVec 12)))

/-- The ID word (R27). -/
theorem idWord_eq (c : WBits) : idWord c = 0x41480100 ||| BitVec.ofNat 32 (9 + c.val) := by
  have hbits : (BitVec.ofNat 8 c.bits).setWidth 32 = BitVec.ofNat 32 (9 + c.val) := by
    apply BitVec.eq_of_toNat_eq
    rw [BitVec.toNat_setWidth, BitVec.toNat_ofNat, BitVec.toNat_ofNat, WBits.bits]
    omega
  rw [← hbits]
  exact (BitVec.setWidth_eq _).symm.trans
    (BitVec.setWidth_append_eq_shiftLeft_setWidth_or (b := (0x4148 : BitVec 16) ++ (0x01 : BitVec 8)))

theorem setWidth_ofBool (b : Bool) : (BitVec.ofBool b).setWidth 32 = if b then (1 : Word) else 0 := by
  cases b <;> rfl

/-- The STATUS word (R28). -/
theorem State.statusWord_eq (s : State) : s.statusWord =
    (s.fatalCause.setWidth 32 <<< 4) ||| ((if 511 - s.tree.lo.toNat = 1 then (1 : Word) else 0) <<< 2) |||
      ((if s.tree.nytp then (1 : Word) else 0) <<< 1) ||| (if s.fatal then (1 : Word) else 0) := by
  have hfresh : s.tree.isFresh = decide (511 - s.tree.lo.toNat = 1) := rfl
  refine (BitVec.setWidth_eq s.statusWord).symm.trans ?_
  rw [State.statusWord]
  simp only [BitVec.setWidth_append_eq_shiftLeft_setWidth_or, setWidth_ofBool, BitVec.shiftLeft_or_distrib,
    ← BitVec.shiftLeft_add, hfresh, decide_eq_true_eq]
  simp

theorem Kind.setWidth_code (k : Kind) : k.code.setWidth 32 = if k = .internal then (1 : Word) else if k = .leaf then 2
    else if k = .nyt then 3 else 0 := by
  cases k <;> rfl

/-- The NODE_S word (R69). -/
theorem nodeSWord_eq (n : Node) : nodeSWord n = (n.child.setWidth 32 <<< 19) ||| (n.parent.setWidth 32 <<< 10) |||
    (n.sym.setWidth 32 <<< 2) ||| (if n.kind = .internal then (1 : Word) else if n.kind = .leaf then 2
      else if n.kind = .nyt then 3 else 0) := by
  refine (BitVec.setWidth_eq (nodeSWord n)).symm.trans ?_
  rw [nodeSWord]
  simp only [BitVec.setWidth_append_eq_shiftLeft_setWidth_or, BitVec.shiftLeft_or_distrib, ← BitVec.shiftLeft_add,
    Kind.setWidth_code]
  simp

/-! ## CSR_RD (R132) -/

/-- The decoder on a CSR_RD word (R61, R64). -/
theorem decode_csrRd {w : Word} (hopc : opcField w = 7) (hrsvd : rsvdField w = 0) :
    decode w = .ok (.csrRd (opndField w)) := by
  simp [decode, hopc, hrsvd]

/-- A word that the decoder rejects is E_ILLEGAL and nothing else (R142). -/
theorem State.runWord_of_rejects {w : Word} (s : State) (h : ∃ e, decode w = .error e) :
    s.runWord w = .next (s.offer ⟨.eIllegal, 0⟩) := by
  obtain ⟨e, he⟩ := h
  simp only [State.runWord, he]
  rw [State.raise_of_not_fatal _ _ rfl]

theorem exec_csrRd (s : State) {opnd : Operand} {n : Csr} (h : csrOperand opnd = some n) :
    exec (.csrRd opnd) s = .next (s.offer ⟨.ok, s.csrValue n⟩) := by
  simp only [exec, execCsrRd, h, State.withOperand_some]
  rfl

/-- Settles O15. -/
theorem csrReadsAnswerTheirFormulas : Obligations.CsrReadsAnswerTheirFormulas := by
  refine ⟨encode_csrRd, fun s w rest hrst hidle hq hopc => ⟨fun hrsvd => ?_, fun hrsvd => ?_⟩,
    fun s => ⟨?_, ?_, ?_, ⟨_, rfl⟩, ⟨_, rfl⟩, ?_, fun hlo => ⟨?_, ?_⟩, fun opnd h => ?_⟩, fun c => ?_⟩
  · rw [step_of_idle hrst hidle hq, State.runWord_of_rejects _ ((decode_rejects_iff w).mpr (.inr (.inl hrsvd)))]
  · rw [step_of_idle hrst hidle hq, State.runWord_of_decode _ (decode_csrRd hopc hrsvd)]
  · rw [exec_csrRd s (n := .id) rfl, State.csrValue, idWord_eq]
  · rw [exec_csrRd s (n := .status) rfl, State.csrValue, State.statusWord_eq]
  · exact exec_csrRd s (n := .total) rfl
  · rw [exec_csrRd s (n := .loSlot) rfl, State.csrValue, BitVec.ofNat_toNat]
  · exact ⟨s.tree.nodeCount, by rw [Tree.nodeCount]; omega, by rw [Tree.nodeCount]; omega,
      by rw [Tree.nodeCount]; omega, exec_csrRd s (n := .nodes) rfl⟩
  · refine ⟨s.tree.seenCount, ?_, fun _ => ?_, exec_csrRd s (n := .seen) rfl⟩
    · rw [Tree.seenCount]
      split <;> omega
    · rw [Tree.seenCount]
      cases s.tree.nytp <;> rfl
  · simp only [exec, execCsrRd, csrOperand_of_gt h, State.withOperand_none]
    rw [State.raise_of_not_fatal _ _ rfl]
  · refine ⟨idWord_eq c, ?_, Tree.fresh_weight root, ?_, ?_, rfl⟩
    · rw [State.csrValue, State.statusWord_eq]
      simp
    · simp [State.csrValue, Tree.nodeCount]
    · simp [State.csrValue, Tree.seenCount]

/-! ## Node reads (R137, R138) -/

/-- NODE_RD_S of a slot (R138). -/
theorem exec_nodeRdS (s : State) (i : Fin 511) :
    exec (.nodeRdS (BitVec.ofNat 16 i.val)) s = .next (s.offer ⟨.ok, nodeSWord s.tree.nodes[i]⟩) := by
  have hi : (BitVec.ofNat 16 i.val).toNat = i.val := by rw [BitVec.toNat_ofNat]; omega
  have hslot : ((BitVec.ofNat 16 i.val).setWidth 9).toNat = i.val := by rw [BitVec.toNat_setWidth, hi]; omega
  simp only [exec, execNodeRdS, slotOperand_of_le (show (BitVec.ofNat 16 i.val).toNat ≤ 510 by omega),
    State.withOperand_some, State.respondOk]
  rw [Tree.node_of_lt _ (by omega)]
  simp only [hslot]
  rfl

/-- Settles O17. -/
theorem nodeReadAnswersTheStructure : Obligations.NodeReadAnswersTheStructure := by
  refine ⟨fun s => ⟨fun i => ?_, fun opnd h => ?_⟩, rfl⟩
  · rw [exec_nodeRdS, nodeSWord_eq]
  · simp only [exec, execNodeRdS, slotOperand_of_gt h, State.withOperand_none]
    rw [State.raise_of_not_fatal _ _ rfl]

theorem Kind.code_injective : Function.Injective Kind.code :=
  Function.LeftInverse.injective (g := Kind.ofCode) fun k => by cases k <;> rfl

/-- A packed word tells its two fields. -/
theorem append_fields_inj {v w : Nat} {x x' : BitVec v} {y y' : BitVec w} (h : x ++ y = x' ++ y') : x = x' ∧ y = y' := by
  constructor
  · rw [← BitVec.extractLsb'_append_eq_left (a := x) (b := y), h, BitVec.extractLsb'_append_eq_left]
  · rw [← BitVec.extractLsb'_append_eq_right (a := x) (b := y), h, BitVec.extractLsb'_append_eq_right]

/-- The weight and the NODE_S word of a node tell the node (R69, R137). -/
theorem Node.eq_of_reads {m n : Node} (hweight : m.weight = n.weight) (h : nodeSWord m = nodeSWord n) : m = n := by
  obtain ⟨hupper, hcode⟩ := append_fields_inj h
  obtain ⟨hupper, hsym⟩ := append_fields_inj hupper
  obtain ⟨hupper, hparent⟩ := append_fields_inj hupper
  obtain ⟨_, hchild⟩ := append_fields_inj hupper
  have hkind := Kind.code_injective hcode
  cases m
  cases n
  simp_all only

/-- Where each node of `t` is that of `u`, the leaf that `SLOT_OF` gives in `t` is the one it gives in `u` (R36). -/
theorem Tree.Shape.slotOfSym_of_nodes {t u : Tree} (ht : t.Shape) (hu : u.Shape) (h : ∀ i, t.node i = u.node i)
    {y : Symbol} (hy : t.slotOfSym y ≠ noSlot) : u.slotOfSym y = t.slotOfSym y := by
  obtain ⟨hle, hleaf, hsym⟩ := (ht.leafOfSlot y).resolve_left hy
  rw [h] at hleaf hsym
  exact (hu.slotOfSym_eq_iff hle).mpr ⟨hleaf, hsym⟩

/-- Two trees of sound shape with the same nodes have the same `LO`, `NYTP` and `SLOT_OF` too (R22, R23, R36). -/
theorem Tree.Shape.eq_of_nodes {t u : Tree} (ht : t.Shape) (hu : u.Shape) (h : ∀ i, t.node i = u.node i) : t = u := by
  have hlo : t.lo = u.lo := by
    have hbelow : ∀ i : Slot, i.toNat ≤ 510 → (i.toNat < t.lo.toNat ↔ i.toNat < u.lo.toNat) := fun i hi => by
      rw [← ht.used i hi, ← hu.used i hi, h]
    have h₁ := hbelow t.lo ht.loEven.2
    have h₂ := hbelow u.lo hu.loEven.2
    exact BitVec.eq_of_toNat_eq (by omega)
  have hnytp : t.nytp = u.nytp := by
    rw [Bool.eq_iff_iff]
    constructor
    · intro hn
      exact (hu.nytOnly t.lo ht.loEven.2 (by rw [← h]; exact ht.nytAtLo hn)).1
    · intro hn
      exact (ht.nytOnly u.lo hu.loEven.2 (by rw [h]; exact hu.nytAtLo hn)).1
  have hslotOf : t.slotOf = u.slotOf := by
    apply Vector.ext
    intro y hy
    have hsame : t.slotOfSym (BitVec.ofNat 8 y) = u.slotOfSym (BitVec.ofNat 8 y) := by
      by_cases e : t.slotOfSym (BitVec.ofNat 8 y) = noSlot
      · by_cases e' : u.slotOfSym (BitVec.ofNat 8 y) = noSlot
        · rw [e, e']
        · exact hu.slotOfSym_of_nodes ht (fun i => (h i).symm) e'
      · exact (ht.slotOfSym_of_nodes hu h e).symm
    simpa only [Tree.slotOfSym, BitVec.toNat_ofNat, Nat.mod_eq_of_lt (show y < 2 ^ 8 from hy)] using hsame
  have hnodes : t.nodes = u.nodes := by
    apply Vector.ext
    intro i hi
    have hnat : (BitVec.ofNat 9 i).toNat = i := by rw [BitVec.toNat_ofNat]; omega
    have hi' := h (BitVec.ofNat 9 i)
    rw [Tree.node_of_lt _ (by omega), Tree.node_of_lt _ (by omega)] at hi'
    simpa only [hnat] using hi'
  cases t
  cases u
  simp_all only

/-- Settles O18: the reads of a slot tell its node, and the nodes tell the rest of the tree. -/
theorem nodeReadsDetermineTheTree : Obligations.NodeReadsDetermineTheTree := by
  intro c t u ht hu hreads
  refine ht.shape.eq_of_nodes hu.shape fun i => ?_
  by_cases hi : i.toNat ≤ 510
  · exact Node.eq_of_reads (hreads i hi).1 (hreads i hi).2
  · have hnone : i = noSlot := by_contra fun hne => hi ((slot_le_iff i).mpr hne)
    rw [hnone, Tree.node_noSlot, Tree.node_noSlot]

end Sys2Proof.Machine
end

section
/-!
PROOFS. Streams of updates (O39), the leader (O31), and the codewords of a well-formed tree (O43, O44). On the way up from a
slot every step leaves at least one pair of slots behind, so no codeword is longer than the 255 pairs below the root.
-/

namespace Sys2Proof.Machine

open Sys2Proof.Config

/-! ## Streams of updates (R25, R92, R94) -/

/-- UPDATE on a tree that updates (R94). -/
theorem exec_update {s : State} {y : Symbol} {t : Tree} (hf : s.fatal = false) (hm : s.atMaxW = false)
    (hu : s.tree.update s.wBits y = some t) :
    exec (.update (y.setWidth 16)) s = .next ({ s with tree := t }.offer ⟨.ok, resultWord 0 (s.tree.isNew y) y⟩) := by
  change Host.Outcome.next _ = _
  rw [State.unlessFatal_clear _ hf, symOperand_setWidth, State.withOperand_some, State.withHeadroom_clear _ hm,
    State.complete, hu]

/-- A stream within the headroom counts its symbols on any well-formed tree, by induction on the stream (R92). -/
theorem stream_counts (ys : List Symbol) : ∀ s₀ : State, s₀.tree.WellFormed s₀.wBits → s₀.fatal = false →
    (s₀.tree.node root).weight.toNat + ys.length < 2 ^ s₀.wBits.bits →
      ∃ s, execAll (ys.map fun y => .update (y.setWidth 16)) s₀ = .next s ∧ s.tree.WellFormed s₀.wBits ∧
        (s.tree.node root).weight.toNat = (s₀.tree.node root).weight.toNat + ys.length ∧
        (∀ y, s.tree.symbolWeight y = s₀.tree.symbolWeight y + ys.count y) ∧ s.fatal = false := by
  induction ys with
  | nil => exact fun s₀ hwf hf _ => ⟨s₀, rfl, hwf, rfl, fun _ => rfl, hf⟩
  | cons y ys ih =>
    intro s₀ hwf hf hlen
    rw [List.length_cons] at hlen
    have hroom : (s₀.tree.node root).weight.toNat < 2 ^ s₀.wBits.bits - 1 := by omega
    obtain ⟨t, hu, hwf₁, hroot⟩ := hwf.update hroom y
    obtain ⟨hweight, _⟩ := hwf.update_counts hroom hu
    obtain ⟨s, hrun, hwf', htotal, hcount, hf'⟩ :=
      ih ({ s₀ with tree := t }.offer ⟨.ok, resultWord 0 (s₀.tree.isNew y) y⟩)
        (by simpa using hwf₁) (by simpa using hf) (by simp only [State.offer_tree, State.offer_wBits]; omega)
    simp only [State.offer_tree, State.offer_wBits] at hwf' htotal hcount
    refine ⟨s, ?_, hwf', ?_, fun z => ?_, hf'⟩
    · rw [List.map_cons, execAll_cons (exec_update hf ((State.atMaxW_eq_false_iff hwf).mpr hroom) hu), hrun]
    · rw [htotal, hroot, List.length_cons]
      omega
    · rw [hcount, hweight, List.count_cons, Nat.add_assoc, Nat.add_comm (ys.count z)]
      simp only [beq_iff_eq, @eq_comm _ y z]

/-- Settles O39: in the fresh tree every count is 0. -/
theorem weightsCountTheStream : Obligations.WeightsCountTheStream := by
  intro c ys hlen
  obtain ⟨s, hrun, hwf, htotal, hcount, hf⟩ := stream_counts ys (State.resetWith c) (Tree.fresh_wellFormed c) rfl
    (by rw [State.resetWith_tree, Tree.fresh_weight]; simpa using hlen)
  refine ⟨s, hrun, hwf, ?_, fun y => ?_, hf⟩
  · rw [Tree.total, htotal, State.resetWith_tree, Tree.fresh_weight]
    exact Nat.zero_add _
  · rw [hcount, State.resetWith_tree, Tree.symbolWeight, if_pos (Tree.fresh_slotOfSym y), Nat.zero_add]

/-! ## The leader (R37, R89) -/

/-- Settles O31. -/
theorem leaderIsTheTopOfTheRun : Obligations.LeaderIsTheTopOfTheRun := by
  intro t q hq
  obtain ⟨hle, htop, hrun, hstop⟩ := t.leaderFrom_top q (fuel := 511) hq (by omega)
  rw [← Tree.leader] at hle htop hrun hstop
  refine ⟨hle, htop, fun k hqk hk => ?_, fun hlt => ?_⟩
  · rcases Nat.lt_or_eq_of_le hqk with hlt | heq
    · exact hrun k hlt hk
    · rw [BitVec.eq_of_toNat_eq heq]
      exact ⟨rfl, rfl⟩
  · have hsucc := toNat_slot_succ (i := t.leader q) (by omega)
    exact Classical.not_and_iff_not_or_not.mp (hstop _ hsucc (by omega))

/-! ## Codewords (R34, R39, R100) -/

/-- A codeword found within a bound is found within a larger one. -/
theorem Tree.codewordFrom_succ {t : Tree} {n : Nat} {i : Slot} {b : List Bool} (h : t.codewordFrom n i = some b) :
    t.codewordFrom (n + 1) i = some b := by
  induction n generalizing i b with
  | zero =>
    unfold Tree.codewordFrom at h ⊢
    split at h
    · rwa [if_pos ‹_›]
    · cases h
  | succ n ih =>
    unfold Tree.codewordFrom at h ⊢
    split at h
    · rwa [if_pos ‹_›]
    · rename_i hroot
      split at h
      · cases h
      · rename_i hparent
        obtain ⟨b', hb', rfl⟩ := Option.map_eq_some_iff.mp h
        rw [if_neg hroot, if_neg hparent, ih hb', Option.map_some]

theorem Tree.codeword_root (t : Tree) : t.codeword root = some [] := by
  rw [Tree.codeword, Tree.codewordFrom, if_pos rfl]

/-- The bit of a slot's place in its pair (R34). -/
theorem branchBit_eq (i : Slot) : branchBit i = decide (i.toNat % 2 = 1) := by
  rw [branchBit, BitVec.getLsbD, Nat.testBit_zero]

namespace Tree.Shape

section
variable {t : Tree} (h : t.Shape)
include h

theorem exists_codeword {i : Slot} (hi : t.inUse i) : ∃ b, t.codeword i = some b :=
  h.exists_codewordFrom hi (by omega)

/-- The codeword of a slot is its parent's and one bit more (R34, R100). -/
theorem codeword_of_parent {i : Slot} (hi : t.inUse i) (hroot : i ≠ root) :
    ∃ b, t.codeword (t.node i).parent = some b ∧ t.codeword i = some (b ++ [branchBit i]) := by
  obtain ⟨hlt, hle, _, _⟩ := h.parents i hi hroot
  obtain ⟨b, hb⟩ := h.exists_codewordFrom (fuel := 510) (i := (t.node i).parent) ⟨by have := hi.1; omega, hle⟩ (by omega)
  refine ⟨b, Tree.codewordFrom_succ hb, ?_⟩
  rw [Tree.codeword, Tree.codewordFrom, if_neg hroot, if_neg (slot_ne_noSlot hle), hb, Option.map_some]

/-- A codeword is no longer than the number of pairs between its slot's and the root's (R39). -/
theorem length_codeword {i : Slot} (hi : t.inUse i) {b : List Bool} (hb : t.codeword i = some b) :
    b.length + i.toNat / 2 ≤ 255 := by
  induction hn : 510 - i.toNat using Nat.strong_induction_on generalizing i b with
  | _ n ih =>
    have hle := hi.2
    by_cases hroot : i = root
    · rw [hroot, Tree.codeword_root] at hb
      obtain rfl := Option.some.inj hb
      rw [List.length_nil]
      omega
    · obtain ⟨hlt, hple, hint, hpair⟩ := h.parents i hi hroot
      obtain ⟨b', hb', hsome⟩ := h.codeword_of_parent hi hroot
      obtain rfl := Option.some.inj (hsome.symm.trans hb)
      have hparent := ih _ (by omega) ⟨by have := hi.1; omega, hple⟩ hb' rfl
      obtain ⟨hodd, _, hchild, _⟩ := h.child_bounds hple hint
      rw [List.length_append, List.length_singleton]
      omega

/-- The root is no LEAF: with two nodes or more it has children, and a tree of one node is the NYT alone (R33). -/
theorem kind_root_ne_leaf : (t.node root).kind ≠ .leaf := by
  intro hleaf
  have heven := h.loEven
  by_cases hlo : t.lo = root
  · by_cases hn : t.nytp = true
    · have hnyt := h.nytAtLo hn
      rw [hlo, hleaf] at hnyt
      cases hnyt
    · rw [h.fullWithoutNyt (Bool.eq_false_of_not_eq_true hn)] at hlo
      cases hlo
  · have hne : t.lo.toNat ≠ 510 := fun e => hlo (BitVec.eq_of_toNat_eq e)
    obtain ⟨hlt, hle, hint, _⟩ := h.parents 509 ⟨show t.lo.toNat ≤ 509 by omega, by decide⟩ (by decide)
    have hroot : (t.node 509).parent = root := BitVec.eq_of_toNat_eq (Nat.le_antisymm hle hlt)
    rw [hroot, hleaf] at hint
    cases hint

/-- A seen symbol maps to the codeword of its leaf (R101). -/
theorem mapBits_seen {y : Symbol} (hy : t.slotOfSym y ≠ noSlot) :
    ∃ b, t.codeword (t.slotOfSym y) = some b ∧ t.mapBits y = some b := by
  obtain ⟨hle, hleaf, hsym⟩ := (h.leafOfSlot y).resolve_left hy
  obtain ⟨b, hb⟩ := h.exists_codeword (h.inUse_of_kind hle (by rw [hleaf]; decide))
  exact ⟨b, hb, by simp [Tree.mapBits, hy, hleaf, hsym, hb]⟩

/-- An unseen symbol maps to the codeword of the NYT and its raw bits (R101). -/
theorem mapBits_unseen {y : Symbol} (hy : t.slotOfSym y = noSlot) :
    ∃ b, t.codeword t.lo = some b ∧ t.mapBits y = some (b ++ raw8 y) := by
  obtain ⟨b, hb⟩ := h.exists_codeword (i := t.lo) ⟨Nat.le_refl _, h.loEven.2⟩
  exact ⟨b, hb, by simp [Tree.mapBits, hy, h.nytp_of_unseen hy, hb]⟩

end

end Tree.Shape

/-- Settles O43. -/
theorem codewordsAreTheBranchBits : Obligations.CodewordsAreTheBranchBits := by
  intro c t hwf
  have h := hwf.shape
  refine ⟨t.codeword_root, fun i hi hroot => ?_, fun y hy => h.mapBits_seen hy, fun y hy => h.mapBits_unseen hy⟩
  rw [← branchBit_eq]
  exact h.codeword_of_parent hi hroot

/-- Settles O44: a leaf that is not the root has a codeword of at least one bit. -/
theorem mappedBitsAreBounded : Obligations.MappedBitsAreBounded := by
  intro c t y hwf
  have h := hwf.shape
  by_cases hy : t.slotOfSym y = noSlot
  · obtain ⟨b, hb, hmap⟩ := h.mapBits_unseen hy
    have hlen := h.length_codeword ⟨Nat.le_refl _, h.loEven.2⟩ hb
    have hraw : (b ++ raw8 y).length = b.length + 8 := by rw [List.length_append]; rfl
    exact ⟨_, hmap, by omega, by omega, fun hne => absurd hy hne⟩
  · obtain ⟨b, hb, hmap⟩ := h.mapBits_seen hy
    have hleaf := h.kind_slotOfSym hy
    have hi := h.inUse_of_kind ((slot_le_iff _).mpr hy) (by rw [hleaf]; decide)
    have hlen := h.length_codeword hi hb
    have hroot : t.slotOfSym y ≠ root := fun e => h.kind_root_ne_leaf (e ▸ hleaf)
    obtain ⟨b', _, hsome⟩ := h.codeword_of_parent hi hroot
    obtain rfl := Option.some.inj (hsome.symm.trans hb)
    exact ⟨_, hmap, by simp, by omega, fun _ => by omega⟩

end Sys2Proof.Machine
end

section
/-!
PROOFS. Words and what they stand for: the decoder and the encoder agree (O1), the opcode map (O3), the RESULT word (O4),
the status codes (O19) and the pseudo-instructions of the assembler (O59).
-/

namespace Sys2Proof.Machine

open Sys2Proof.Config

/-! ## Decoding and encoding (R61 to R64) -/

/-- A word is its three fields, `{OPC, RSVD, OPND}` (R61). -/
theorem word_eq_fields (w : Word) : (opcField w ++ rsvdField w) ++ opndField w = w := by
  have hupper : opcField w ++ rsvdField w = w.extractLsb' 16 16 :=
    BitVec.extractLsb'_append_extractLsb'_eq_extractLsb' (by decide)
  rw [hupper]
  exact (BitVec.extractLsb'_append_extractLsb'_eq_extractLsb' (by decide)).trans BitVec.extractLsb'_eq_self

/-- The decoder reads an instruction's word back (R61 to R63). -/
theorem decode_encode (i : Instr) : decode (encode i) = .ok i := by
  obtain ⟨hopc, hrsvd, hopnd⟩ := Laws.EncodeFields.of_parts (opcodeOf i) (operandOf i)
  rw [encode, decode, if_neg (not_not.mpr hrsvd), hopc, hopnd]
  cases i <;> rfl

/-- A word with the fields of an instruction is its word (R63). -/
theorem encode_of_fields {w : Word} {i : Instr} (hopc : opcField w = opcodeOf i) (hrsvd : rsvdField w = 0)
    (hopnd : opndField w = operandOf i) : encode i = w := by
  rw [← word_eq_fields w, hopc, hrsvd, hopnd, encode]

/-- A word that the decoder accepts is the word of the instruction it answers, by the rows of the opcode map (R63). -/
theorem encode_of_decode {w : Word} {i : Instr} (h : decode w = .ok i) : encode i = w := by
  unfold decode at h
  split at h
  · cases h
  rename_i hrsvd
  dsimp only at h
  have operand : ∀ j, (opcField w).toNat = (opcodeOf j).toNat → opndField w = operandOf j →
      Except.ok (ε := DecodeError) j = .ok i → encode i = w := by
    rintro j hopc hopnd hj
    obtain rfl := Except.ok.inj hj
    exact encode_of_fields (BitVec.eq_of_toNat_eq hopc) (not_not.mp hrsvd) hopnd
  have plain : ∀ j, (opcField w).toNat = (opcodeOf j).toNat → operandOf j = 0 →
      withoutOperand j (opndField w) = .ok i → encode i = w := by
    intro j hopc hnone hj
    unfold withoutOperand at hj
    split at hj
    · rename_i hzero
      exact operand j hopc (hzero.trans hnone.symm) hj
    · cases hj
  split at h
  case h_1 e => exact plain .nop e rfl h
  case h_2 e => exact plain .init e rfl h
  case h_3 e => exact operand (.encode _) e rfl h
  case h_4 e => exact plain .decode e rfl h
  case h_5 e => exact operand (.update _) e rfl h
  case h_6 e => exact operand (.map _) e rfl h
  case h_7 e => exact plain .walk e rfl h
  case h_8 e => exact operand (.csrRd _) e rfl h
  case h_9 e => exact operand (.nodeRdW _) e rfl h
  case h_10 e => exact operand (.nodeRdS _) e rfl h
  case h_11 => cases h

/-- Settles O1. -/
theorem decodeAndEncodeAgree : Obligations.DecodeAndEncodeAgree := fun _ i =>
  ⟨encode_of_decode, fun h => h ▸ decode_encode i⟩

/-- Settles O3: each word is the word of its command. -/
theorem opcodeMapWordsDecode : Obligations.OpcodeMapWordsDecode := by
  refine ⟨?_, ?_, ?_, ?_, ?_, ?_, ?_, ?_, ?_, ?_⟩ <;> exact (decodeAndEncodeAgree _ _).mpr rfl

/-! ## The formats of a response (R67, R68) -/

/-- Settles O4. -/
theorem resultWordIsTheShiftedFields : Obligations.ResultWordIsTheShiftedFields := by
  intro n new y hn
  have hnbits : (BitVec.ofNat 9 n).setWidth 32 = BitVec.ofNat 32 n := by
    apply BitVec.eq_of_toNat_eq
    rw [BitVec.toNat_setWidth, BitVec.toNat_ofNat, BitVec.toNat_ofNat]
    omega
  refine (BitVec.setWidth_eq (resultWord n new y)).symm.trans ?_
  rw [resultWord]
  simp only [BitVec.setWidth_append_eq_shiftLeft_setWidth_or, BitVec.shiftLeft_or_distrib, ← BitVec.shiftLeft_add, hnbits]
  simp

/-- Settles O19. -/
theorem statusCodesAreNumbered : Obligations.StatusCodesAreNumbered := by
  refine ⟨rfl, rfl, rfl, rfl, rfl, rfl, rfl, rfl, fun e => ?_⟩
  cases e <;> decide

/-! ## The pseudo-instructions (R73, R74) -/

/-- A line that is the name of a command without an operand assembles to the word of that command (R73). -/
theorem assembleLine_plain {name : List Char} {i : Instr} (hne : name ≠ [])
    (hchars : ∀ c ∈ name, isBlank c = false ∧ c ≠ ';') (hfind : findMnemonic name = some (.plain i)) :
    assembleLine name = .ok (some (encode i)) := by
  have hstrip : stripComment name = name := List.takeWhile_eq_self_iff.mpr fun c hc => by simp [hchars c hc]
  have hdrop : ∀ l : List Char, (∀ c ∈ l, isBlank c = false) → l.dropWhile isBlank = l := by
    intro l hl
    cases l with
    | nil => rfl
    | cons c cs => rw [List.dropWhile_cons_of_neg (by simp [hl])]
  have htrim : trimBlanks name = name := by
    rw [trimBlanks, hdrop _ fun c hc => (hchars c hc).1, hdrop _ fun c hc => (hchars c (List.mem_reverse.mp hc)).1,
      List.reverse_reverse]
  have hname : name.takeWhile (fun c => !isBlank c) = name :=
    List.takeWhile_eq_self_iff.mpr fun c hc => by simp [hchars c hc]
  have hrest : name.dropWhile (fun c => !isBlank c) = [] :=
    List.dropWhile_eq_nil_iff.mpr fun c hc => by simp [hchars c hc]
  simp [assembleLine, hstrip, htrim, hname, hrest, show trimBlanks [] = [] from rfl, hfind, hne, assembleWith, Except.map]

/-- Settles O59: the assembler's table gives each name its CSR_RD. -/
theorem pseudoInstructionsExpand : Obligations.PseudoInstructionsExpand :=
  ⟨assembleLine_plain (by simp) (by simp [isBlank]) rfl, assembleLine_plain (by simp) (by simp [isBlank]) rfl,
    assembleLine_plain (by simp) (by simp [isBlank]) rfl⟩

end Sys2Proof.Machine
end

section
/-!
PROOFS. The control unit: what each phase does and shows (O6, O7, O9, O10), the beats of a command and the host that takes
them one by one (O40, O47).
-/

namespace Sys2Proof.Machine

open Sys2Proof.Config

/-! ## One step in each phase (R60) -/

section
variable {s : State} (hrst : s.rst = false)
include hrst

theorem step_of_no_word (hidle : s.phase = .idle) (hq : s.cmdQ = []) : step s = .next s := by
  simp [step, State.resume, State.acceptCommand, hrst, hidle, hq]

theorem step_of_walking {upd : Bool} {pos : TwPos} (hp : s.phase = .walking upd pos) :
    step s = .next (s.walkOn upd (.needs pos)) := by
  simp [step, State.resume, hrst, hp]

theorem step_of_emitting {beats : List OutBeat} {upd : Option Symbol} {r : Response}
    (hp : s.phase = .emitting beats upd r) : step s = .next (s.emit beats upd r) := by
  simp [step, State.resume, hrst, hp]

theorem step_of_responding {r : Response} (hp : s.phase = .responding r) : step s = .next (s.offer r) := by
  simp [step, State.resume, hrst, hp]

end

/-- Writing the phase that the state has changes nothing. -/
theorem State.withPhase_self {s : State} {p : Phase} (h : s.phase = p) : ({ s with phase := p } : State) = s := by
  rw [← h]

/-- Settles O6. -/
theorem illegalWordCompletesWithEIllegal : Obligations.IllegalWordCompletesWithEIllegal := by
  intro s w rest hrst hidle hq hillegal
  rw [step_of_idle hrst hidle hq, State.runWord_of_rejects _ ((decoderRejectsExactlyTheIllegalWords w).mpr hillegal)]

/-- Settles O7. -/
theorem responseTransfersOrWaits : Obligations.ResponseTransfersOrWaits := by
  refine fun s r => ⟨State.offer_ready r, State.offer_waiting r, fun hwait hrst => ?_⟩
  have hoffered : ({ s with phase := .responding r } : State).rspOffered = some r := by simp [State.rspOffered, hrst]
  rw [State.offer_waiting r hwait, State.acceptResponse, hoffered]

/-- Settles O9: each wait leaves the phase and everything else as it is. -/
theorem waitsRepeatTheState : Obligations.WaitsRepeatTheState := by
  refine fun s hrst => ⟨step_of_no_word hrst, fun upd pos hp hq => ?_, fun b bs upd r hp hbout => ?_,
    fun r hp hrsp => ?_⟩
  · have hwalk : s.walkOn upd (.needs pos) = { s with binQ := [], phase := .walking upd pos } := by
      simp [State.walkOn, hq, Tree.walkBeats]
    rw [step_of_walking hrst hp, hwalk, ← hq, State.withPhase_self hp]
  · rw [step_of_emitting hrst hp, State.emit, if_neg (by simp [hbout]), State.withPhase_self hp]
  · rw [step_of_responding hrst hp, State.offer_waiting r hrsp, State.withPhase_self hp]

/-- Settles O10, by the phases: out of reset each output pin is a function of the phase alone. -/
theorem outputsFollowThePhase : Obligations.OutputsFollowThePhase := by
  refine fun s hrst => ⟨fun hp => ?_, fun upd pos hp => ?_, fun b bs upd r hp => ?_, fun r hp => ?_⟩ <;>
    simp [State.cmdReady, State.binReady, State.beatOffered, State.rspOffered, hrst, hp]

/-! ## Beats (R71) -/

/-- Settles O40. -/
theorem lastFlagMarksTheFinalBeat : Obligations.LastFlagMarksTheFinalBeat := by
  intro b hb
  refine ⟨map_bit_toBeats b, ?_⟩
  induction b with
  | nil => exact absurd rfl hb
  | cons x xs ih =>
    cases xs with
    | nil => rfl
    | cons y ys =>
      rw [toBeats_cons_cons, List.map_cons, ih (List.cons_ne_nil y ys)]
      rfl

/-! ## Taking the beats one by one (R60, R154) -/

section
variable {s : State} (hrst : s.rst = false)
include hrst

theorem State.acceptBeat_last {b : OutBeat} {upd : Option Symbol} {r : Response} (hp : s.phase = .emitting [b] upd r) :
    s.acceptBeat = { s with boutSent := s.boutSent ++ [b] }.complete upd r := by
  simp [State.acceptBeat, hrst, hp]

theorem State.acceptBeat_of_more {b : OutBeat} {bs : List OutBeat} {upd : Option Symbol} {r : Response}
    (hp : s.phase = .emitting (b :: bs) upd r) (hbs : bs ≠ []) :
    s.acceptBeat = { s with boutSent := s.boutSent ++ [b], phase := .emitting bs upd r } := by
  obtain ⟨b', bs', rfl⟩ := List.exists_cons_of_ne_nil hbs
  simp [State.acceptBeat, hrst, hp]

/-- While beats are left, taking some of them moves these and nothing else. -/
theorem State.acceptBeat_iterate {a b : List OutBeat} {upd : Option Symbol} {r : Response}
    (hp : s.phase = .emitting (a ++ b) upd r) (hb : b ≠ []) :
    State.acceptBeat^[a.length] s = { s with boutSent := s.boutSent ++ a, phase := .emitting b upd r } := by
  induction a generalizing s with
  | nil =>
    rw [List.append_nil, ← show s.phase = .emitting b upd r from hp]
    rfl
  | cons x xs ih =>
    rw [List.length_cons, Function.iterate_succ_apply, State.acceptBeat_of_more hrst hp (by simp [hb])]
    refine (ih (s := { s with boutSent := s.boutSent ++ [x], phase := .emitting (xs ++ b) upd r }) hrst rfl).trans ?_
    rw [List.append_assoc]
    rfl

end

/-- Settles O47. -/
theorem takingBeatsOneByOneEndsTheCommand : Obligations.TakingBeatsOneByOneEndsTheCommand := by
  intro s beats upd r hrst hp hne
  refine ⟨?_, fun hbout => ?_, fun k hk => ?_⟩
  · obtain ⟨a, b, rfl⟩ := (List.eq_nil_or_concat' beats).resolve_left hne
    have hlast := State.acceptBeat_last
      (s := { s with boutSent := s.boutSent ++ a, phase := .emitting [b] upd r }) hrst rfl
    rw [List.length_append, List.length_singleton, Function.iterate_succ_apply',
      State.acceptBeat_iterate hrst hp (List.cons_ne_nil b []), hlast, ← List.append_assoc]
    exact State.complete_withPhase { s with boutSent := s.boutSent ++ a ++ [b] } _ upd r
  · rw [step_of_emitting hrst hp, State.emit_ready hbout]
  · have hsplit : s.phase = .emitting (beats.take k ++ beats.drop k) upd r := by rw [List.take_append_drop, hp]
    have htaken := State.acceptBeat_iterate hrst hsplit (by simpa using hk)
    rw [List.length_take_of_le hk.le] at htaken
    rw [htaken]
    exact ⟨rfl, by simp [State.rspOffered, hrst]⟩

end Sys2Proof.Machine
end

section
/-!
PROOFS. Commands that answer and commands that wait (O8, O52). With the host's ready pins held high a command answers, but
for the two that walk, which can wait for a beat; a walk that waits goes on as if its beats had come in time.
-/

namespace Sys2Proof.Machine

open Sys2Proof.Config

/-! ## The two commands that walk (R113, R114) -/

/-- DECODE, whose walk ends in an update, or WALK, whose walk does not. -/
def walkCommand (upd : Bool) : Instr := if upd then .decode else .walk

theorem walkCommand_cases {i : Instr} {upd : Bool} (h : i = walkCommand upd) :
    i = .decode ∧ upd = true ∨ i = .walk ∧ upd = false := by
  cases upd
  · exact .inr ⟨h, rfl⟩
  · exact .inl ⟨h, rfl⟩

/-- The checks of R148 let the walk begin. -/
def State.AdmitsWalk (s : State) (upd : Bool) : Prop := s.fatal = false ∧ (upd = true → s.atMaxW = false)

theorem exec_walkCommand {s : State} {upd : Bool} (h : s.AdmitsWalk upd) :
    exec (walkCommand upd) s = .next (s.walkOn upd (s.tree.enterSlot root 0)) := by
  obtain ⟨hf, hm⟩ := h
  cases upd
  · exact congrArg _ (State.unlessFatal_clear _ hf)
  · exact congrArg _ ((State.unlessFatal_clear _ hf).trans (State.withHeadroom_clear _ (hm rfl)))

/-- A walking command that the checks refuse only responds (R147, R148). -/
theorem exec_walkCommand_refused {s : State} {upd : Bool} (h : ¬ s.AdmitsWalk upd) :
    ∃ r, exec (walkCommand upd) s = .next (s.offer r) := by
  cases hf : s.fatal
  · have hroom : upd = true ∧ s.atMaxW = true := by simpa [State.AdmitsWalk, hf] using h
    obtain ⟨rfl, hm⟩ := hroom
    exact ⟨_, congrArg _ ((State.unlessFatal_clear _ hf).trans (State.withHeadroom_full _ hm))⟩
  · cases upd <;> exact ⟨_, congrArg _ (State.unlessFatal_fatal _ hf)⟩

/-! ## What ends a command (R60) -/

/-- From `s` to `t` a command has been answered: one response has transferred, the unit is Idle, no word was taken. -/
structure State.Answered (s t : State) : Prop where
  idle : t.phase = .idle
  cmdQ : t.cmdQ = s.cmdQ
  rspSent : ∃ r, t.rspSent = s.rspSent ++ [r]

theorem State.Answered.of_frame {s s' t : State} (h : s'.Answered t) (hcmdQ : s'.cmdQ = s.cmdQ)
    (hrspSent : s'.rspSent = s.rspSent) : s.Answered t :=
  ⟨h.idle, h.cmdQ.trans hcmdQ, hrspSent ▸ h.rspSent⟩

section
variable {s : State} (hrsp : s.rspReady = true)
include hrsp

theorem State.offer_answered (r : Response) : s.Answered (s.offer r) :=
  ⟨by simp [hrsp], by simp, r, by simp [hrsp]⟩

theorem State.raise_answered (e : Status) (v : Word) : s.Answered (s.raise e v) := by
  unfold State.raise
  constructor <;> split <;> simp [hrsp]

theorem State.complete_answered (upd : Option Symbol) (r : Response) : s.Answered (s.complete upd r) := by
  rcases s.complete_cases upd r with ⟨_, h⟩ | ⟨_, t, _, _, h⟩ | ⟨_, _, _, h⟩ <;> rw [h]
  · exact State.offer_answered hrsp r
  · exact (State.offer_answered (s := { s with tree := t }) hrsp r).of_frame rfl rfl
  · exact State.raise_answered hrsp _ _

theorem State.mapThen_answered (hbout : s.boutReady = true) (y : Symbol) (upd : Option Symbol) :
    s.Answered (s.mapThen y upd) := by
  unfold State.mapThen
  split
  · exact State.raise_answered hrsp _ _
  · rename_i b _
    rw [State.emit_ready hbout]
    exact (State.complete_answered (s := { s with boutSent := s.boutSent ++ toBeats b }) hrsp upd _).of_frame rfl rfl

/-- A walk is answered, or it has taken every beat presented and waits (R155). -/
theorem State.walkOn_answered_or_waits (upd : Bool) (w : Walk) : s.Answered (s.walkOn upd w) ∨
    ∃ pos, s.walkOn upd w = { s with binQ := [], phase := .walking upd pos } := by
  rcases s.walkOn_cases upd w with ⟨pos, _, h⟩ | ⟨_, _, _, rest, _, h⟩ | ⟨_, _, rest, _, h⟩
  · exact .inr ⟨pos, h⟩
  · exact .inl (h ▸ (State.complete_answered (s := { s with binQ := rest }) hrsp _ _).of_frame rfl rfl)
  · exact .inl (h ▸ (State.raise_answered (s := { s with binQ := rest }) hrsp _ _).of_frame rfl rfl)

/-- Every command that does not walk is answered (R66). -/
theorem exec_answered (hbout : s.boutReady = true) {i : Instr} {t : State} (h : exec i s = .next t)
    (hi : ∀ upd, i ≠ walkCommand upd) : s.Answered t := by
  have hoffer := fun v => State.offer_answered hrsp ⟨.ok, v⟩
  have hraise := fun e => State.raise_answered hrsp e 0
  have hmap := State.mapThen_answered hrsp hbout
  cases i <;> obtain rfl := Host.Outcome.next.inj h
  case nop => exact hoffer 0
  case init => exact (State.offer_answered (s := s.freshSession) hrsp ⟨.ok, 0⟩).of_frame rfl rfl
  case encode =>
    exact State.unlessFatal_of (fun _ => hraise _) fun _ => State.withOperand_of (hraise _) fun y =>
      State.withHeadroom_of (hraise _) fun _ => hmap y _
  case decode => exact absurd rfl (hi true)
  case update =>
    exact State.unlessFatal_of (fun _ => hraise _) fun _ => State.withOperand_of (hraise _) fun _ =>
      State.withHeadroom_of (hraise _) fun _ => State.complete_answered hrsp _ _
  case map => exact State.unlessFatal_of (fun _ => hraise _) fun _ => State.withOperand_of (hraise _) fun y => hmap y _
  case walk => exact absurd rfl (hi false)
  case csrRd => exact State.withOperand_of (hraise _) fun _ => hoffer _
  case nodeRdW => exact State.withOperand_of (hraise _) fun _ => hoffer _
  case nodeRdS => exact State.withOperand_of (hraise _) fun _ => hoffer _

/-- Every command is answered, but for the two that walk, which can wait for a beat (R66, R155). -/
theorem exec_answered_or_waits (hbout : s.boutReady = true) (i : Instr) : ∃ t, exec i s = .next t ∧ (s.Answered t ∨
    ∃ upd pos, i = walkCommand upd ∧ t = { s with binQ := [], phase := .walking upd pos }) := by
  by_cases hi : ∃ upd, i = walkCommand upd
  · obtain ⟨upd, rfl⟩ := hi
    by_cases hadmits : s.AdmitsWalk upd
    · exact ⟨_, exec_walkCommand hadmits, (State.walkOn_answered_or_waits hrsp upd _).imp_right
        fun ⟨pos, hwaits⟩ => ⟨upd, pos, rfl, hwaits⟩⟩
    · obtain ⟨r, hr⟩ := exec_walkCommand_refused hadmits
      exact ⟨_, hr, .inl (State.offer_answered hrsp r)⟩
  · obtain ⟨t, ht⟩ := exec_next i s
    exact ⟨t, ht, .inl (exec_answered hrsp hbout ht (not_exists.mp hi))⟩

end

/-- Settles O8. -/
theorem everyAcceptedWordAnswersOnceOrWaits : Obligations.EveryAcceptedWordAnswersOnceOrWaits := by
  intro s w rest hrst hidle hq hrsp hbout
  rw [step_of_idle hrst hidle hq]
  cases hw : decode w with
  | error e =>
    obtain ⟨hidle', hcmdQ, hrspSent⟩ := State.offer_answered (s := { s with cmdQ := rest }) hrsp ⟨.eIllegal, 0⟩
    exact ⟨_, State.runWord_of_rejects _ ⟨e, hw⟩, hcmdQ, .inl ⟨hidle', hrspSent⟩⟩
  | ok i =>
    rw [State.runWord_of_decode _ hw]
    obtain ⟨t, ht, ⟨hidle', hcmdQ, hrspSent⟩ | ⟨upd, pos, hi, rfl⟩⟩ :=
      exec_answered_or_waits (s := { s with cmdQ := rest }) hrsp hbout i
    · exact ⟨t, ht, hcmdQ, .inl ⟨hidle', hrspSent⟩⟩
    · refine ⟨_, ht, rfl, .inr ⟨upd, pos, ?_, rfl, rfl, rfl⟩⟩
      simpa only [Except.ok.injEq] using walkCommand_cases hi

/-! ## A walk that waits goes on (R59, R155) -/

theorem State.offer_not_walking (s : State) (r : Response) (upd : Bool) (pos : TwPos) :
    (s.offer r).phase ≠ .walking upd pos := by
  rw [State.offer_phase]
  split <;> simp

theorem State.complete_not_walking (s : State) (y : Option Symbol) (r : Response) (upd : Bool) (pos : TwPos) :
    (s.complete y r).phase ≠ .walking upd pos := by
  rcases s.complete_cases y r with ⟨_, h⟩ | ⟨_, _, _, _, h⟩ | ⟨_, _, _, h⟩ <;> rw [h] <;>
    exact State.offer_not_walking _ _ _ _

/-- A walk that waits has taken every beat presented and done nothing else (R155). -/
theorem State.walkOn_waits {s : State} {upd upd' : Bool} {w : Walk} {pos : TwPos}
    (h : (s.walkOn upd w).phase = .walking upd' pos) : upd = upd' ∧ s.tree.walkBeats s.binQ w = (.needs pos, []) ∧
      s.walkOn upd w = { s with binQ := [], phase := .walking upd pos } := by
  rcases s.walkOn_cases upd w with ⟨p, hw, he⟩ | ⟨_, _, _, rest, _, he⟩ | ⟨e, v, rest, _, he⟩ <;> rw [he] at h
  · cases h
    exact ⟨rfl, hw, he⟩
  · exact absurd h (State.complete_not_walking _ _ _ _ _)
  · exact absurd h (State.offer_not_walking _ _ _ _)

/-- A walk over beats presented in two parts ends as the walk over all of them (R72, R110). -/
theorem State.walkOn_append {s : State} {a : List InBeat} {w : Walk} {pos : TwPos}
    (h : s.tree.walkBeats a w = (.needs pos, [])) (b : List InBeat) (upd : Bool) :
    ({ s with binQ := a ++ b } : State).walkOn upd w = ({ s with binQ := b } : State).walkOn upd (.needs pos) := by
  simp only [State.walkOn, Tree.walkBeats_append _ a b w h]

/-- Settles O52. -/
theorem lateBeatsGiveTheSameResult : Obligations.LateBeatsGiveTheSameResult := by
  intro s t i a b upd pos hrst hi h hp
  obtain ⟨u, rfl⟩ : ∃ u, i = walkCommand u := by
    rcases hi with rfl | rfl
    · exact ⟨false, rfl⟩
    · exact ⟨true, rfl⟩
  by_cases hadmits : ({ s with binQ := a } : State).AdmitsWalk u
  · obtain rfl := Host.Outcome.next.inj ((exec_walkCommand hadmits).symm.trans h)
    obtain ⟨rfl, hbeats, hwaits⟩ := State.walkOn_waits hp
    have hall := exec_walkCommand (s := { s with binQ := a ++ b }) (upd := u) hadmits
    rw [hwaits, hall, State.walkOn_append hbeats]
    refine ⟨rfl, rfl, ?_⟩
    rw [step_of_walking (s := { s with binQ := b, phase := .walking u pos }) hrst rfl]
    exact congrArg _ (State.walkOn_withPhase { s with binQ := b } _ u _)
  · obtain ⟨r, hr⟩ := exec_walkCommand_refused hadmits
    obtain rfl := Host.Outcome.next.inj (hr.symm.trans h)
    exact absurd hp (State.offer_not_walking _ _ _ _)

end Sys2Proof.Machine
end

section
/-!
PROOFS. How many bits a walk takes (O51). A walk counts the data beats it takes, on every tree; on a well-formed tree the
depth of the slot it stands at bounds that count.
-/

namespace Sys2Proof.Machine

open Sys2Proof.Config

/-! ## A walk counts its beats (R72, R110) -/

/-- The walk has taken `n` data bits, if it has not failed. -/
def Walk.HasTaken (n : Nat) : Walk → Prop
  | .needs pos => pos.taken = n
  | .found _ _ k => k = n
  | .failed _ _ => True

theorem Tree.enterSlot_hasTaken (t : Tree) (i : Slot) (n : Nat) : (t.enterSlot i n).HasTaken n := by
  unfold Tree.enterSlot
  split
  · split
    · trivial
    · rfl
  · rfl
  · rfl
  · trivial

theorem Tree.takeBit_hasTaken (t : Tree) (pos : TwPos) (x : Bool) : (t.takeBit pos x).HasTaken (pos.taken + 1) := by
  cases pos with
  | descend i n => exact t.enterSlot_hasTaken _ _
  | raw v left n =>
    unfold Tree.takeBit
    dsimp only
    split
    · split
      · trivial
      · rfl
    · rfl

theorem Tree.walkBeats_failed (t : Tree) (bs : List InBeat) (e : Status) (v : Word) :
    t.walkBeats bs (.failed e v) = (.failed e v, bs) := by
  cases bs <;> rfl

/-- A walk that finds a symbol has taken data beats, one for each bit it answers, and left the rest (R72, R116). -/
theorem Tree.walkBeats_counts {t : Tree} {beats rest : List InBeat} {w : Walk} {m n : Nat} {y : Symbol} {new : Bool}
    (hw : w.HasTaken m) (h : t.walkBeats beats w = (.found y new n, rest)) :
    ∃ b : List InBeat, beats = b ++ rest ∧ m + b.length = n ∧ ∀ x ∈ b, x.eos = false := by
  induction beats generalizing w m with
  | nil =>
    obtain ⟨rfl, rfl⟩ := Prod.mk.inj h
    exact ⟨[], rfl, hw.symm, nofun⟩
  | cons b bs ih =>
    cases w with
    | needs pos =>
      have hstep : t.walkBeats bs (t.takeBeat pos b) = (.found y new n, rest) := h
      cases heos : b.eos with
      | true =>
        rw [Tree.takeBeat, if_pos heos, Tree.walkBeats_failed] at hstep
        cases hstep
      | false =>
        rw [Tree.takeBeat, if_neg (by simp [heos])] at hstep
        obtain ⟨taken, rfl, hcount, hdata⟩ := ih (t.takeBit_hasTaken pos b.bit) hstep
        have hm : pos.taken = m := hw
        refine ⟨b :: taken, rfl, ?_, List.forall_mem_cons.mpr ⟨heos, hdata⟩⟩
        rw [List.length_cons]
        omega
    | found y' new' k =>
      obtain ⟨hfound, rfl⟩ := Prod.mk.inj h
      cases hfound
      exact ⟨[], rfl, hw.symm, nofun⟩
    | failed e v => cases h

/-! ## The bounds on a well-formed tree (R39, R110) -/

/-- `n` bits are no fewer and no more than a symbol can take; the first symbol of a session takes 8 (R39, R116). -/
def Tree.SymbolBits (t : Tree) (n : Nat) : Prop := 1 ≤ n ∧ n ≤ 263 ∧ (t.lo = root → n = 8)

/-- The walk keeps its bounds: at a slot it has taken no more bits than there are pairs above the slot, and in the raw bits
it is to end with a possible number of bits. -/
def Tree.WalkBounded (t : Tree) : Walk → Prop
  | .needs (.descend i n) => i.toNat ≤ 510 ∧ (t.node i).kind = .internal ∧ n + i.toNat / 2 ≤ 255
  | .needs (.raw _ left n) => 1 ≤ left ∧ t.SymbolBits (n + left)
  | .found _ _ n => t.SymbolBits n
  | .failed _ _ => True

/-- A branch bit leads to one of the two slots of the pair of children (R33, R34). -/
theorem branch_div_two {c : Slot} (hc : c.toNat % 2 = 1) (x : Bool) :
    (c - 1 + (BitVec.ofBool x).setWidth 9).toNat / 2 = c.toNat / 2 := by
  refine ((slot_pair_iff hc).mpr ?_).symm
  cases x
  · exact .inr (add_zero _)
  · exact .inl (sub_add_cancel _ 1)

section
variable {t : Tree} (h : t.Shape)
include h

/-- Arriving at a slot keeps the bounds; no bit has been taken at the root alone. -/
theorem Tree.Shape.enterSlot_bounded {i : Slot} (hi : t.inUse i) {n : Nat} (hn : n + i.toNat / 2 ≤ 255)
    (hroot : n = 0 ↔ i = root) : t.WalkBounded (t.enterSlot i n) := by
  cases hk : (t.node i).kind
  case unused => exact absurd hk (h.kind_ne_unused hi)
  case internal =>
    rw [h.enterSlot_internal hi.2 hk]
    exact ⟨hi.2, hk, hn⟩
  case leaf =>
    have hne : i ≠ root := fun e => h.kind_root_ne_leaf (e ▸ hk)
    simp only [Tree.enterSlot, hk]
    refine ⟨Nat.one_le_iff_ne_zero.mpr (mt hroot.mp hne), by omega, fun hlo => absurd ?_ hne⟩
    exact BitVec.eq_of_toNat_eq (Nat.le_antisymm hi.2 (hlo ▸ hi.1))
  case nyt =>
    obtain ⟨_, rfl⟩ := h.nytOnly i hi.2 hk
    simp only [Tree.enterSlot, hk]
    exact ⟨by omega, by omega, by omega, fun hlo => by rw [hroot.mpr hlo]⟩

theorem Tree.Shape.takeBit_bounded {pos : TwPos} (hpos : t.WalkBounded (.needs pos)) (x : Bool) :
    t.WalkBounded (t.takeBit pos x) := by
  cases pos with
  | descend i n =>
    obtain ⟨hi, hk, hn⟩ := hpos
    obtain ⟨hodd, _, hlt, _⟩ := h.child_bounds hi hk
    have hpair := branch_div_two hodd x
    refine h.enterSlot_bounded (h.inUse_branch hi hk x) (by omega) ⟨nofun, fun hroot => ?_⟩
    rw [hroot, toNat_root] at hpair
    omega
  | raw v left n =>
    obtain ⟨hleft, hbits⟩ := hpos
    unfold Tree.takeBit
    dsimp only
    split
    · obtain rfl : left = 1 := by omega
      split
      · trivial
      · exact hbits
    · refine ⟨by omega, ?_⟩
      rwa [show n + 1 + (left - 1) = n + left by omega]

theorem Tree.Shape.walkBeats_bounded {bs : List InBeat} {w : Walk} (hw : t.WalkBounded w) :
    t.WalkBounded (t.walkBeats bs w).1 := by
  induction bs generalizing w with
  | nil => exact hw
  | cons b bs ih =>
    cases w with
    | needs pos =>
      refine ih (w := t.takeBeat pos b) ?_
      unfold Tree.takeBeat
      split
      · trivial
      · exact h.takeBit_bounded hw _
    | found y new n => exact hw
    | failed e v => exact hw

end

/-- Settles O51. -/
theorem walkTakesOneTo263Bits : Obligations.WalkTakesOneTo263Bits := by
  intro c t beats rest y new n hwf hfound
  have h := hwf.shape
  have hstart := h.enterSlot_bounded (i := root) (n := 0) ⟨h.loEven.2, by decide⟩ (by decide) (by simp)
  have hbounded := h.walkBeats_bounded (bs := beats) hstart
  rw [hfound] at hbounded
  obtain ⟨hpos, hmax, hfirst⟩ := hbounded
  obtain ⟨b, hsplit, hcount, hdata⟩ := Tree.walkBeats_counts (t.enterSlot_hasTaken root 0) hfound
  exact ⟨hpos, hmax, hfirst, b, hsplit, by omega, hdata⟩

end Sys2Proof.Machine
end

section
/-!
PROOFS. No step from a sound state answers E_INTERNAL (O57). In every state, sound or not, an E_INTERNAL that transfers
leaves `FATAL_CAUSE` = 6; every step keeps soundness, and a sound state does not have that cause.
-/

namespace Sys2Proof.Machine

open Sys2Proof.Config

/-! ## The cause tells of E_INTERNAL (R145, R146) -/

/-- From `s` to `t` at most one response has transferred, and if it is E_INTERNAL it has left `FATAL_CAUSE` = 6. -/
def State.CauseTells (s t : State) : Prop :=
  t.rspSent = s.rspSent ∨ ∃ r, t.rspSent = s.rspSent ++ [r] ∧ (r.status = .eInternal → t.fatalCause = 6)

section
variable (s : State)

theorem State.offer_causeTells {r : Response} (h : r.status = .eInternal → s.fatalCause = 6) :
    s.CauseTells (s.offer r) := by
  cases hr : s.rspReady
  · exact .inl (by simp [hr])
  · exact .inr ⟨r, by simp [hr], by simpa using h⟩

theorem State.raise_causeTells (e : Status) (v : Word) : s.CauseTells (s.raise e v) := by
  by_cases he : e = .eInternal
  · subst he
    rw [State.raise_internal]
    exact State.offer_causeTells
      { s with tree := drawTree s.wBits s.draws, draws := s.draws + 1, fatal := true, fatalCause := 6 } fun _ => rfl
  · have hsent : (s.recordError e).rspSent = s.rspSent := State.recordError_rspSent s e
    rw [State.raise, if_neg he, State.CauseTells, ← hsent]
    exact (s.recordError e).offer_causeTells fun h => absurd h he

theorem State.complete_causeTells (upd : Option Symbol) {r : Response} (hr : r.status = .ok) :
    s.CauseTells (s.complete upd r) := by
  have hok : r.status = .eInternal → s.fatalCause = 6 := by rw [hr]; exact nofun
  rcases s.complete_cases upd r with ⟨_, h⟩ | ⟨_, t, _, _, h⟩ | ⟨_, _, _, h⟩ <;> rw [h]
  · exact s.offer_causeTells hok
  · exact State.offer_causeTells { s with tree := t } hok
  · exact s.raise_causeTells _ _

theorem State.emit_causeTells (beats : List OutBeat) (upd : Option Symbol) {r : Response} (hr : r.status = .ok) :
    s.CauseTells (s.emit beats upd r) := by
  by_cases hb : beats = []
  · subst hb
    exact s.complete_causeTells upd hr
  · rcases s.emit_cases upd r hb with ⟨_, h⟩ | ⟨_, h⟩ <;> rw [h]
    · exact State.complete_causeTells { s with boutSent := s.boutSent ++ beats } upd hr
    · exact .inl rfl

theorem State.mapThen_causeTells (y : Symbol) (upd : Option Symbol) : s.CauseTells (s.mapThen y upd) := by
  unfold State.mapThen
  split
  · exact s.raise_causeTells _ _
  · exact s.emit_causeTells _ upd rfl

theorem State.walkOn_causeTells (upd : Bool) (w : Walk) : s.CauseTells (s.walkOn upd w) := by
  rcases s.walkOn_cases upd w with ⟨_, _, h⟩ | ⟨_, _, _, rest, _, h⟩ | ⟨_, _, rest, _, h⟩ <;> rw [h]
  · exact .inl rfl
  · exact State.complete_causeTells { s with binQ := rest } _ rfl
  · exact State.raise_causeTells { s with binQ := rest } _ _

end

theorem exec_causeTells {i : Instr} {s t : State} (h : exec i s = .next t) : s.CauseTells t :=
  exec_of h (s.offer_causeTells nofun) (State.offer_causeTells s.freshSession nofun) (fun _ => s.offer_causeTells nofun)
    (fun _ _ => s.raise_causeTells _ _) (fun _ _ => s.mapThen_causeTells _ _) (fun _ _ _ => s.mapThen_causeTells _ _)
    (fun _ _ _ _ hr => s.complete_causeTells _ hr) (fun _ => s.walkOn_causeTells _ _)
    (fun _ _ => s.walkOn_causeTells _ _)

/-- Every step from a sound state; what a command in flight offers is not E_INTERNAL by the promise of its phase. -/
theorem State.Sound.step_causeTells {s t : State} (hs : s.Sound) (h : step s = .next t) : s.CauseTells t := by
  have hphase := hs.phase
  unfold State.PhaseSound at hphase
  rcases step_cases h with rfl | rfl | ⟨_, w, rest, _, hrun⟩ | ⟨upd, pos, _, rfl⟩ | ⟨beats, upd, r, hp, rfl⟩ | ⟨r, hp, rfl⟩
  · exact .inl (State.resetEdge_rspSent s)
  · exact .inl rfl
  · rcases hrun with rfl | ⟨i, hi⟩
    · exact State.raise_causeTells { s with cmdQ := rest } _ _
    · exact exec_causeTells (s := { s with cmdQ := rest }) hi
  · exact s.walkOn_causeTells _ _
  · rw [hp] at hphase
    obtain ⟨_, _, hok, _⟩ := hphase
    exact s.emit_causeTells _ _ hok
  · rw [hp] at hphase
    exact s.offer_causeTells fun hr => absurd hr hphase

/-- Settles O57: the next state is sound, so its cause is not 6 and its phase offers no E_INTERNAL. -/
theorem soundStepsNeverAnswerEInternal : Obligations.SoundStepsNeverAnswerEInternal := by
  intro s t hs h
  have ht := stepKeepsSoundness s t hs h
  refine ⟨fun r hp => ?_, ?_⟩
  · have hphase := ht.phase
    rwa [State.PhaseSound, hp] at hphase
  · exact (hs.step_causeTells h).imp_right fun ⟨r, hsent, hcause⟩ => ⟨r, hsent, fun hr => ht.notInternal (hcause hr)⟩

end Sys2Proof.Machine
end

section
/-!
PROOFS. How the tree commands end (O22, O25, O38): with E_OVERFLOW where there is no headroom, with E_INTERNAL and a draw where
a procedure fails, and UPDATE with its RESULT on every well-formed tree with headroom.
-/

namespace Sys2Proof.Machine

open Sys2Proof.Config

/-! ## The tree commands after their checks (R148) -/

section
variable {s : State} (hf : s.fatal = false)
include hf

theorem exec_map_of_clear {opnd : Operand} (ho : opnd.toNat ≤ 255) :
    exec (.map opnd) s = .next (s.mapThen (opnd.setWidth 8) none) := by
  change Host.Outcome.next _ = _
  rw [State.unlessFatal_clear _ hf, symOperand_of_le ho, State.withOperand_some]

theorem exec_update_of_clear (hm : s.atMaxW = false) {opnd : Operand} (ho : opnd.toNat ≤ 255) :
    exec (.update opnd) s = .next (s.complete (some (opnd.setWidth 8))
      ⟨.ok, resultWord 0 (s.tree.isNew (opnd.setWidth 8)) (opnd.setWidth 8)⟩) := by
  change Host.Outcome.next _ = _
  rw [State.unlessFatal_clear _ hf, symOperand_of_le ho, State.withOperand_some, State.withHeadroom_clear _ hm]

theorem exec_encode_of_clear (hm : s.atMaxW = false) {opnd : Operand} (ho : opnd.toNat ≤ 255) :
    exec (.encode opnd) s = .next (s.mapThen (opnd.setWidth 8) (some (opnd.setWidth 8))) := by
  change Host.Outcome.next _ = _
  rw [State.unlessFatal_clear _ hf, symOperand_of_le ho, State.withOperand_some, State.withHeadroom_clear _ hm]

end

/-- Settles O22. -/
theorem noHeadroomIsEOverflow : Obligations.NoHeadroomIsEOverflow := by
  intro s hf hroot
  have hm : s.atMaxW = true := beq_iff_eq.mpr (BitVec.eq_of_toNat_eq (by rw [hroot, toNat_maxW]))
  have hfull : ∀ go : State, s.unlessFatal (s.withHeadroom go) = s.offer ⟨.eOverflow, 0⟩ := fun go => by
    rw [State.unlessFatal_clear _ hf, State.withHeadroom_full go hm, State.raise_of_not_fatal s 0 rfl]
  have hsym : ∀ opnd : Operand, opnd.toNat ≤ 255 → ∀ go : Symbol → State,
      s.unlessFatal (s.withOperand (symOperand opnd) fun y => s.withHeadroom (go y)) = s.offer ⟨.eOverflow, 0⟩ :=
    fun opnd ho go => by rw [symOperand_of_le ho, State.withOperand_some, hfull]
  exact ⟨fun opnd ho => ⟨congrArg _ (hsym opnd ho _), congrArg _ (hsym opnd ho _)⟩, congrArg _ (hfull _)⟩

/-- A tree command whose update succeeds offers its response with the new tree (R94, R104, R114). -/
theorem State.complete_of_update {s : State} {y : Symbol} {t : Tree} (hu : s.tree.update s.wBits y = some t)
    (r : Response) : s.complete (some y) r = { s with tree := t }.offer r := by
  rw [State.complete, hu]

/-- Settles O38. -/
theorem updateCompletes : Obligations.UpdateCompletes := by
  intro s opnd hwf hf ho hm
  obtain ⟨t, hu, ht, _⟩ := hwf.update ((State.atMaxW_eq_false_iff hwf).mp hm) (opnd.setWidth 8)
  exact ⟨t, hu, ht, by rw [exec_update_of_clear hf hm ho, State.complete_of_update hu]⟩

/-! ## Failed procedures (R145, R146) -/

theorem State.complete_of_failed_update {s : State} {y : Symbol} (hu : s.tree.update s.wBits y = none) (r : Response) :
    s.complete (some y) r = s.raise .eInternal 0 := by
  rw [State.complete, hu]

theorem State.mapThen_of_failed_map {s : State} {y : Symbol} (hb : s.tree.mapBits y = none) (upd : Option Symbol) :
    s.mapThen y upd = s.raise .eInternal 0 := by
  rw [State.mapThen, hb]

/-- The beats transfer, then the update fails (R104, R148 step 5). -/
theorem State.emit_of_failed_update {s : State} (hbout : s.boutReady = true) {y : Symbol}
    (hu : s.tree.update s.wBits y = none) (beats : List OutBeat) (r : Response) :
    s.emit beats (some y) r = { s with boutSent := s.boutSent ++ beats }.raise .eInternal 0 := by
  rw [State.emit_ready hbout]
  exact State.complete_of_failed_update (s := { s with boutSent := s.boutSent ++ beats }) hu r

/-- A walk that has failed with E_INTERNAL answers value 0 (R110). -/
def Walk.InternalIsZero : Walk → Prop
  | .needs _ => True
  | .found _ _ _ => True
  | .failed e v => e = .eInternal → v = 0

theorem Tree.enterSlot_internalIsZero (t : Tree) (i : Slot) (n : Nat) : (t.enterSlot i n).InternalIsZero := by
  unfold Tree.enterSlot
  split
  · split
    · exact fun _ => rfl
    · trivial
  · trivial
  · trivial
  · exact fun _ => rfl

theorem Tree.takeBeat_internalIsZero (t : Tree) (pos : TwPos) (b : InBeat) : (t.takeBeat pos b).InternalIsZero := by
  unfold Tree.takeBeat
  split
  · exact nofun
  · cases pos with
    | descend i n => exact t.enterSlot_internalIsZero _ _
    | raw v left n =>
      unfold Tree.takeBit
      dsimp only
      split
      · split
        · exact nofun
        · trivial
      · trivial

theorem Tree.walkBeats_internalIsZero (t : Tree) (bs : List InBeat) {w : Walk} (hw : w.InternalIsZero) :
    (t.walkBeats bs w).1.InternalIsZero := by
  induction bs generalizing w with
  | nil => exact hw
  | cons b bs ih =>
    cases w with
    | needs pos => exact ih (t.takeBeat_internalIsZero pos b)
    | found y new n => exact hw
    | failed e v => exact hw

theorem State.walkOn_of_failed_walk {s : State} {v : Word} {rest : List InBeat}
    (hw : s.tree.walkBeats s.binQ (s.tree.enterSlot root 0) = (.failed .eInternal v, rest)) (upd : Bool) :
    s.walkOn upd (s.tree.enterSlot root 0) = { s with binQ := rest }.raise .eInternal 0 := by
  have hv := s.tree.walkBeats_internalIsZero s.binQ (s.tree.enterSlot_internalIsZero root 0)
  rw [hw] at hv
  obtain rfl : v = 0 := hv rfl
  rw [State.walkOn, hw]

theorem State.walkOn_of_failed_update {s : State} {w : Walk} {y : Symbol} {new : Bool} {n : Nat} {rest : List InBeat}
    (hw : s.tree.walkBeats s.binQ w = (.found y new n, rest)) (hu : s.tree.update s.wBits y = none) :
    s.walkOn true w = { s with binQ := rest }.raise .eInternal 0 := by
  rw [State.walkOn, hw]
  exact State.complete_of_failed_update (s := { s with binQ := rest }) hu _

/-- Settles O25: each failure ends in `raise E_INTERNAL(0)`. -/
theorem failedCheckLeavesADraw : Obligations.FailedCheckLeavesADraw := by
  intro s hf
  have hwalk : ∀ upd, (upd = true → s.atMaxW = false) →
      exec (walkCommand upd) s = .next (s.walkOn upd (s.tree.enterSlot root 0)) := fun _ hm => exec_walkCommand ⟨hf, hm⟩
  refine ⟨fun opnd ho hm hu => ⟨?update, fun b hb hbout => ?encode⟩, fun beats y r hrst hp hbout hu => ?emitting,
    fun y new n rest hm hw hu => ?decode, fun opnd ho hb => ⟨?map, fun hm => ?mapEncode⟩,
    fun v rest hw => ⟨?walk, fun hm => ?walkDecode⟩⟩
  case update =>
    rw [exec_update_of_clear hf hm ho, State.complete_of_failed_update hu]
    exact State.raise_endsInternal _
  case encode =>
    rw [exec_encode_of_clear hf hm ho, State.mapThen, hb]
    dsimp only
    rw [State.emit_of_failed_update hbout hu]
    exact State.raise_endsInternal _
  case emitting =>
    rw [step_of_emitting hrst hp, State.emit_of_failed_update hbout hu]
    exact State.raise_endsInternal _
  case decode =>
    rw [show Instr.decode = walkCommand true from rfl, hwalk true fun _ => hm, State.walkOn_of_failed_update hw hu]
    exact State.raise_endsInternal _
  case map =>
    rw [exec_map_of_clear hf ho, State.mapThen_of_failed_map hb]
    exact State.raise_endsInternal _
  case mapEncode =>
    rw [exec_encode_of_clear hf hm ho, State.mapThen_of_failed_map hb]
    exact State.raise_endsInternal _
  case walk =>
    rw [show Instr.walk = walkCommand false from rfl, hwalk false nofun, State.walkOn_of_failed_walk hw]
    exact State.raise_endsInternal _
  case walkDecode =>
    rw [show Instr.decode = walkCommand true from rfl, hwalk true fun _ => hm, State.walkOn_of_failed_walk hw]
    exact State.raise_endsInternal _

end Sys2Proof.Machine
end

section
/-!
PROOFS. Slides and rotations on every tree, well formed or not (O33, O34, O35), and the defensive checks (O26). A slide that
does not fail says of every slot which side of the new key it stands on, so a slide that would have to pass its own parent
fails.
-/

namespace Sys2Proof.Machine

open Sys2Proof.Config

/-! ## Contents (R90) -/

section
variable {t t' : Tree} {d : Slot} (hd : d ≠ noSlot) {n : Node}

theorem Tree.content_setParent (t : Tree) (i p j : Slot) :
    ((t.setParent i p).node j).content = (t.node j).content := by
  rw [Tree.setParent, Tree.node_modify]
  split <;> rfl

include hd

theorem Tree.content_putContent (t : Tree) (n : Node) (i : Slot) :
    ((t.putContent d n).node i).content = if i = d then n.content else (t.node i).content := by
  simp only [Tree.putContent, Tree.node_modify, hd, ne_eq, not_false_eq_true, and_true, @eq_comm _ d i]
  split <;> rfl

/-- `Place` writes one content (R90). -/
theorem Tree.content_place (h : t.place d n = some t') (i : Slot) :
    (t'.node i).content = if i = d then n.content else (t.node i).content := by
  rcases Tree.place_cases h with ⟨_, _, _, rfl⟩ | ⟨_, rfl⟩ | ⟨_, rfl⟩
  · rw [Tree.content_setParent, Tree.content_setParent, Tree.content_putContent hd]
  · rw [Tree.node_setSlotOf, Tree.content_putContent hd]
  · exact Tree.content_putContent hd t n i

end

/-- The loop of `Rotate` carries each of the `n` contents after slot `k` one slot down (R90). -/
theorem Tree.content_shiftDown {t t' : Tree} {n : Nat} {k : Slot} (h : Tree.shiftDown n k t = some t')
    (hn : k.toNat + n ≤ 510) (i : Slot) :
    (t'.node i).content = (t.node (if k.toNat ≤ i.toNat ∧ i.toNat < k.toNat + n then i + 1 else i)).content := by
  induction n generalizing k t with
  | zero =>
    obtain rfl := Option.some.inj h
    rw [if_neg (by omega)]
  | succ n ih =>
    obtain ⟨u, hu, hrest⟩ := Option.bind_eq_some_iff.mp h
    have hk1 := toNat_slot_succ (i := k) (by omega)
    rw [ih hrest (by omega), Tree.content_place (slot_ne_noSlot (by omega)) hu, hk1]
    by_cases hi : i = k
    · subst hi
      have hstay : ¬ (i.toNat + 1 ≤ i.toNat ∧ i.toNat < i.toNat + 1 + n) := by omega
      rw [if_neg hstay, if_pos rfl, if_pos (by omega)]
    · have hne : i.toNat ≠ k.toNat := fun e => hi (BitVec.eq_of_toNat_eq e)
      by_cases hmoved : k.toNat + 1 ≤ i.toNat ∧ i.toNat < k.toNat + 1 + n
      · have hi1 := toNat_slot_succ (i := i) (by omega)
        rw [if_pos hmoved, if_neg (fun e => by rw [← e] at hmoved; omega), if_pos (by omega)]
      · rw [if_neg hmoved, if_neg hi, if_neg (by omega)]

/-- `Rotate(p, q)` carries contents as the slide's renaming says (R90). -/
theorem Tree.content_rotate {t t' : Tree} {p q : Slot} (hpq : p.toNat ≤ q.toNat) (hq : q.toNat ≤ 510)
    (h : t.rotate p q = some t') (i : Slot) : (t'.node i).content = (t.node (slideBack p q i)).content := by
  unfold Tree.rotate at h
  split at h
  · rename_i e
    subst e
    obtain rfl := Option.some.inj h
    have hid : slideBack p p i = i := BitVec.eq_of_toNat_eq (by rw [toNat_slideBack]; split_ifs <;> omega)
    rw [hid]
  · obtain ⟨u, hu, hplace⟩ := Option.bind_eq_some_iff.mp h
    rw [Tree.content_place (slot_ne_noSlot hq) hplace, Tree.content_shiftDown hu (by omega), slideBack,
      Nat.add_sub_cancel' hpq]
    by_cases hi : i = q
    · rw [if_pos hi, if_pos hi]
    · rw [if_neg hi, if_neg hi]

theorem slideBack_pred {p q k : Slot} (hpk : p.toNat < k.toNat) (hkq : k.toNat ≤ q.toNat) :
    slideBack p q (k - 1) = k := by
  have hpred := toNat_slot_pred (i := k) (by omega)
  apply BitVec.eq_of_toNat_eq
  rw [toNat_slideBack, hpred]
  split_ifs <;> omega

theorem slideBack_of_outside {p q k : Slot} (hpq : p.toNat ≤ q.toNat) (hk : k.toNat < p.toNat ∨ q.toNat < k.toNat) :
    slideBack p q k = k := by
  apply BitVec.eq_of_toNat_eq
  rw [toNat_slideBack]
  split_ifs <;> omega

/-- Settles O33. -/
theorem rotateShiftsTheContents : Obligations.RotateShiftsTheContents := by
  intro t t' p q hpq hq h
  have hcontent := Tree.content_rotate hpq hq h
  refine ⟨?_, fun k hpk hkq => ?_, fun k hk => ?_⟩
  · rw [hcontent, slideBack, if_pos rfl]
  · rw [hcontent, slideBack_pred hpk hkq]
  · rw [hcontent, slideBack_of_outside hpq hk]

/-! ## The slide (R87) -/

/-- What a slide that does not fail tells of the slots: those it passes stand below the key and are not the parent of slot
`p`, the one where it stops does not. -/
theorem Tree.slideFrom_cases {t : Tree} {p : Slot} {w : Word} {c fuel : Nat} {q₀ q : Slot}
    (h : t.slideFrom p w c fuel q₀ = some q) (hq : q₀.toNat ≤ 510) (hfuel : 510 ≤ fuel + q₀.toNat) :
    (∀ k : Slot, q₀.toNat < k.toNat → k.toNat ≤ q.toNat → t.keyBelow k w c = true ∧ k ≠ (t.node p).parent) ∧
      (q.toNat < 510 → t.keyBelow (q + 1) w c = false) := by
  induction fuel generalizing q₀ with
  | zero =>
    obtain rfl := Option.some.inj h
    exact ⟨fun k _ _ => by omega, fun _ => by omega⟩
  | succ fuel ih =>
    unfold Tree.slideFrom at h
    split at h
    · rename_i hs
      have hlt : q₀.toNat < 510 := hs.1
      have hsucc := toNat_slot_succ (i := q₀) (by omega)
      split at h
      · cases h
      · rename_i hparent
        obtain ⟨hpass, hstop⟩ := ih h (by omega) (by omega)
        refine ⟨fun k hk hkq => ?_, hstop⟩
        by_cases e : k = q₀ + 1
        · rw [e]
          exact ⟨hs.2, hparent⟩
        · exact hpass k (by rw [← BitVec.toNat_inj] at e; omega) hkq
    · rename_i hs
      obtain rfl := Option.some.inj h
      exact ⟨fun k _ _ => by omega, fun hlt => Bool.eq_false_of_not_eq_true fun e => hs ⟨hlt, e⟩⟩

/-- Settles O34. -/
theorem slidePassesExactlyTheLowerKeys : Obligations.SlidePassesExactlyTheLowerKeys := by
  intro t p q w internal hp h
  obtain ⟨hle, htop⟩ := Tree.slideFrom_bounds h hp
  obtain ⟨hpass, hstop⟩ := Tree.slideFrom_cases h hp (by omega)
  refine ⟨hle, htop, fun k hpk hkq => ?_, fun hlt => ?_⟩
  · rw [← Tree.keyBelow_iff_standsBelow]
    exact hpass k hpk hkq
  · rw [← Tree.keyBelow_iff_standsBelow, hstop hlt]
    exact Bool.false_ne_true

theorem Kind.cls_eq (k : Kind) : k.cls = if decide (k = .internal) then 1 else 0 := by cases k <;> rfl

/-- The slide of the node in slot `p`, with headroom for its new weight (R82, R87). -/
theorem Tree.slide_passes {c : WBits} {t : Tree} {p q : Slot} (hp : p.toNat ≤ 510)
    (hroom : (t.node p).weight.toNat < 2 ^ c.bits - 1)
    (h : t.slideFrom p (weightSucc c (t.node p).weight) (t.node p).kind.cls 511 p = some q) :
    p.toNat ≤ q.toNat ∧ q.toNat ≤ 510 ∧
      (∀ k : Slot, p.toNat < k.toNat → k.toNat ≤ q.toNat →
        t.StandsBelow k ((t.node p).weight.toNat + 1) (decide ((t.node p).kind = .internal)) ∧
          k ≠ (t.node p).parent) ∧
      (q.toNat < 510 →
        ¬ t.StandsBelow (q + 1) ((t.node p).weight.toNat + 1) (decide ((t.node p).kind = .internal))) := by
  obtain ⟨hsucc, hnat⟩ := weightSucc_of_lt hroom
  rw [hsucc, Kind.cls_eq] at h
  rw [← hnat]
  exact slidePassesExactlyTheLowerKeys t p q _ _ hp h

/-- Settles O35: the slide, the rotation and the weight written at its end. -/
theorem slideAndIncrementMovesTheNode : Obligations.SlideAndIncrementMovesTheNode := by
  intro c t p r hp hroom h
  obtain ⟨hkind, q, t', hslide, hrot, htree, hnext⟩ := Tree.slideAndIncrement_cases h
  obtain ⟨hpq, hq, hpass, hstop⟩ := Tree.slide_passes hp hroom hslide
  obtain ⟨hmoved, hdown, houtside⟩ := rotateShiftsTheContents t t' p q hpq hq hrot
  have hnode := t'.node_setWeight (slot_ne_noSlot hq) (weightSucc c (t.node p).weight)
  have hother : ∀ k : Slot, k.toNat ≠ q.toNat → r.1.node k = t'.node k := fun k hk => by
    rw [htree, hnode, if_neg fun e => hk (congrArg BitVec.toNat e)]
  refine ⟨hkind, q, hpq, hq, fun k hk hkq => (hpass k hk hkq).1, hstop, ?_, fun k hk hkq => ?_, fun k hk => ?_,
    fun hint => ?_, fun hleaf => ?_⟩
  · rw [htree, hnode, if_pos rfl, (weightSucc_of_lt hroom).1]
    simp only [Node.content, Prod.mk.injEq] at hmoved ⊢
    exact ⟨trivial, hmoved.2⟩
  · rw [hother _ (by rw [toNat_slot_pred (by omega)]; omega)]
    exact hdown k hk hkq
  · rw [hother k (by omega)]
    exact houtside k hk
  · rw [hnext, if_pos hint]
  · rw [hnext, if_neg (by rw [hleaf]; decide)]

/-! ## The defensive checks (R91, R102, R110) -/

/-- IC1: an unseen symbol without an NYT. -/
theorem Tree.fails_of_unseen_without_nyt (c : WBits) {t : Tree} {y : Symbol} (hy : t.slotOfSym y = noSlot)
    (hnytp : t.nytp = false) : t.update c y = none ∧ t.mapBits y = none := by
  constructor
  · rw [Tree.update, Tree.updateStart, if_pos hy, if_pos hnytp, Option.bind_none]
  · rw [Tree.mapBits]
    simp only [hy, hnytp, ne_eq, not_true_eq_false, if_false, if_true]

/-- IC2: a slide that would pass the parent of slot `p`. Where it stopped short of the parent, the next slot would not stand
below the key. -/
theorem Tree.slideAndIncrement_fails_at_parent {c : WBits} {t : Tree} {p : Slot}
    (hroom : (t.node p).weight.toNat < 2 ^ c.bits - 1) (hlt : p.toNat < (t.node p).parent.toNat)
    (hle : (t.node p).parent.toNat ≤ 510)
    (hbelow : ∀ k : Slot, p.toNat < k.toNat → k.toNat ≤ (t.node p).parent.toNat →
      t.StandsBelow k ((t.node p).weight.toNat + 1) (decide ((t.node p).kind = .internal))) :
    t.slideAndIncrement c p = none := by
  rw [Option.eq_none_iff_forall_not_mem]
  intro r hr
  obtain ⟨_, q, _, hslide, _⟩ := Tree.slideAndIncrement_cases hr
  obtain ⟨hpq, hq, hpass, hstop⟩ := Tree.slide_passes (by omega) hroom hslide
  have hshort : q.toNat < (t.node p).parent.toNat := Nat.lt_of_not_le fun h => (hpass _ hlt h).2 rfl
  have hsucc := toNat_slot_succ (i := q) (by omega)
  exact hstop (by omega) (hbelow _ (by omega) (by omega))

/-- IC3: `SlideAndIncrement` of a slot that holds no LEAF and no INTERNAL node. -/
theorem Tree.slideAndIncrement_fails_of_kind (c : WBits) {t : Tree} {p : Slot} (hleaf : (t.node p).kind ≠ .leaf)
    (hint : (t.node p).kind ≠ .internal) : t.slideAndIncrement c p = none := by
  rw [Tree.slideAndIncrement]
  exact if_neg (not_or.mpr ⟨hleaf, hint⟩)

/-- IC4: `SLOT_OF` points to a slot that is not the LEAF of the symbol. -/
theorem Tree.fails_of_wrong_leaf (c : WBits) {t : Tree} {y : Symbol} (hy : t.slotOfSym y ≠ noSlot)
    (hwrong : (t.node (t.slotOfSym y)).kind ≠ .leaf ∨ (t.node (t.slotOfSym y)).sym ≠ y) :
    t.update c y = none ∧ t.mapBits y = none := by
  constructor
  · have hstart : t.seenStart y = none := if_pos hwrong
    rw [Tree.update, Tree.updateStart, if_neg hy, hstart, Option.bind_none]
  · rw [Tree.mapBits]
    exact (if_pos hy).trans (if_pos hwrong)

/-- IC5: the climb from slot `i` reaches a slot without a parent before `ROOT`, by induction on its steps. -/
theorem Tree.codewordFrom_fails {t : Tree} {n fuel : Nat} {i : Slot}
    (hroot : ∀ k ≤ n, (fun j => (t.node j).parent)^[k] i ≠ root)
    (hend : (t.node ((fun j => (t.node j).parent)^[n] i)).parent = noSlot) : t.codewordFrom fuel i = none := by
  have hi : i ≠ root := hroot 0 (Nat.zero_le n)
  induction n generalizing fuel i with
  | zero =>
    cases fuel with
    | zero => exact if_neg hi
    | succ fuel => rw [Tree.codewordFrom, if_neg hi, if_pos (show (t.node i).parent = noSlot from hend)]
  | succ n ih =>
    cases fuel with
    | zero => exact if_neg hi
    | succ fuel =>
      rw [Tree.codewordFrom, if_neg hi]
      have hparent := ih (fuel := fuel) (i := (t.node i).parent)
        (fun k hk => by simpa only [Function.iterate_succ_apply] using hroot (k + 1) (by omega))
        (by simpa only [Function.iterate_succ_apply] using hend)
        (hroot 1 (by omega))
      rw [hparent, Option.map_none, ite_self]

/-- IC5 in `MapBits`: where the codeword it needs fails, so does the mapping. -/
theorem Tree.mapBits_fails_of_codeword {t : Tree} {i : Slot} (hi : t.codeword i = none) {y : Symbol} :
    (t.slotOfSym y = i → i ≠ noSlot → t.mapBits y = none) ∧
      (t.lo = i → t.slotOfSym y = noSlot → t.mapBits y = none) := by
  constructor
  · rintro rfl hne
    rw [Tree.mapBits]
    refine (if_pos hne).trans ?_
    rw [hi, ite_self]
  · rintro rfl hy
    rw [Tree.mapBits]
    refine (if_neg (not_not.mpr hy)).trans ?_
    rw [hi, Option.map_none, ite_self]

/-- IC6: the walk at an UNUSED slot or at an INTERNAL slot without children. -/
theorem Tree.enterSlot_fails {t : Tree} {i : Slot}
    (h : (t.node i).kind = .internal ∧ (t.node i).child = noSlot ∨ (t.node i).kind = .unused) (n : Nat) :
    t.enterSlot i n = .failed .eInternal 0 := by
  rcases h with ⟨hk, hchild⟩ | hk
  · simp only [Tree.enterSlot, hk, hchild, if_true]
  · simp only [Tree.enterSlot, hk]

/-- Settles O26. -/
theorem defensiveChecksFail : Obligations.DefensiveChecksFail := by
  intro c t
  refine ⟨fun y => Tree.fails_of_unseen_without_nyt c, fun p => Tree.slideAndIncrement_fails_at_parent,
    fun p => Tree.slideAndIncrement_fails_of_kind c, fun y => Tree.fails_of_wrong_leaf c,
    fun n i hroot hend => ?_, fun i n h => Tree.enterSlot_fails h n⟩
  have hcodeword : t.codeword i = none := Tree.codewordFrom_fails hroot hend
  exact ⟨hcodeword, fun y => (Tree.mapBits_fails_of_codeword hcodeword).1,
    fun hlo y => (Tree.mapBits_fails_of_codeword hcodeword).2 hlo⟩

end Sys2Proof.Machine
end

section
/-!
PROOFS. The parts of an update on every tree: the leader swap (O32), where an update starts (O29), the chain and the deferred
step (O30); and the first update of a session, whose two steps leave their nodes in place (O28).
-/

namespace Sys2Proof.Machine

open Sys2Proof.Config

/-! ## The leader swap (R85, R89) -/

/-- `Place` of a LEAF: the content in slot `d`, and `SLOT_OF` of its symbol (R90). -/
theorem Tree.place_leaf (t : Tree) {d : Slot} {n : Node} (hd : d ≠ noSlot) (hk : n.kind = .leaf) :
    ∃ t', t.place d n = some t' ∧
      (∀ i, t'.node i = if i = d then { n with parent := (t.node i).parent } else t.node i) ∧
      (∀ y, t'.slotOfSym y = if y = n.sym then d else t.slotOfSym y) ∧ t'.lo = t.lo ∧ t'.nytp = t.nytp := by
  obtain ⟨t', he, hnode, hslot, hlo, hnytp⟩ := t.place_eq hd (n := n) fun h => by rw [hk] at h; cases h
  have hparent : ∀ i, ¬ (n.kind = .internal ∧ (i = n.child ∨ i = n.child - 1)) := fun i h => by
    rw [hk] at h
    cases h.1
  refine ⟨t', he, fun i => ?_, fun y => ?_, hlo, hnytp⟩
  · rw [hnode, if_neg (hparent i)]
    split <;> rfl
  · rw [hslot]
    simp only [hk, true_and, @eq_comm _ n.sym y]

/-- Index 511 holds no LEAF (R45). -/
theorem Tree.ne_noSlot_of_leaf {t : Tree} {i : Slot} (hk : (t.node i).kind = .leaf) : i ≠ noSlot := by
  rintro rfl
  rw [Tree.node_noSlot] at hk
  cases hk

/-- Two LEAF nodes of equal weight differ in their symbol and their PARENT alone (R89). -/
theorem Node.leaf_congr {m n : Node} (hm : m.kind = .leaf) (hn : n.kind = .leaf) (hw : m.weight = n.weight)
    (hcm : m.child = noSlot) (hcn : n.child = noSlot) : { m with parent := n.parent } = { n with sym := m.sym } := by
  rw [hm, hw, hcm, hn, hcn]

/-- `SwapLeaves` of two LEAF slots of equal weight: the symbols and their `SLOT_OF` entries change places (R89). Where the two
slots are one, its `SLOT_OF` entry has to be right before. -/
theorem Tree.swapLeaves_exchanges (t : Tree) {a b : Slot} (hka : (t.node a).kind = .leaf)
    (hkb : (t.node b).kind = .leaf) (hw : (t.node a).weight = (t.node b).weight) (hca : (t.node a).child = noSlot)
    (hcb : (t.node b).child = noSlot) (hself : a = b → t.slotOfSym (t.node a).sym = a) :
    ∃ t', t.swapLeaves a b = some t' ∧ t'.lo = t.lo ∧ t'.nytp = t.nytp ∧
      (∀ i, t'.node i = if i = a then { t.node a with sym := (t.node b).sym }
        else if i = b then { t.node b with sym := (t.node a).sym } else t.node i) ∧
      (∀ y, t'.slotOfSym y = if y = (t.node a).sym then b else if y = (t.node b).sym then a else t.slotOfSym y) := by
  by_cases hab : a = b
  · subst hab
    refine ⟨t, if_pos rfl, rfl, rfl, fun i => ?_, fun y => ?_⟩
    · by_cases h : i = a
      · rw [if_pos h, h]
      · rw [if_neg h, if_neg h]
    · by_cases h : y = (t.node a).sym
      · rw [if_pos h, h, hself rfl]
      · rw [if_neg h, if_neg h]
  · obtain ⟨t₁, he₁, hnode₁, hslot₁, hlo₁, hnytp₁⟩ := t.place_leaf (Tree.ne_noSlot_of_leaf hka) hkb
    obtain ⟨t', he, hnode, hslot', hlo, hnytp⟩ := t₁.place_leaf (Tree.ne_noSlot_of_leaf hkb) hka
    refine ⟨t', by rw [Tree.swapLeaves, if_neg hab, he₁, Option.bind_some, he], hlo.trans hlo₁, hnytp.trans hnytp₁,
      fun i => ?_, fun y => by rw [hslot', hslot₁]⟩
    rw [hnode, hnode₁]
    by_cases hia : i = a
    · subst hia
      rw [if_neg hab, if_pos rfl, if_pos rfl]
      exact Node.leaf_congr hkb hka hw.symm hcb hca
    · rw [if_neg hia, if_neg hia]
      split
      · rename_i hib
        rw [hib]
        exact Node.leaf_congr hka hkb hw hca hcb
      · rfl

/-- Settles O32. -/
theorem swapLeavesExchangesTheSymbols : Obligations.SwapLeavesExchangesTheSymbols :=
  fun t _ _ hab hka hkb hw hca hcb => t.swapLeaves_exchanges hka hkb hw hca hcb fun h => absurd h hab

/-- A run of slots of `q`'s KIND and weight that ends at `l` has `l` as its leader (R37, R89). -/
theorem Tree.leader_eq {t : Tree} {q l : Slot} (hql : q.toNat ≤ l.toNat) (hl : l.toNat ≤ 510)
    (hrun : ∀ k : Slot, q.toNat ≤ k.toNat → k.toNat ≤ l.toNat →
      (t.node k).kind = (t.node q).kind ∧ (t.node k).weight = (t.node q).weight)
    (htop : l.toNat < 510 → (t.node (l + 1)).kind ≠ (t.node q).kind ∨ (t.node (l + 1)).weight ≠ (t.node q).weight) :
    t.leader q = l := by
  obtain ⟨hle, hle', hrun', htop'⟩ := leaderIsTheTopOfTheRun t q (by omega)
  have hsame : ∀ k : Slot, ¬ ((t.node k).kind = (t.node q).kind ∧ (t.node k).weight = (t.node q).weight) ↔
      (t.node k).kind ≠ (t.node q).kind ∨ (t.node k).weight ≠ (t.node q).weight := fun k =>
    Classical.not_and_iff_not_or_not
  rcases Nat.lt_trichotomy (t.leader q).toNat l.toNat with hlt | heq | hgt
  · have hsucc := toNat_slot_succ (i := t.leader q) (by omega)
    exact absurd (hrun _ (by omega) (by omega)) ((hsame _).mpr (htop' (by omega)))
  · exact BitVec.eq_of_toNat_eq heq
  · have hsucc := toNat_slot_succ (i := l) (by omega)
    exact absurd (hrun' _ (by omega) (by omega)) ((hsame _).mpr (htop (by omega)))

/-! ## Where an update starts (R81, R83 to R86) -/

section
variable {t : Tree} {y : Symbol}

theorem Tree.updateStart_of_split (hy : t.slotOfSym y = noSlot) (hnytp : t.nytp = true) (hlo : 0 < t.lo.toNat) :
    t.updateStart y = t.split y := by
  rw [Tree.updateStart, if_pos hy, if_neg (by rw [hnytp]; decide), if_pos hlo]

theorem Tree.updateStart_of_absorb (hy : t.slotOfSym y = noSlot) (hnytp : t.nytp = true) (hlo : t.lo = 0) :
    t.updateStart y = some (t.absorb y) := by
  rw [Tree.updateStart, if_pos hy, if_neg (by rw [hnytp]; decide), if_neg (by rw [hlo]; decide)]

/-- A seen symbol whose leaf is found (R81, R85, R86). -/
theorem Tree.updateStart_of_seen {q l : Slot} {t' : Tree} (hq : t.slotOfSym y = q) (hk : (t.node q).kind = .leaf)
    (hsym : (t.node q).sym = y) (hl : t.leader q = l) (hswap : t.swapLeaves q l = some t') :
    t.updateStart y = some (if t'.nytp = true ∧ l.toNat = t'.lo.toNat + 1 then ⟨t', (t'.node l).parent, l⟩
      else ⟨t', l, noSlot⟩) := by
  subst hq hl
  rw [Tree.updateStart, if_neg (Tree.ne_noSlot_of_leaf hk), Tree.seenStart]
  refine (if_neg (not_or.mpr ⟨not_not.mpr hk, not_not.mpr hsym⟩)).trans ?_
  dsimp only
  rw [hswap, Option.map_some]

end

/-- Settles O29: `Split`, `Absorb`, and the leader swap with or without a deferral. -/
theorem updateStartsAsTheRulesSay : Obligations.UpdateStartsAsTheRulesSay := by
  intro t y
  refine ⟨fun hy hnytp hlo hlo' => ?split, fun hy hnytp hlo => ?absorb,
    fun q l hq hql hl hsym hcq hcl hrun htop => ?seen⟩
  case split =>
    obtain ⟨t', he, hs⟩ := t.split_isSplit y hlo hlo'
    exact ⟨_, (Tree.updateStart_of_split hy hnytp (by omega)).trans he, rfl, rfl, hs.lo, hs.nytp.trans hnytp, hs.node,
      fun z => by rw [hs.slotOfSym]; simp only [@eq_comm _ y z]⟩
  case absorb =>
    have hs := t.absorb_isAbsorb y
    exact ⟨_, Tree.updateStart_of_absorb hy hnytp hlo, rfl, rfl, hs.lo.trans hlo, hs.nytp, hs.node,
      fun z => by rw [hs.slotOfSym]; simp only [@eq_comm _ y z]⟩
  case seen =>
    obtain ⟨hkq, _⟩ := hrun q (Nat.le_refl _) hql
    obtain ⟨hkl, hwl⟩ := hrun l hql (Nat.le_refl _)
    have hleader : t.leader q = l := Tree.leader_eq hql hl (by rwa [hkq]) (by rwa [hkq])
    obtain ⟨t', hswap, hlo, hnytp, hnode, hslot⟩ :=
      t.swapLeaves_exchanges hkq hkl hwl.symm hcq hcl fun _ => by rw [hsym, hq]
    have hparent : (t'.node l).parent = (t.node l).parent := by
      rw [hnode]
      by_cases e : l = q
      · rw [if_pos e, e]
      · rw [if_neg e, if_pos rfl]
    have hstart := Tree.updateStart_of_seen hq hkq hsym hleader hswap
    have hnode' : ∀ i, t'.node i = if i = q then { t.node i with sym := (t.node l).sym }
        else if i = l then { t.node i with sym := y } else t.node i := fun i => by
      rw [hnode, hsym]
      split_ifs with h₁ h₂
      · rw [h₁]
      · rw [h₂]
      · rfl
    rw [hsym] at hslot
    rw [hlo, hnytp, hparent] at hstart
    by_cases hsib : t.nytp = true ∧ l.toNat = t.lo.toNat + 1
    · rw [if_pos hsib] at hstart
      exact ⟨_, hstart, hlo, hnytp, fun _ => ⟨rfl, rfl⟩, fun h => absurd hsib h, hnode', hslot⟩
    · rw [if_neg hsib] at hstart
      exact ⟨_, hstart, hlo, hnytp, fun h => absurd h hsib, fun _ => ⟨rfl, rfl⟩, hnode', hslot⟩

/-! ## The chain and the deferred step (R88) -/

theorem Tree.chain_noSlot (c : WBits) (fuel : Nat) (t : Tree) : Tree.chain c fuel noSlot t = some t := by
  cases fuel <;> exact if_pos rfl

theorem Tree.chain_succ {c : WBits} {q : Slot} (hq : q ≠ noSlot) (fuel : Nat) (t : Tree) :
    Tree.chain c (fuel + 1) q t = (t.slideAndIncrement c q).bind fun r => Tree.chain c fuel r.2 r.1 := by
  rw [Tree.chain, if_neg hq]

/-- The calls of a chain: `call k` holds the tree and the slot after `k` calls of `SlideAndIncrement`, and after `n` of them
the slot is `NONE` (R88). -/
structure Tree.ChainCalls (c : WBits) (n : Nat) (call : Nat → Tree × Slot) : Prop where
  step : ∀ k, k < n → (call k).2 ≠ noSlot ∧ (call k).1.slideAndIncrement c (call k).2 = some (call (k + 1))
  stops : (call n).2 = noSlot

/-- At `NONE` the chain has ended: it makes no call (R88). -/
theorem Tree.chain_noSlot_iff_calls {c : WBits} {fuel : Nat} {t t' : Tree} :
    Tree.chain c fuel noSlot t = some t' ↔
      ∃ n call, n ≤ fuel ∧ call 0 = (t, noSlot) ∧ Tree.ChainCalls c n call ∧ (call n).1 = t' := by
  rw [Tree.chain_noSlot, Option.some.injEq]
  constructor
  · rintro rfl
    exact ⟨0, fun _ => (t, noSlot), Nat.zero_le _, rfl, ⟨fun _ hk => absurd hk (Nat.not_lt_zero _), rfl⟩, rfl⟩
  · rintro ⟨n, call, _, hzero, hcalls, rfl⟩
    have hn : n = 0 := Nat.eq_zero_of_not_pos fun hpos => (hcalls.step 0 hpos).1 (by rw [hzero])
    rw [hn, hzero]

/-- The chain is its calls, at most as many as its bound, by induction on the bound (R88). -/
theorem Tree.chain_iff_calls {c : WBits} {fuel : Nat} {q : Slot} {t t' : Tree} :
    Tree.chain c fuel q t = some t' ↔
      ∃ n call, n ≤ fuel ∧ call 0 = (t, q) ∧ Tree.ChainCalls c n call ∧ (call n).1 = t' := by
  induction fuel generalizing q t with
  | zero =>
    rcases eq_or_ne q noSlot with rfl | hq
    · exact Tree.chain_noSlot_iff_calls
    · rw [Tree.chain, if_neg hq]
      refine ⟨nofun, ?_⟩
      rintro ⟨n, call, hn, hzero, hcalls, _⟩
      obtain rfl := Nat.le_zero.mp hn
      exact absurd (by rw [← hcalls.stops, hzero]) hq
  | succ fuel ih =>
    rcases eq_or_ne q noSlot with rfl | hq
    · exact Tree.chain_noSlot_iff_calls
    · rw [Tree.chain_succ hq, Option.bind_eq_some_iff]
      constructor
      · rintro ⟨r, hr, hrest⟩
        obtain ⟨n, call, hn, hzero, hcalls, hend⟩ := ih.mp hrest
        refine ⟨n + 1, fun k => k.casesOn (t, q) call, by omega, rfl, ⟨fun k hk => ?_, hcalls.stops⟩, hend⟩
        cases k with
        | zero => exact ⟨hq, hr.trans (congrArg some hzero.symm)⟩
        | succ k => exact hcalls.step k (by omega)
      · rintro ⟨n, call, hn, hzero, hcalls, rfl⟩
        cases n with
        | zero => exact absurd (by rw [← hcalls.stops, hzero]) hq
        | succ n =>
          have hfirst := (hcalls.step 0 (by omega)).2
          rw [hzero] at hfirst
          exact ⟨call 1, hfirst, ih.mpr ⟨n, fun k => call (k + 1), by omega, rfl,
            ⟨fun k hk => hcalls.step (k + 1) (by omega), hcalls.stops⟩, rfl⟩⟩

/-- The deferred step is one `SlideAndIncrement` whose returned slot is dropped, if a slot was deferred (R88). -/
theorem Tree.deferredStep_iff {c : WBits} {d : Slot} {t t' : Tree} : Tree.deferredStep c d t = some t' ↔
    (d = noSlot ∧ t' = t) ∨ (d ≠ noSlot ∧ ∃ next, t.slideAndIncrement c d = some (t', next)) := by
  unfold Tree.deferredStep
  by_cases hd : d = noSlot
  · simp only [hd, if_true, Option.some.injEq, true_and, ne_eq, not_true_eq_false, false_and, or_false, @eq_comm _ t t']
  · simp only [hd, if_false, Option.map_eq_some_iff, Prod.exists, exists_and_right, exists_eq_right, false_and,
      false_or, ne_eq, not_false_eq_true, true_and]

/-- Settles O30. -/
theorem updateIsTheChainAndTheDeferredStep : Obligations.UpdateIsTheChainAndTheDeferredStep := by
  intro c t t' y
  constructor
  · intro h
    obtain ⟨u, t₁, hstart, hchain, hdefer⟩ := Tree.update_cases h
    obtain ⟨n, call, hn, hzero, hcalls, rfl⟩ := Tree.chain_iff_calls.mp hchain
    exact ⟨u, n, call, hstart, hn, hzero, hcalls.step, hcalls.stops, Tree.deferredStep_iff.mp hdefer⟩
  · rintro ⟨u, n, call, hstart, hn, hzero, hstep, hstops, hdefer⟩
    have hchain : Tree.chain c 512 u.first u.tree = some (call n).1 :=
      Tree.chain_iff_calls.mpr ⟨n, call, hn, hzero, ⟨hstep, hstops⟩, rfl⟩
    rw [Tree.update, hstart, Option.bind_some, hchain, Option.bind_some]
    exact Tree.deferredStep_iff.mpr hdefer

/-! ## The first update of a session (R94) -/

/-- A node whose upper neighbour does not stand below its new key is incremented in place (R87). -/
theorem Tree.slideAndIncrement_in_place (c : WBits) {t : Tree} {p : Slot} (hp : p ≠ noSlot)
    (hk : (t.node p).kind = .leaf ∨ (t.node p).kind = .internal)
    (hstay : ¬ (p.toNat < root.toNat ∧
      t.keyBelow (p + 1) (weightSucc c (t.node p).weight) (t.node p).kind.cls = true)) :
    t.slideAndIncrement c p = some (t.setWeight p (weightSucc c (t.node p).weight), (t.node p).parent) := by
  have hslide : t.slideFrom p (weightSucc c (t.node p).weight) (t.node p).kind.cls 511 p = some p := by
    rw [Tree.slideFrom, if_neg hstay]
  have hrot : t.rotate p p = some t := if_pos rfl
  rw [Tree.slideAndIncrement]
  refine (if_pos hk).trans ?_
  rw [hslide, Option.bind_some, hrot, Option.bind_some]
  simp only [Tree.node_setWeight t hp, if_true, ite_self]

/-- The split of the fresh tree: three nodes, all of weight 0 (R43, R83). -/
theorem Tree.IsSplit.node_of_fresh {y : Symbol} {t : Tree} (hs : Tree.fresh.IsSplit y t) (i : Slot) :
    t.node i = if i = 510 then ⟨0, .internal, 0, 509, 511⟩ else if i = 509 then ⟨0, .leaf, y, 511, 510⟩
      else if i = 508 then ⟨0, .nyt, 0, 511, 510⟩ else Node.empty := by
  by_cases h : i = root
  · rw [h, ← Tree.fresh_lo, hs.node_lo, Tree.fresh_lo, Tree.fresh_node, if_pos rfl]
    rfl
  · rw [hs.node, Tree.fresh_node, if_neg h]
    exact (if_neg h).trans (if_neg h).symm

/-- Every `W_BITS` has room for a weight above 0 (R7). -/
theorem zero_lt_maxW (c : WBits) : (0 : Word).toNat < 2 ^ c.bits - 1 := by
  have hpow : 2 ^ 1 < 2 ^ c.bits := Nat.pow_lt_pow_right (by decide) (by unfold WBits.bits; omega)
  rw [show (0 : Word).toNat = 0 from rfl]
  omega

theorem weightSucc_zero (c : WBits) : weightSucc c 0 = 1 := (weightSucc_of_lt (zero_lt_maxW c)).1

/-- The first update of a session: the split, the root counted, and then the new leaf (R83, R88, R94). -/
theorem Tree.update_fresh (c : WBits) (y : Symbol) : ∃ t', Tree.fresh.update c y = some t' ∧
    (∀ i, t'.node i = if i = 510 then ⟨1, .internal, 0, 509, 511⟩ else if i = 509 then ⟨1, .leaf, y, 511, 510⟩
      else if i = 508 then ⟨0, .nyt, 0, 511, 510⟩ else Node.empty) ∧
    (∀ z, t'.slotOfSym z = if z = y then 509 else noSlot) ∧ t'.lo = 508 ∧ t'.nytp = true := by
  obtain ⟨t₁, hsplit, hs⟩ := Tree.fresh.split_isSplit y (by decide) (by decide)
  have hnode₂ := t₁.node_setWeight (q := root) (by decide) 1
  have hnode₃ := (t₁.setWeight root 1).node_setWeight (q := 509) (by decide) 1
  have hroot : t₁.node root = ⟨0, .internal, 0, 509, 511⟩ := hs.node_of_fresh root
  have hrootStep : t₁.slideAndIncrement c root = some (t₁.setWeight root 1, noSlot) := by
    rw [Tree.slideAndIncrement_in_place c (by decide) (.inr (by rw [hroot])) (fun h => absurd h.1 (Nat.lt_irrefl _)),
      hroot, weightSucc_zero]
    rfl
  have hleaf : (t₁.setWeight root 1).node 509 = ⟨0, .leaf, y, 511, 510⟩ := by
    rw [hnode₂, if_neg (by decide), hs.node_of_fresh]
    rfl
  have hrootKey : (t₁.setWeight root 1).keyBelow (509 + 1) 1 Kind.leaf.cls = false := by
    rw [show (509 : Slot) + 1 = root from rfl, Tree.keyBelow, hnode₂, if_pos rfl, hroot]
    rfl
  have hleafStep : (t₁.setWeight root 1).slideAndIncrement c 509 =
      some ((t₁.setWeight root 1).setWeight 509 1, 510) := by
    rw [Tree.slideAndIncrement_in_place c (by decide) (.inl (by rw [hleaf]))
      (by rw [hleaf, weightSucc_zero, hrootKey]; exact fun h => Bool.false_ne_true h.2), hleaf, weightSucc_zero]
  refine ⟨(t₁.setWeight root 1).setWeight 509 1, ?_, fun i => ?_, fun z => ?_, ?_, ?_⟩
  · have hchain : Tree.chain c 512 root t₁ = some (t₁.setWeight root 1) := by
      rw [Tree.chain_succ (by decide), hrootStep, Option.bind_some, Tree.chain_noSlot]
    rw [Tree.update, Tree.updateStart_of_split (Tree.fresh_slotOfSym y) rfl (by decide), hsplit, Option.bind_some]
    dsimp only [Tree.fresh_lo]
    rw [hchain, Option.bind_some]
    exact Tree.deferredStep_iff.mpr (.inr ⟨by decide, _, hleafStep⟩)
  · rw [hnode₃]
    by_cases h₀ : i = root
    · subst h₀
      rw [if_neg (by decide), hnode₂, if_pos rfl, hroot]
      rfl
    · have h₀' : i ≠ 510 := h₀
      rw [hnode₂, if_neg h₀, hs.node_of_fresh, if_neg h₀', if_neg h₀']
      split <;> rfl
  · simp only [Tree.setWeight, Tree.slotOfSym_modify, hs.slotOfSym, Tree.fresh_slotOfSym, @eq_comm _ y z]
    rfl
  · exact (Tree.lo_modify _ _ _).trans ((Tree.lo_modify _ _ _).trans hs.lo)
  · exact (Tree.nytp_modify _ _ _).trans ((Tree.nytp_modify _ _ _).trans hs.nytp)

/-- Settles O28. -/
theorem firstUpdateBuildsTheThreeNodeTree : Obligations.FirstUpdateBuildsTheThreeNodeTree := by
  intro s opnd hfresh hf ho
  obtain ⟨t, hu, hnode, hslot, hlo, hnytp⟩ := Tree.update_fresh s.wBits (opnd.setWidth 8)
  have hm : s.atMaxW = false := by
    rw [State.atMaxW_eq_false_iff (hfresh ▸ Tree.fresh_wellFormed _), hfresh, Tree.fresh_weight]
    exact zero_lt_maxW _
  have hnew : s.tree.isNew (opnd.setWidth 8) = true := by
    rw [Tree.isNew, hfresh, Tree.fresh_slotOfSym]
    rfl
  rw [← hfresh] at hu
  refine ⟨t, by rw [exec_update_of_clear hf hm ho, State.complete_of_update hu, hnew], hnode 510, hnode 509, hnode 508,
    fun i hi => ?_, hslot, hlo, hnytp⟩
  have hne : ∀ k : Slot, 508 ≤ k.toNat → i ≠ k := by rintro k hk rfl; omega
  rw [hnode, if_neg (hne _ (by decide)), if_neg (hne _ (by decide)), if_neg (hne _ (by decide))]

end Sys2Proof.Machine
end

section
/-!
PROOFS. The codeword mapper and its commands (O41, O42, O45, O46), and the two commands that read back what it sends (O48,
O49). On a well-formed tree a symbol always has at least one bit, so MAP and ENCODE send them or wait with them
offered; the walk over them finds the symbol and takes no more.
-/

namespace Sys2Proof.Machine

open Sys2Proof.Config

/-! ## The bits of a symbol (R105, R106) -/

/-- Settles O41: no symbol of a fresh session is seen, and the NYT is the root. -/
theorem firstSymbolMapsToItsRawCode : Obligations.FirstSymbolMapsToItsRawCode := by
  refine ⟨Tree.fresh_lo, Tree.codeword_root _, fun y => ⟨?_, rfl⟩⟩
  obtain ⟨b, hroot, hmap⟩ := (Tree.fresh_wellFormed w32).shape.mapBits_unseen (Tree.fresh_slotOfSym y)
  rw [Tree.fresh_lo, Tree.codeword_root] at hroot
  obtain rfl := Option.some.inj hroot
  exact hmap

/-- With 256 entries that are not `NONE`, no entry of `SLOT_OF` is `NONE` (R21, R106). -/
theorem Tree.slotOfSym_ne_noSlot_of_countP {t : Tree} (h : t.slotOf.countP (fun i => i != noSlot) = 256) (y : Symbol) :
    t.slotOfSym y ≠ noSlot :=
  bne_iff_ne.mp (Vector.countP_eq_size.mp h _ (Vector.getElem_mem y.isLt))

/-- Where a seen symbol maps to bits, they are the codeword of its slot, on every tree (R101). -/
theorem Tree.codeword_of_mapBits {t : Tree} {y : Symbol} (hy : t.slotOfSym y ≠ noSlot) {b : List Bool}
    (h : t.mapBits y = some b) : t.codeword (t.slotOfSym y) = some b := by
  rw [Tree.mapBits, if_pos hy] at h
  split at h
  · cases h
  · exact h

/-- Settles O42. -/
theorem fullAlphabetNeverEscapes : Obligations.FullAlphabetNeverEscapes := by
  intro t hcount hseen y
  have hy := Tree.slotOfSym_ne_noSlot_of_countP (hcount.trans hseen) y
  exact ⟨hy, fun b hb => Tree.codeword_of_mapBits hy hb⟩

/-- On a well-formed tree a symbol maps to bits, which give at least one beat (R39, R71, R101). -/
theorem Tree.WellFormed.exists_beats {c : WBits} {t : Tree} (h : t.WellFormed c) (y : Symbol) :
    ∃ b, t.mapBits y = some b ∧ toBeats b ≠ [] := by
  obtain ⟨b, hb, hlen, _, _⟩ := mappedBitsAreBounded c t y h
  exact ⟨b, hb, toBeats_ne_nil (List.ne_nil_of_length_pos hlen)⟩

/-! ## The bits are sent, or wait (R103, R104, R154) -/

section
variable {s : State} {y : Symbol} {b : List Bool} (hb : s.tree.mapBits y = some b)
include hb

/-- A symbol that maps goes on to its beats and RESULT (R103, R104). -/
theorem State.mapThen_of_map (upd : Option Symbol) :
    s.mapThen y upd = s.emit (toBeats b) upd ⟨.ok, resultWord b.length (s.tree.isNew y) y⟩ := by
  rw [State.mapThen, hb]

/-- With `bout_ready` held high the bits transfer, and then the command ends (R103, R104). -/
theorem State.mapThen_ready (hbout : s.boutReady = true) (upd : Option Symbol) :
    s.mapThen y upd = { s with boutSent := s.boutSent ++ toBeats b }.complete upd
      ⟨.ok, resultWord b.length (s.tree.isNew y) y⟩ := by
  rw [State.mapThen_of_map hb, State.emit_ready hbout]

/-- With `bout_ready` held low the command waits with its beats offered (R154). -/
theorem State.mapThen_waiting (hne : toBeats b ≠ []) (hbout : s.boutReady = false) (upd : Option Symbol) :
    s.mapThen y upd =
      { s with phase := .emitting (toBeats b) upd ⟨.ok, resultWord b.length (s.tree.isNew y) y⟩ } := by
  rw [State.mapThen_of_map hb]
  obtain ⟨_, hwait⟩ := (State.emit_cases s upd _ hne).resolve_left fun h => by simp [hbout] at h
  exact hwait

end

/-- With `bout_ready` held high ENCODE sends the bits of the old tree, and then updates it (R104). -/
theorem exec_encode_of_update {s : State} (hf : s.fatal = false) (hm : s.atMaxW = false) (hbout : s.boutReady = true)
    {opnd : Operand} (ho : opnd.toNat ≤ 255) {b : List Bool} (hb : s.tree.mapBits (opnd.setWidth 8) = some b) {t : Tree}
    (hu : s.tree.update s.wBits (opnd.setWidth 8) = some t) :
    exec (.encode opnd) s = .next ({ s with tree := t, boutSent := s.boutSent ++ toBeats b }.offer
      ⟨.ok, resultWord b.length (s.tree.isNew (opnd.setWidth 8)) (opnd.setWidth 8)⟩) := by
  rw [exec_encode_of_clear hf hm ho, State.mapThen_ready hb hbout]
  exact congrArg _ (State.complete_of_update (s := { s with boutSent := s.boutSent ++ toBeats b }) hu _)

/-- Settles O45. -/
theorem mapCompletes : Obligations.MapCompletes := by
  intro s opnd hwf hf ho
  obtain ⟨b, hb, hne⟩ := hwf.exists_beats (opnd.setWidth 8)
  refine ⟨b, _, hb, rfl, fun hbout => ?_, fun hbout => ?_⟩
  · exact (exec_map_of_clear hf ho).trans (congrArg _ (State.mapThen_ready hb hbout none))
  · rw [exec_map_of_clear hf ho, State.mapThen_waiting hb hne hbout]

/-- Settles O46. -/
theorem encodeCompletes : Obligations.EncodeCompletes := by
  intro s opnd hwf hf ho hm
  obtain ⟨b, hb, hne⟩ := hwf.exists_beats (opnd.setWidth 8)
  obtain ⟨t, hu, ht, _⟩ := hwf.update ((State.atMaxW_eq_false_iff hwf).mp hm) (opnd.setWidth 8)
  refine ⟨b, _, t, hb, rfl, hu, ht, fun hbout => exec_encode_of_update hf hm hbout ho hb hu, fun hbout => ?_⟩
  rw [exec_encode_of_clear hf hm ho, State.mapThen_waiting hb hne hbout]

/-! ## The bits are read back (R113, R114) -/

/-- A walk that finds its symbol in the beats presented takes those it needs and ends the command (R113, R114). -/
theorem State.walkOn_of_found {s : State} {w : Walk} {y : Symbol} {new : Bool} {n : Nat} {rest : List InBeat}
    (hw : s.tree.walkBeats s.binQ w = (.found y new n, rest)) (upd : Bool) :
    s.walkOn upd w = { s with binQ := rest }.complete (if upd then some y else none) ⟨.ok, resultWord n new y⟩ := by
  rw [State.walkOn, hw]

/-- WALK answers the symbol that its walk finds (R113). -/
theorem exec_walk_of_found {s : State} (hf : s.fatal = false) {y : Symbol} {new : Bool} {n : Nat} {rest : List InBeat}
    (hw : s.tree.walkBeats s.binQ (s.tree.enterSlot root 0) = (.found y new n, rest)) :
    exec .walk s = .next ({ s with binQ := rest }.offer ⟨.ok, resultWord n new y⟩) :=
  (exec_walkCommand (upd := false) ⟨hf, nofun⟩).trans (congrArg _ (State.walkOn_of_found hw false))

/-- DECODE applies the symbol that its walk finds to the tree, and answers it (R114). -/
theorem exec_decode_of_found {s : State} (hf : s.fatal = false) (hm : s.atMaxW = false) {y : Symbol} {new : Bool}
    {n : Nat} {rest : List InBeat} {t : Tree}
    (hw : s.tree.walkBeats s.binQ (s.tree.enterSlot root 0) = (.found y new n, rest))
    (hu : s.tree.update s.wBits y = some t) :
    exec .decode s = .next ({ s with tree := t, binQ := rest }.offer ⟨.ok, resultWord n new y⟩) := by
  refine (exec_walkCommand (upd := true) ⟨hf, fun _ => hm⟩).trans (congrArg _ ?_)
  rw [State.walkOn_of_found hw]
  exact State.complete_of_update (s := { s with binQ := rest }) hu _

/-- Settles O48: the walk over the bits of a symbol finds it and takes no more. -/
theorem walkReadsWhatMapSends : Obligations.WalkReadsWhatMapSends := by
  intro s y rest hwf hf
  obtain ⟨b, hb, hwalk⟩ := hwf.shape.walk_mapBits y
  exact ⟨b, hb, fun hq => exec_walk_of_found hf (by rw [hq, hwalk])⟩

/-- Settles O49: DECODE's walk finds the symbol that ENCODE sent, so both run the same update of the same tree. -/
theorem decodeFollowsEncode : Obligations.DecodeFollowsEncode := by
  intro e d opnd rest hwf hf hm hbout ho htree hwBits hdf
  obtain ⟨t, hu, ht, _⟩ := hwf.update ((State.atMaxW_eq_false_iff hwf).mp hm) (opnd.setWidth 8)
  obtain ⟨b, hb, hwalk⟩ := hwf.shape.walk_mapBits (opnd.setWidth 8)
  have hdm : d.atMaxW = false := by rwa [State.atMaxW, htree, hwBits]
  exact ⟨b, t, _, hb, ht, exec_encode_of_update hf hm hbout ho hb hu, fun hq =>
    exec_decode_of_found hdf hdm (by rw [htree, hq, hwalk]) (by rw [htree, hwBits, hu])⟩

end Sys2Proof.Machine
end

section
/-!
PROOFS. The errors of the bit-in stream (O23, O24). On every tree a waiting walk has counted its data bits, and while it
descends it stands at an INTERNAL slot, so the value of E_TRUNCATED can be read off its position; on a well-formed tree the
codeword of the NYT leads to the raw bits of an escape, and a seen symbol there is E_STREAM.
-/

namespace Sys2Proof.Machine

open Sys2Proof.Config

/-! ## Where a walk waits (R110) -/

/-- The walk has taken `m` data bits, if it has not failed, and where it waits in the descent, it waits at an INTERNAL
slot. -/
structure Tree.WaitsAfter (t : Tree) (m : Nat) (w : Walk) : Prop where
  taken : w.HasTaken m
  internal : ∀ i n, w = .needs (.descend i n) → (t.node i).kind = .internal

theorem Tree.enterSlot_waitsAfter (t : Tree) (i : Slot) (n : Nat) : t.WaitsAfter n (t.enterSlot i n) := by
  refine ⟨t.enterSlot_hasTaken i n, fun j k h => ?_⟩
  unfold Tree.enterSlot at h
  split at h
  · split at h
    · cases h
    · cases h
      assumption
  · cases h
  · cases h
  · cases h

theorem Tree.takeBit_waitsAfter (t : Tree) (pos : TwPos) (x : Bool) : t.WaitsAfter (pos.taken + 1) (t.takeBit pos x) := by
  refine ⟨t.takeBit_hasTaken pos x, fun j k h => ?_⟩
  cases pos with
  | descend i n => exact (t.enterSlot_waitsAfter _ _).internal j k h
  | raw v left n =>
    unfold Tree.takeBit at h
    dsimp only at h
    split at h
    · split at h <;> cases h
    · cases h

/-- A walk that still waits after data beats has taken a bit from each of them (R72, R110). -/
theorem Tree.walkBeats_waitsAfter {t : Tree} {b : List Bool} {w : Walk} {m : Nat} {pos : TwPos} (hw : t.WaitsAfter m w)
    (h : t.walkBeats (dataBeats b) w = (.needs pos, [])) : t.WaitsAfter (m + b.length) (.needs pos) := by
  induction b generalizing w m with
  | nil =>
    obtain ⟨rfl, _⟩ := Prod.mk.inj h
    exact hw
  | cons x xs ih =>
    cases w with
    | needs p =>
      obtain rfl : p.taken = m := hw.taken
      have hrest := ih (t.takeBit_waitsAfter p x) h
      rwa [List.length_cons, Nat.add_comm xs.length, ← Nat.add_assoc]
    | found y new n => cases h
    | failed e v => cases h

/-! ## A failed stream ends the command (R145) -/

/-- WALK and DECODE end alike where the stream fails: `FATAL` and `FATAL_CAUSE` are set, the beats taken are gone, and the
tree stays (R145). -/
theorem exec_of_stream_error {s : State} {e : Status} {v : Word} {rest : List InBeat} (hf : s.fatal = false)
    (he : e = .eTruncated ∨ e = .eStream)
    (hw : s.tree.walkBeats s.binQ (s.tree.enterSlot root 0) = (.failed e v, rest)) :
    exec .walk s = .next ({ s with binQ := rest, fatal := true, fatalCause := e.code }.offer ⟨e, v⟩) ∧
    (s.atMaxW = false →
      exec .decode s = .next ({ s with binQ := rest, fatal := true, fatalCause := e.code }.offer ⟨e, v⟩)) := by
  have hend : ∀ upd, s.walkOn upd (s.tree.enterSlot root 0) =
      { s with binQ := rest, fatal := true, fatalCause := e.code }.offer ⟨e, v⟩ := fun upd => by
    rw [State.walkOn, hw]
    exact State.raise_of_stream_error { s with binQ := rest } v he
  exact ⟨(exec_walkCommand (upd := false) ⟨hf, nofun⟩).trans (congrArg _ (hend false)),
    fun hm => (exec_walkCommand (upd := true) ⟨hf, fun _ => hm⟩).trans (congrArg _ (hend true))⟩

/-! ## Truncation (R111) -/

/-- An end-of-stream beat where the walk needs a bit is taken, and the walk fails with E_TRUNCATED (R72, R111). -/
theorem Tree.walkBeats_eos (t : Tree) (x : Bool) (rest : List InBeat) (pos : TwPos) :
    t.walkBeats (⟨true, x⟩ :: rest) (.needs pos) = (.failed .eTruncated (resultWord pos.taken pos.inRaw 0), rest) :=
  t.walkBeats_failed rest _ _

/-- Settles O23: the position at which the walk waits for the end-of-stream beat gives both fields of the value. -/
theorem truncatedStreamIsFatal : Obligations.TruncatedStreamIsFatal := by
  intro s b pos new x rest hf hq hwaits hnew
  obtain ⟨htaken, hinternal⟩ := Tree.walkBeats_waitsAfter (s.tree.enterSlot_waitsAfter root 0) hwaits
  have hlen : pos.taken = b.length := htaken.trans (Nat.zero_add _)
  have hraw : pos.inRaw = new := by
    rcases hnew with ⟨⟨i, n, rfl⟩, rfl⟩ | ⟨⟨v, left, n, rfl⟩, rfl⟩
    · rfl
    · rfl
  refine ⟨fun i n hpos => hinternal i n (congrArg _ hpos), exec_of_stream_error hf (.inl rfl) ?_⟩
  rw [hq, Tree.walkBeats_append _ _ _ _ hwaits, Tree.walkBeats_eos, hlen, hraw]

/-! ## A corrupt escape (R112) -/

/-- The escape of a symbol already seen fails with E_STREAM once its last raw bit is taken (R110, R112). -/
theorem Tree.Shape.walk_escape_of_seen {t : Tree} (h : t.Shape) (hnytp : t.nytp = true) {y : Symbol}
    (hy : t.slotOfSym y ≠ noSlot) {b : List Bool} (hb : t.codeword t.lo = some b) (rest : List InBeat) :
    t.walkBeats (dataBeats (b ++ raw8 y) ++ rest) (t.enterSlot root 0) =
      (.failed .eStream (resultWord (b.length + 8) true y), rest) := by
  have hlo : t.inUse t.lo := ⟨Nat.le_refl _, h.loEven.2⟩
  have henter : t.enterSlot t.lo (0 + b.length) = .needs (.raw 0 (raw8 y).length b.length) := by
    simp only [Tree.enterSlot, h.nytAtLo hnytp, Nat.zero_add]
    rfl
  rw [dataBeats_append, List.append_assoc, h.walk_codewordFrom hlo hb, henter,
    t.walk_raw (raw8 y) _ _ _ (List.cons_ne_nil _ _), foldl_shiftIn_raw8, if_pos hy, Tree.walkBeats_failed]
  rfl

/-- Settles O24: the codeword of the NYT leads to the raw bits, and they name a seen symbol. -/
theorem escapeOfASeenSymbolIsFatal : Obligations.EscapeOfASeenSymbolIsFatal := by
  intro s y b rest hf hwf hnytp hy hb hq
  exact exec_of_stream_error hf (.inr rfl) (by rw [hq, hwf.shape.walk_escape_of_seen hnytp hy hb])

end Sys2Proof.Machine
end

section
/-!
PROOFS. NOP and NODE_RD_W, which do nothing but respond (O13, O16).
-/

namespace Sys2Proof.Machine

open Sys2Proof.Config

/-! ## NOP (R128) -/

theorem exec_nop (s : State) : exec .nop s = .next (s.offer ⟨.ok, 0⟩) := rfl

/-- The decoder on a NOP word (R61, R64). -/
theorem decode_nop {w : Word} (hopc : opcField w = 0) (hrsvd : rsvdField w = 0) (hopnd : opndField w = 0) :
    decode w = .ok .nop := by
  simp [decode, withoutOperand, hopc, hrsvd, hopnd]

/-- A NOP word with another bit set is one that the decoder rejects (R62, R64). -/
theorem decode_rejects_nop {w : Word} (hopc : opcField w = 0) (h : rsvdField w ≠ 0 ∨ opndField w ≠ 0) :
    ∃ e, decode w = .error e :=
  (decode_rejects_iff w).mpr (.inr (h.imp_right fun hopnd => ⟨.inl (congrArg BitVec.toNat hopc), hopnd⟩))

/-- Settles O13. -/
theorem nopOnlyResponds : Obligations.NopOnlyResponds := by
  refine ⟨rfl, exec_nop, fun s w rest hrst hidle hq hopc => ⟨fun hbits => ?_, fun ⟨hrsvd, hopnd⟩ => ?_⟩⟩
  · rw [step_of_idle hrst hidle hq, State.runWord_of_rejects _ (decode_rejects_nop hopc hbits)]
  · rw [step_of_idle hrst hidle hq, State.runWord_of_decode _ (decode_nop hopc hrsvd hopnd), exec_nop]

/-! ## NODE_RD_W (R135) -/

/-- The operand of a node read names the slot of its number (R62). -/
theorem slotOperand_ofNat (i : Fin 511) : slotOperand (BitVec.ofNat 16 i.val) = some (BitVec.ofNat 9 i.val) := by
  rw [slotOperand_of_le (by rw [BitVec.toNat_ofNat]; omega), BitVec.setWidth_ofNat_of_le (by decide)]

/-- The slot of number `i` holds node `i` of the node store (R18). -/
theorem Tree.node_ofNat (t : Tree) (i : Fin 511) : t.node (BitVec.ofNat 9 i.val) = t.nodes[i] := by
  have hslot : (BitVec.ofNat 9 i.val).toNat = i.val := by rw [BitVec.toNat_ofNat]; omega
  rw [Tree.node_of_lt _ (by omega)]
  simp only [hslot]
  rfl

/-- NODE_RD_W of a slot (R135). -/
theorem exec_nodeRdW (s : State) (i : Fin 511) :
    exec (.nodeRdW (BitVec.ofNat 16 i.val)) s = .next (s.offer ⟨.ok, (s.tree.nodes[i]).weight⟩) := by
  simp only [exec, execNodeRdW, slotOperand_ofNat, State.withOperand_some, State.respondOk, Tree.node_ofNat]

/-- NODE_RD_W above 510 (R135, R143). -/
theorem exec_nodeRdW_of_gt (s : State) {opnd : Operand} (h : 510 < opnd.toNat) :
    exec (.nodeRdW opnd) s = .next (s.offer ⟨.eRange, 0⟩) := by
  simp only [exec, execNodeRdW, slotOperand_of_gt h, State.withOperand_none]
  rw [State.raise_of_not_fatal _ _ rfl]

/-- Settles O16. -/
theorem nodeReadAnswersTheWeight : Obligations.NodeReadAnswersTheWeight := fun s =>
  ⟨exec_nodeRdW s, fun _ => exec_nodeRdW_of_gt s⟩

end Sys2Proof.Machine
end

section
/-!
PROOFS. The errors that only respond (O20, O21, O27): an operand out of its range, and a tree command while `FATAL` = 1. The
reads only respond too, so while `FATAL` = 1 every command but INIT leaves the machine as it is but for its response.
-/

namespace Sys2Proof.Machine

open Sys2Proof.Config

/-! ## The checks that fail (R143, R147, R148) -/

/-- A refused tree command only responds (R147). -/
theorem State.unlessFatal_refused {s : State} (hf : s.fatal = true) (go : State) :
    s.unlessFatal go = s.offer ⟨.eFatal, 0⟩ := by
  rw [State.unlessFatal_fatal go hf, State.raise_of_not_fatal s 0 rfl]

/-- A command whose operand is out of range only responds (R143). -/
theorem State.withOperand_refused {α : Type} (s : State) {x : Option α} (hx : x = none) (go : α → State) :
    s.withOperand x go = s.offer ⟨.eRange, 0⟩ := by
  rw [hx, State.withOperand_none, State.raise_of_not_fatal s 0 rfl]

/-- Settles O20: the operand is looked at before the headroom, and after `FATAL` in the tree commands only (R148). -/
theorem outOfRangeOperandIsERange : Obligations.OutOfRangeOperandIsERange := by
  intro s opnd
  refine ⟨fun hsym hf => ?_, fun hslot => ?_, fun hcsr => ?_⟩
  · have hrange : ∀ go : Symbol → State,
        s.unlessFatal (s.withOperand (symOperand opnd) go) = s.offer ⟨.eRange, 0⟩ := fun go => by
      rw [State.unlessFatal_clear _ hf, s.withOperand_refused (symOperand_of_gt hsym)]
    exact ⟨congrArg _ (hrange _), congrArg _ (hrange _), congrArg _ (hrange _)⟩
  · exact ⟨exec_nodeRdW_of_gt s hslot, congrArg _ (s.withOperand_refused (slotOperand_of_gt hslot) _)⟩
  · exact congrArg _ (s.withOperand_refused (csrOperand_of_gt hcsr) _)

/-! ## The operands of the reads (R62) -/

/-- Every number up to 5 names a CSR (R26). -/
theorem csrOperand_of_le {opnd : Operand} (h : opnd.toNat ≤ 5) : ∃ n, csrOperand opnd = some n := by
  unfold csrOperand
  interval_cases opnd.toNat <;> exact ⟨_, rfl⟩

/-- An operand up to 510 is the number of a slot (R45). -/
theorem operand_eq_ofNat_slot {opnd : Operand} (h : opnd.toNat ≤ 510) :
    ∃ i : Fin 511, opnd = BitVec.ofNat 16 i.val :=
  ⟨⟨opnd.toNat, by omega⟩, by rw [BitVec.ofNat_toNat, BitVec.setWidth_eq]⟩

/-- Settles O21: the five tree commands are refused before anything else, and no other command looks at `FATAL`. -/
theorem fatalRefusesExactlyTheTreeCommands : Obligations.FatalRefusesExactlyTheTreeCommands := by
  intro s hf
  have hrefused : ∀ go : State, s.unlessFatal go = s.offer ⟨.eFatal, 0⟩ := State.unlessFatal_refused hf
  refine ⟨fun opnd => ⟨congrArg _ (hrefused _), congrArg _ (hrefused _), congrArg _ (hrefused _)⟩,
    congrArg _ (hrefused _), congrArg _ (hrefused _), exec_nop s, initBeginsAFreshSession s,
    fun opnd hcsr => ?_, fun opnd hslot => ?_⟩
  · obtain ⟨n, hn⟩ := csrOperand_of_le hcsr
    exact ⟨_, exec_csrRd s hn⟩
  · obtain ⟨i, rfl⟩ := operand_eq_ofNat_slot hslot
    exact ⟨⟨_, exec_nodeRdW s i⟩, ⟨_, exec_nodeRdS s i⟩⟩

/-! ## Only INIT and reset end a fatal state (R149) -/

/-- A read answers a value or E_RANGE, and does nothing else (R132, R135, R138). -/
theorem State.read_only_responds {α : Type} (s : State) (x : Option α) (value : α → Word) :
    ∃ r, s.withOperand x (fun a => s.respondOk (value a)) = s.offer r := by
  cases x with
  | none => exact ⟨_, s.withOperand_refused rfl _⟩
  | some a => exact ⟨_, rfl⟩

/-- While `FATAL` = 1 a command other than INIT only responds (R147). -/
theorem exec_only_responds_of_fatal {s : State} (hf : s.fatal = true) {i : Instr} (hi : i ≠ .init) :
    ∃ r, exec i s = .next (s.offer r) := by
  have hrefused : ∀ go : State, s.unlessFatal go = s.offer ⟨.eFatal, 0⟩ := State.unlessFatal_refused hf
  cases i with
  | init => exact absurd rfl hi
  | nop => exact ⟨_, exec_nop s⟩
  | encode | decode | update | map | walk => exact ⟨_, congrArg _ (hrefused _)⟩
  | csrRd | nodeRdW | nodeRdS => exact (s.read_only_responds _ _).imp fun _ h => congrArg _ h

/-- Settles O27: an offered response leaves all of what it speaks of. -/
theorem onlyInitClearsFatal : Obligations.OnlyInitClearsFatal := by
  intro s t i hf hi h
  obtain ⟨r, hr⟩ := exec_only_responds_of_fatal hf hi
  obtain rfl : s.offer r = t := Host.Outcome.next.inj (hr.symm.trans h)
  exact ⟨(State.offer_fatal s r).trans hf, State.offer_fatalCause s r, State.offer_tree s r, State.offer_binQ s r,
    State.offer_boutSent s r⟩

end Sys2Proof.Machine
end
